-- ==== Sys2Proof/Word.lean ====
section
/-!
DEFINITION. The word types of the core, with the widths that spec/00_scope.md rule R5 and
spec/10_state.md rule R20 give them, and their plainest arithmetic.
-/

namespace Sys2Proof

/-- A Symbol, a header byte, a payload byte or an emitted byte: 8 bits (R5, SYMW). -/
abbrev Byte := BitVec 8

/-- A counter, a BinaryCode, a bit count or a CSR's value: 32 bits (R5, CNTW, CODEW, BITLENW, CSRDW). -/
abbrev Word32 := BitVec 32

/-- A command word, `arg` in bits 39:8 and `op` in bits 7:0 (R80). -/
abbrev CmdWord := BitVec 40

/-- A CSR address (R5, CSRAW). -/
abbrev CsrAddr := BitVec 12

/-- A node index, and ROOT: 9 bits (R26, R27). -/
abbrev NodeIx := BitVec 9

/-- `zext_32` of R6. -/
def zext32 {n : Nat} (v : BitVec n) : Word32 := v.setWidth 32

end Sys2Proof
end

