-- ==== Sys2Proof/Config.lean ====
section
/-!
DEFINITION. The parameters of spec/00_scope.md rule R5. All but one have the value the spec
gives; OUTQ_DEPTH is left OPEN by the spec (D33) and is an opaque constant here, so that
nothing can be proved that rests on a particular depth.
-/

namespace Sys2Proof.Config

/-- MAXTUPLES, the greatest number of Code Table entries (R5). -/
def maxTuples : Nat := 255

/-- MAXLEN, the greatest Length the encoder produces (R5, R140). -/
def maxLen : Nat := 31

/-- The greatest value of a 32-bit register, `2^32 - 1` (R100, R150). -/
def maxWord : Nat := 4294967295

/-- UACCW, the width of the unpacker's accumulator (R5, R189). -/
def uaccWidth : Nat := 32

/-- MAGIC: the codes of Q, P, K (R5, R68). -/
def magic : List Byte := [0x51, 0x50, 0x4B]

/-- HDRFIX, the size of the fixed part of the header (R5). -/
def hdrFix : Nat := 8

/-- RECSZ, the size of one code table record (R5). -/
def recSize : Nat := 6

/-- The value the ID register reads (R1, R39). -/
def idValue : Word32 := 0x51504B01

/-- The value of ROOT that says "no root" (R27). -/
def noRoot : NodeIx := 0x1FF

/-- One less than OUTQ_DEPTH. The spec leaves the depth open, any value from 1 on
(R5, R75, D33); notes/assumptions/1.md. -/
opaque outqDepthPred : Nat

/-- OUTQ_DEPTH, the depth of the output FIFO: some number that is at least 1 (R5). -/
def outqDepth : Nat := outqDepthPred + 1

end Sys2Proof.Config
end

