-- ==== Sys2Proof/Machine/State.lean ====
section
/-!
DEFINITION. The state of the machine as plain data: the architectural record of
spec/10_state.md rule R20 (`Regs`), and beside it the three channels of spec/20_memory.md
rule R60 between the core and the host. Reset values: R44, R240. Stop reasons: `Fault`,
`Refusal`.
-/

namespace Sys2Proof.Machine

/-- PHASE (R21). The codes 11 to 14, which PHASE never takes, have no name here (U23). -/
inductive Phase where
  | idle | counting | ftReady | treeReady | tableReady | packing | packDone | encDone
  | hdrParse | unpacking | decDone | error
deriving DecidableEq, Repr

/-- The error codes of R211; `noError` is the code 0x00, "no error in this call". -/
inductive ErrorCode where
  | noError
  | illegalCmd | sequence
  | formatMagic | formatTruncHeader | formatTruncPayload | formatNocode
  | capAlphabet | capCount | capCodelen | capBitlen
  | nosym
deriving DecidableEq, Repr

/-- An entry of the Frequency Table (R25). -/
structure FtEntry where
  sym : Byte
  cnt : Word32
deriving DecidableEq, Repr

/-- A node of the Code Tree (R26): a leaf owns a symbol, an internal node two children given
by their indices in the arena; both own a frequency. -/
inductive Node where
  | leaf (sym : Byte) (freq : Word32)
  | internal (left right : NodeIx) (freq : Word32)
deriving DecidableEq, Repr

/-- An entry of the Code Table (R28). -/
structure CtEntry where
  sym : Byte
  code : Word32
  len : Byte
deriving DecidableEq, Repr

/-- The architectural state (R20), "exactly the record below". The three tables are lists of
exactly their counted length (R40, U25), so FTN, NN and CTN are the lengths of `ft`, `node` and
`ct`: see `Regs.ftn`, `Regs.nn`, `Regs.ctn` in Machine/Flags.lean. -/
structure Regs where
  phase   : Phase               -- PHASE, R21
  err     : ErrorCode           -- ERR, R22
  errInfo : Word32              -- ERRINFO, R22
  ephase  : Phase               -- EPHASE, R22
  cnt     : Vector Word32 256   -- CNT[0..255], R23
  total   : Word32              -- TOTAL, R24
  ft      : List FtEntry        -- FT and FTN, R25
  node    : List Node           -- NODE and NN, R26
  root    : NodeIx              -- ROOT, R27
  ct      : List CtEntry        -- CT and CTN, R28
  bitlen  : Word32              -- BITLEN, R29
  hdrsize : BitVec 11           -- HDRSIZE, R30
  pacc    : BitVec 7            -- PACC, R31
  pcnt    : BitVec 3            -- PCNT, R31
  uacc    : Word32              -- UACC, R32
  ucnt    : BitVec 6            -- UCNT, R32
  ucons   : Word32              -- UCONS, R32
  hpos    : BitVec 11           -- HPOS, R33
  hsym    : Byte                -- HSYM, R33
  hcode   : Word32              -- HCODE, R33
  outcnt  : Word32              -- OUTCNT, R34
deriving DecidableEq, Repr

/-- The values after reset and after CLEAR (R44). -/
def Regs.reset : Regs where
  phase   := .idle
  err     := .noError
  errInfo := 0
  ephase  := .idle
  cnt     := Vector.replicate 256 0
  total   := 0
  ft      := []
  node    := []
  root    := Config.noRoot
  ct      := []
  bitlen  := 0
  hdrsize := 0
  pacc    := 0
  pcnt    := 0
  uacc    := 0
  ucnt    := 0
  ucons   := 0
  hpos    := 0
  hsym    := 0
  hcode   := 0
  outcnt  := 0

/-- What the host can do to the core: "These four are everything the host can do to the core"
(R60). -/
inductive HostAction where
  | command (w : CmdWord)     -- (a) issue a command
  | takeByte                  -- (b) take the next byte of the output stream
  | readCsr (a : CsrAddr)     -- (c) read a CSR
  | assertReset               -- (d) assert reset
deriving DecidableEq, Repr

/-- The machine: the core's record, the output stream, and the host's side of the channels.
`host`, `taken` and `csrData` are the model's own (notes/assumptions/2.md). -/
structure State where
  regs    : Regs                -- R20
  outQ    : List Byte           -- the output stream: bytes emitted and not yet taken, oldest first (R73)
  host    : List HostAction     -- the host's coming actions, the next one first (R60)
  taken   : List Byte           -- the bytes the host has taken, oldest first (R60 (b))
  csrData : List Word32         -- the answers to the host's CSR reads, oldest first (R60 (c))
deriving DecidableEq, Repr

/-- The machine right after reset (R240, R44): the record at its reset values, the output FIFO
empty (R242), no action of the host yet. -/
def State.reset : State where
  regs    := Regs.reset
  outQ    := []
  host    := []
  taken   := []
  csrData := []

/-- Why the machine stops. -/
inductive Fault where
  /-- Raised by CODEGEN alone, when NODE and ROOT are not a tree: a child's index or ROOT names no
  node, a path never ends in a leaf, or FTN = 1 and NODE[0] is no leaf. No command sequence leads
  there (R127), so the spec says nothing of it. Safe: the model stops, no value is invented
  (notes/assumptions/3.md). -/
  | brokenTree
deriving DecidableEq, Repr

/-- Why a command is given no meaning. -/
inductive Refusal where
  /-- Raised by an arm of `exec` whose instruction has no meaning yet; no arm does. Safe. -/
  | notModelled (mnemonic : String)
deriving DecidableEq, Repr

/-- What a command's own rule computes from the record (R7): it completes with a new record and
the bytes it emits in order, or it raises an error with its information word, or the state it
reads is no state of the spec's. The emission count is kept by the shared `finish`, not here. -/
inductive CmdResult where
  | done (r : Regs) (emitted : List Byte)
  | raised (e : ErrorCode) (info : Word32)
  | stuck (f : Fault)
deriving DecidableEq, Repr

end Sys2Proof.Machine
end

