-- ==== Sys2Proof/Machine/Flags.lean ====
section
/-!
DEFINITION. The machine has no condition codes (spec/10_state.md rule R37); its status is
PHASE, EPHASE, ERR and the flag ERRF. Here: their numeric codes (R21, R211), the STATUS word
(R39), and the counts FTN, NN and CTN as the registers R20 makes them.
-/

namespace Sys2Proof.Machine

/-- The value of PHASE (R21). -/
def Phase.code : Phase → BitVec 4
  | .idle => 0
  | .counting => 1
  | .ftReady => 2
  | .treeReady => 3
  | .tableReady => 4
  | .packing => 5
  | .packDone => 6
  | .encDone => 7
  | .hdrParse => 8
  | .unpacking => 9
  | .decDone => 10
  | .error => 15

/-- The value of ERR (R211). -/
def ErrorCode.code : ErrorCode → BitVec 8
  | .noError => 0x00
  | .illegalCmd => 0x01
  | .sequence => 0x02
  | .formatMagic => 0x10
  | .formatTruncHeader => 0x11
  | .formatTruncPayload => 0x12
  | .formatNocode => 0x13
  | .capAlphabet => 0x20
  | .capCount => 0x21
  | .capCodelen => 0x22
  | .capBitlen => 0x23
  | .nosym => 0x30

/-- ERRF: 1 exactly when PHASE = 15 (R37, R39). -/
def Regs.errf (r : Regs) : BitVec 1 := if r.phase = .error then 1 else 0

/-- STATUS: PHASE in bits 3:0, EPHASE in bits 7:4, ERRF in bit 8, zeros above (R39). -/
def Regs.status (r : Regs) : Word32 :=
  (0#23 : BitVec 23) ++ r.errf ++ r.ephase.code ++ r.phase.code

/-- FTN, 9 bits: the number of Frequency Table entries (R25). -/
def Regs.ftn (r : Regs) : BitVec 9 := BitVec.ofNat 9 r.ft.length

/-- NN, 9 bits: the number of nodes (R26). -/
def Regs.nn (r : Regs) : BitVec 9 := BitVec.ofNat 9 r.node.length

/-- CTN, 8 bits: the number of Code Table entries (R28). -/
def Regs.ctn (r : Regs) : BitVec 8 := BitVec.ofNat 8 r.ct.length

/-- The phase whose data the record holds: in ERROR "the state is frozen as the failing command
found it" (R43), so there it is EPHASE. -/
def Regs.stage (r : Regs) : Phase := if r.phase = .error then r.ephase else r.phase

end Sys2Proof.Machine
end

