-- ==== Sys2Proof/Machine/Ops.lean ====
section
/-!
DEFINITION. The operations the commands share: taking an error (spec/60_exceptions.md rules
R227 to R229) and the return from it (R230, CLEAR), emission (spec/20_memory.md rule R73), the
counters' read and increment, byte slices of a 32-bit register, and the frame every command
but NOP and CLEAR runs in (spec/30_encoding.md rule R91, steps 2, 5 and 6).
-/

namespace Sys2Proof.Machine

/-- Error entry (R227): ERR, ERRINFO, EPHASE and PHASE are written, and nothing else. -/
def errorEntry (s : State) (e : ErrorCode) (info : Word32) : State :=
  { s with regs := { s.regs with err := e, errInfo := info, ephase := s.regs.phase, phase := .error } }

/-- The return from ERROR and the start of a call: every element of the record takes its value
of R44; the output stream is not touched (R201, R230). -/
def clearRegs (s : State) : State := { s with regs := Regs.reset }

/-- `Emit` of each byte of a list in order: append to the tail of the output stream, add to
OUTCNT (R73). -/
def emit (s : State) (bytes : List Byte) : State :=
  { s with
    outQ := s.outQ ++ bytes
    regs := { s.regs with outcnt := s.regs.outcnt + BitVec.ofNat 32 bytes.length } }

/-- The end of a command's own rule. An error undoes every write and every Emit of the command
(R228): its record and bytes are not part of `raised` at all. -/
def finish (s : State) : CmdResult → Host.Outcome State Fault Refusal
  | .done r bytes => .next (emit { s with regs := r } bytes)
  | .raised e info => .next (errorEntry s e info)
  | .stuck f => .fault f

/-- A command with opcode `op`, legal in the phases `legal`, whose own rule is `body` (R91,
steps 2, 5 and 6): dropped in ERROR (R229), SEQUENCE in a phase not listed (R213). -/
def runCommand (op : Byte) (legal : List Phase) (body : Regs → CmdResult) (s : State) :
    Host.Outcome State Fault Refusal :=
  if s.regs.phase = .error then .next s
  else if s.regs.phase ∈ legal then finish s (body s.regs)
  else .next (errorEntry s .sequence (zext32 op))

/-- CNT[b] (R23). -/
def counter (cnt : Vector Word32 256) (b : Byte) : Word32 := cnt[b.toNat]'(b.isLt)

/-- CNT[b] <- CNT[b] + 1 (R100). -/
def bump (cnt : Vector Word32 256) (b : Byte) : Vector Word32 256 :=
  cnt.set b.toNat (counter cnt b + 1) b.isLt

/-- Byte `k` of a 32-bit value, bits 8k+7 : 8k (R62). -/
def byteOf (k : Nat) (v : Word32) : Byte := v.extractLsb' (8 * k) 8

/-- The four bytes of a 32-bit value, least significant first (R62). -/
def bytesLE (v : Word32) : List Byte := [byteOf 0 v, byteOf 1 v, byteOf 2 v, byteOf 3 v]

/-- `v` with byte `k`, bits 8k+7 : 8k, replaced by `b` (R167). -/
def setByte (k : Nat) (b : Byte) (v : Word32) : Word32 :=
  (v &&& ~~~(0xFF#32 <<< (8 * k))) ||| (zext32 b <<< (8 * k))

/-- The bits of a byte, most significant first (R63). -/
def bitsMsb (b : Byte) : List Bool := (List.range 8).map b.getMsbD

/-- The 256 symbols in ascending order. -/
def allSymbols : List Byte := (List.range 256).map (BitVec.ofNat 8)

end Sys2Proof.Machine
end

