-- ==== Sys2Proof/Machine/TreeBuilder.lean ====
section
/-!
DEFINITION. The Code Tree Builder: TREE (spec/41_tree_builder.md rules R120 to R131), as the
sorted list of R120, "which the model should use" (R130).
-/

namespace Sys2Proof.Machine

/-- The frequency of a node (R26). -/
def Node.freq : Node → Word32
  | .leaf _ f => f
  | .internal _ _ f => f

/-- NODE[j].freq. TREE asks it only of indices below NN (R40). -/
def nodeFreq (nodes : List Node) (j : Nat) : Nat :=
  match nodes[j]? with
  | some n => n.freq.toNat
  | none => 0

/-- One leaf per Frequency Table entry, in the table's order (R121). -/
def leavesOf (ft : List FtEntry) : List Node := ft.map fun e => .leaf e.sym e.cnt

/-- The initial working sequence [K-1, ..., 1, 0] (R122). -/
def initialWq (k : Nat) : List Nat := (List.range k).reverse

/-- Stable insertion of the new node `n` with frequency `f` into the working sequence: after all
nodes of equal or lesser frequency, before any of greater (R124). -/
def insertWq (nodes : List Node) (n f : Nat) (wq : List Nat) : List Nat :=
  let p := (wq.filter fun j => decide (nodeFreq nodes j ≤ f)).length
  wq.take p ++ [n] ++ wq.drop p

/-- The merge loop (R123): while two nodes are left, the first removed becomes the left child and
the second the right. Each round shortens the working sequence by one, so its length is fuel
enough (R125). -/
def mergeLoop : Nat → List Node → List Nat → List Node × List Nat
  | fuel + 1, nodes, a :: b :: rest =>
    let f := nodeFreq nodes a + nodeFreq nodes b
    let nodes' := nodes ++ [.internal (BitVec.ofNat 9 a) (BitVec.ofNat 9 b) (BitVec.ofNat 32 f)]
    mergeLoop fuel nodes' (insertWq nodes nodes.length f rest)
  | _, nodes, wq => (nodes, wq)

/-- The Code Tree of a Frequency Table: NODE, and ROOT, which is 0x1FF for the empty table (R120,
R125, R126). -/
def buildTree (ft : List FtEntry) : List Node × NodeIx :=
  let r := mergeLoop ft.length (leavesOf ft) (initialWq ft.length)
  (r.1, match r.2 with
        | j :: _ => BitVec.ofNat 9 j
        | [] => Config.noRoot)

/-- TREE's own rule (R120). -/
def treeBody (r : Regs) : CmdResult :=
  .done { r with node := (buildTree r.ft).1, root := (buildTree r.ft).2, phase := .treeReady } []

/-- TREE (R120). -/
def execTree (s : State) : Host.Outcome State Fault Refusal :=
  runCommand 0x20 [.ftReady] treeBody s

end Sys2Proof.Machine
end

