-- ==== Sys2Proof/Machine/Csr.lean ====
section
/-!
DEFINITION. The CSR read channel (spec/10_state.md rules R38 to R41): the map, the array windows
gated by their counts, and the packing of NODE_INFO.
-/

namespace Sys2Proof.Machine

/-- NODE_INFO's packing (R41): kind in bit 0; a leaf's symbol in bits 8:1; an internal node's left
index in bits 9:1 and right index in bits 18:10. -/
def Node.info : Node → Word32
  | .leaf sym _ => (0#23 : BitVec 23) ++ sym ++ 0#1
  | .internal left right _ => (0#13 : BitVec 13) ++ right ++ left ++ 1#1

/-- An array window (R40): entry `i` of a table, or 0 from its count on. -/
def window {α : Type} (table : List α) (view : α → Word32) (i : Nat) : Word32 :=
  match table[i]? with
  | some x => view x
  | none => 0

/-- The scalar CSRs, addresses 0x000 to 0x011 (R38); any other address reads 0. -/
def scalarCsr (r : Regs) (a : Nat) : Word32 :=
  match a with
  | 0x000 => Config.idValue
  | 0x001 => r.status
  | 0x002 => zext32 r.err.code
  | 0x003 => r.errInfo
  | 0x004 => r.total
  | 0x005 => zext32 r.ftn
  | 0x006 => zext32 r.nn
  | 0x007 => zext32 r.root
  | 0x008 => zext32 r.ctn
  | 0x009 => r.bitlen
  | 0x00A => zext32 r.hdrsize
  | 0x00B => zext32 r.pacc
  | 0x00C => zext32 r.pcnt
  | 0x00D => r.uacc
  | 0x00E => zext32 r.ucnt
  | 0x00F => r.ucons
  | 0x010 => zext32 r.hpos
  | 0x011 => r.outcnt
  | _ => 0

/-- `CsrRead(a)` (R38): the 32-bit value at a 12-bit address; unmapped addresses read 0. A read
changes nothing (R67). -/
def csrRead (r : Regs) (addr : CsrAddr) : Word32 :=
  let a := addr.toNat
  if a < 0x100 then scalarCsr r a
  else if a < 0x200 then counter r.cnt (BitVec.ofNat 8 (a - 0x100))
  else if a < 0x300 then window r.ft (fun e => zext32 e.sym) (a - 0x200)
  else if a < 0x400 then window r.ft (fun e => e.cnt) (a - 0x300)
  else if a < 0x4FF then window r.ct (fun e => zext32 e.sym) (a - 0x400)
  else if a < 0x500 then 0
  else if a < 0x5FF then window r.ct (fun e => e.code) (a - 0x500)
  else if a < 0x600 then 0
  else if a < 0x6FF then window r.ct (fun e => zext32 e.len) (a - 0x600)
  else if a < 0x800 then 0
  else if a < 0x9FF then window r.node Node.freq (a - 0x800)
  else if a < 0xA00 then 0
  else if a < 0xBFF then window r.node Node.info (a - 0xA00)
  else 0

end Sys2Proof.Machine
end

