-- ==== Sys2Proof/Machine/Operands.lean ====
section
/-!
DEFINITION. The fields of a command word and the operand forms of spec/30_encoding.md rules
R80 to R84: `op`, `arg`, the byte lanes `arg.b(i)`, and the three formats N, S and P with
their assembly.
-/

namespace Sys2Proof.Machine

/-- `op`, bits 7:0 of a command word (R80). -/
def opOf (w : CmdWord) : Byte := w.extractLsb' 0 8

/-- `arg`, bits 39:8 of a command word (R80). -/
def argOf (w : CmdWord) : Word32 := w.extractLsb' 8 32

/-- `arg.b(i)` = arg[8i+7 : 8i] (R7, R80). -/
def laneOf (arg : Word32) (i : Nat) : Byte := arg.extractLsb' (8 * i) 8

/-- The word `arg`, `op` (R80, R64): `op` is the low byte. -/
def wordOf (arg : Word32) (op : Byte) : CmdWord := arg ++ op

/-- The argument of format N: no operand (R81). -/
def argN : Word32 := 0

/-- The argument of format S: one operand byte in lane 0, zeros above (R82). -/
def argS (b : Byte) : Word32 := (0#24 : BitVec 24) ++ b

/-- The argument of format P: lane 0 lowest (R83, R64). -/
def argP (b0 b1 b2 b3 : Byte) : Word32 := b3 ++ b2 ++ b1 ++ b0

/-- Format N's reserved bits, all of `arg`, are zero (R81). -/
def reservedZeroN (arg : Word32) : Bool := arg == 0

/-- Format S's reserved bits, arg[31:8], are zero (R82). -/
def reservedZeroS (arg : Word32) : Bool := arg.extractLsb' 8 24 == 0

/-- Format P's reserved lanes, those from lane `n` on, are zero (R83). -/
def reservedZeroP (n : Nat) (arg : Word32) : Bool :=
  (List.range 4).all fun i => decide (i < n) || laneOf arg i == 0

end Sys2Proof.Machine
end

