-- ==== Sys2Proof/Syntax.lean ====
section
/-!
DEFINITION. The commands: one constructor per row of spec/opcode_table.json, in the table's
order, and the mnemonics and source lines of spec/30_encoding.md rule R89. Every operand of
this hardware is an unsigned byte taken as it is (R84), so it is a `Byte`.
-/

namespace Sys2Proof

/-- A command (R85). -/
inductive Instr where
  | nop                                 -- NOP       R200
  | clear                               -- CLEAR     R201
  | count1 (b0 : Byte)                  -- COUNT.1   R101
  | count2 (b0 b1 : Byte)               -- COUNT.2   R102
  | count3 (b0 b1 b2 : Byte)            -- COUNT.3   R103
  | count4 (b0 b1 b2 b3 : Byte)         -- COUNT.4   R104
  | ftbuild                             -- FTBUILD   R106
  | tree                                -- TREE      R120
  | codegen                             -- CODEGEN   R135
  | pack (b : Byte)                     -- PACK      R150
  | packEnd                             -- PACK.END  R152
  | hdrWr                               -- HDR.WR    R165
  | hdrRd (b : Byte)                    -- HDR.RD    R167
  | unpack (b : Byte)                   -- UNPACK    R185
  | eof                                 -- EOF       R190
deriving DecidableEq, Repr

/-- The mnemonics of R85, as the assembler of R89 writes them. -/
inductive Mnemonic where
  | nop | clear | count1 | count2 | count3 | count4 | ftbuild | tree | codegen
  | pack | packEnd | hdrWr | hdrRd | unpack | eof
deriving DecidableEq, Repr

/-- One line of R89's assembler: a mnemonic and its operands as the numbers written there.
Only here can an operand be out of range or missing: see `SourceLine.wellFormed`. -/
structure SourceLine where
  mnemonic : Mnemonic
  operands : List Nat
deriving DecidableEq, Repr

end Sys2Proof
end

