-- ==== Sys2Proof/WellFormed.lean ====
section
/-!
DEFINITION. What is well formed. A term of `Instr` always is: each of its operands is a byte
and a byte is all that R84 asks of an operand. Two things can be ill formed and are checked
here: a 40-bit command word (spec/30_encoding.md rules R81 to R83, R85, R86), and a line of
assembler source (R89).
-/

namespace Sys2Proof

/-- The command formats (R81, R82, R83). -/
inductive Format where
  | none                  -- format N
  | oneByte               -- format S
  | lanes (n : Nat)       -- format P, `n` lanes in use
deriving DecidableEq, Repr

/-- The opcode map's format column (R85); an opcode outside the map has no format. -/
def formatOf (op : Byte) : Option Format :=
  if op ∈ [0x00, 0x01, 0x14, 0x20, 0x30, 0x41, 0x50, 0x61] then some .none
  else if op ∈ [0x40, 0x51, 0x60] then some .oneByte
  else if op ∈ [0x10, 0x11, 0x12, 0x13] then some (.lanes ((op &&& 3).toNat + 1))
  else none

/-- The bits of `arg` a format reserves are zero. -/
def Format.reservedZero : Format → Word32 → Bool
  | .none, arg => Machine.reservedZeroN arg
  | .oneByte, arg => Machine.reservedZeroS arg
  | .lanes n, arg => Machine.reservedZeroP n arg

/-- A legal command word: a defined opcode with every reserved bit zero. Its negation is
R86's "illegal". -/
def wordLegal (w : CmdWord) : Bool :=
  match formatOf (Machine.opOf w) with
  | some f => f.reservedZero (Machine.argOf w)
  | none => false

/-- The number of operands a mnemonic takes (R89). -/
def Mnemonic.arity : Mnemonic → Nat
  | .nop | .clear | .ftbuild | .tree | .codegen | .packEnd | .hdrWr | .eof => 0
  | .count1 | .pack | .hdrRd | .unpack => 1
  | .count2 => 2
  | .count3 => 3
  | .count4 => 4

/-- A source line has exactly its mnemonic's operands, each a byte value 0..255 (R89). -/
def SourceLine.wellFormed (l : SourceLine) : Bool :=
  l.operands.length == l.mnemonic.arity && l.operands.all (· < 256)

end Sys2Proof
end

