-- ==== Sys2Proof/Decode.lean ====
section
/-!
DEFINITION. Decoding of a 40-bit command word (spec/30_encoding.md rules R80 to R87), total
and rejecting by name, then the encoder, the assembler of R89, and the opcode table as the
match and mask values of spec/opcode_table.json.
-/

namespace Sys2Proof

/-- Why a word is not a command (R86). Both kinds raise ILLEGAL_CMD. -/
inductive DecodeError where
  | undefinedOpcode (op : Byte)     -- `op` is not in R85
  | reservedBits (op : Byte)        -- a bit its format requires to be zero is 1
deriving DecidableEq, Repr

/-- The opcode column of R85. -/
def Mnemonic.opcode : Mnemonic → Byte
  | .nop => 0x00
  | .clear => 0x01
  | .count1 => 0x10
  | .count2 => 0x11
  | .count3 => 0x12
  | .count4 => 0x13
  | .ftbuild => 0x14
  | .tree => 0x20
  | .codegen => 0x30
  | .pack => 0x40
  | .packEnd => 0x41
  | .hdrWr => 0x50
  | .hdrRd => 0x51
  | .unpack => 0x60
  | .eof => 0x61

/-- The format column of R85. -/
def Mnemonic.format : Mnemonic → Format
  | .nop | .clear | .ftbuild | .tree | .codegen | .packEnd | .hdrWr | .eof => .none
  | .pack | .hdrRd | .unpack => .oneByte
  | .count1 => .lanes 1
  | .count2 => .lanes 2
  | .count3 => .lanes 3
  | .count4 => .lanes 4

/-- The rows of R85 in its order. -/
def allMnemonics : List Mnemonic :=
  [.nop, .clear, .count1, .count2, .count3, .count4, .ftbuild, .tree, .codegen,
   .pack, .packEnd, .hdrWr, .hdrRd, .unpack, .eof]

/-- The row of R85 with the opcode `op`, if there is one. -/
def mnemonicOf (op : Byte) : Option Mnemonic := allMnemonics.find? fun m => m.opcode == op

/-- The command of a mnemonic with the operand bytes `b`. -/
def Mnemonic.instr (m : Mnemonic) (b : Nat → Byte) : Instr :=
  match m with
  | .nop => .nop
  | .clear => .clear
  | .count1 => .count1 (b 0)
  | .count2 => .count2 (b 0) (b 1)
  | .count3 => .count3 (b 0) (b 1) (b 2)
  | .count4 => .count4 (b 0) (b 1) (b 2) (b 3)
  | .ftbuild => .ftbuild
  | .tree => .tree
  | .codegen => .codegen
  | .pack => .pack (b 0)
  | .packEnd => .packEnd
  | .hdrWr => .hdrWr
  | .hdrRd => .hdrRd (b 0)
  | .unpack => .unpack (b 0)
  | .eof => .eof

/-- The command of the opcode `op` with the argument `arg`: the row of the opcode map, its
format's reserved bits checked (R86), its operands the first lanes of `arg` (R82, R83). -/
def decodeFields (op : Byte) (arg : Word32) : Except DecodeError Instr :=
  match mnemonicOf op with
  | none => .error (.undefinedOpcode op)
  | some m =>
    if m.format.reservedZero arg then .ok (m.instr (Machine.laneOf arg))
    else .error (.reservedBits op)

/-- The command a word stands for, or why it stands for none. It depends on the word alone
(R87). -/
def decode (w : CmdWord) : Except DecodeError Instr :=
  decodeFields (Machine.opOf w) (Machine.argOf w)

/-- The mnemonic of a command. -/
def Instr.mnemonic : Instr → Mnemonic
  | .nop => .nop
  | .clear => .clear
  | .count1 .. => .count1
  | .count2 .. => .count2
  | .count3 .. => .count3
  | .count4 .. => .count4
  | .ftbuild => .ftbuild
  | .tree => .tree
  | .codegen => .codegen
  | .pack _ => .pack
  | .packEnd => .packEnd
  | .hdrWr => .hdrWr
  | .hdrRd _ => .hdrRd
  | .unpack _ => .unpack
  | .eof => .eof

/-- The opcode of a command (R85). -/
def Instr.opcode (i : Instr) : Byte := i.mnemonic.opcode

/-- The argument of a command, assembled by its format (R81, R82, R83). -/
def Instr.arg : Instr → Word32
  | .nop | .clear | .ftbuild | .tree | .codegen | .packEnd | .hdrWr | .eof => Machine.argN
  | .count1 b0 => Machine.argP b0 0 0 0
  | .count2 b0 b1 => Machine.argP b0 b1 0 0
  | .count3 b0 b1 b2 => Machine.argP b0 b1 b2 0
  | .count4 b0 b1 b2 b3 => Machine.argP b0 b1 b2 b3
  | .pack b | .hdrRd b | .unpack b => Machine.argS b

/-- The word of a command (R80, R89). -/
def encode (i : Instr) : CmdWord := Machine.wordOf i.arg i.opcode

/-- The operands of a command as the numbers R89 writes. -/
def Instr.operands : Instr → List Nat
  | .nop | .clear | .ftbuild | .tree | .codegen | .packEnd | .hdrWr | .eof => []
  | .count1 b0 => [b0.toNat]
  | .count2 b0 b1 => [b0.toNat, b1.toNat]
  | .count3 b0 b1 b2 => [b0.toNat, b1.toNat, b2.toNat]
  | .count4 b0 b1 b2 b3 => [b0.toNat, b1.toNat, b2.toNat, b3.toNat]
  | .pack b | .hdrRd b | .unpack b => [b.toNat]

/-- The assembler of R89: a well-formed line is a command, any other line is refused. -/
def SourceLine.assemble (l : SourceLine) : Option Instr :=
  if l.wellFormed then some (l.mnemonic.instr fun k => BitVec.ofNat 8 (l.operands.getD k 0))
  else none

/-- A row of spec/opcode_table.json: the words `w` with `w &&& mask = pattern`. -/
structure OpcodeRow where
  mnemonic : Mnemonic
  pattern : CmdWord
  mask : CmdWord
deriving DecidableEq, Repr

/-- spec/opcode_table.json's "match" and "mask" columns, row by row. -/
def opcodeTable : List OpcodeRow :=
  [ ⟨.nop,     0x0000000000, 0xFFFFFFFFFF⟩,
    ⟨.clear,   0x0000000001, 0xFFFFFFFFFF⟩,
    ⟨.count1,  0x0000000010, 0xFFFFFF00FF⟩,
    ⟨.count2,  0x0000000011, 0xFFFF0000FF⟩,
    ⟨.count3,  0x0000000012, 0xFF000000FF⟩,
    ⟨.count4,  0x0000000013, 0x00000000FF⟩,
    ⟨.ftbuild, 0x0000000014, 0xFFFFFFFFFF⟩,
    ⟨.tree,    0x0000000020, 0xFFFFFFFFFF⟩ ] ++
  [ ⟨.codegen, 0x0000000030, 0xFFFFFFFFFF⟩,
    ⟨.pack,    0x0000000040, 0xFFFFFF00FF⟩,
    ⟨.packEnd, 0x0000000041, 0xFFFFFFFFFF⟩,
    ⟨.hdrWr,   0x0000000050, 0xFFFFFFFFFF⟩,
    ⟨.hdrRd,   0x0000000051, 0xFFFFFF00FF⟩,
    ⟨.unpack,  0x0000000060, 0xFFFFFF00FF⟩,
    ⟨.eof,     0x0000000061, 0xFFFFFFFFFF⟩ ]

/-- A word belongs to a row of the table. -/
def OpcodeRow.matchesWord (r : OpcodeRow) (w : CmdWord) : Bool := w &&& r.mask == r.pattern

/-- The command word whose low `nbits` bits are `w` and whose other bits are zero, numbered as
spec/opcode_table.json numbers them (bit 0 least significant; a command is ONE 40-bit word). -/
def tableWord (nbits w : Nat) : CmdWord := BitVec.ofNat 40 (w % 2 ^ nbits)

/-- What the decoder reads from the `nbits` bits `w` of a row of the table; a row wider than a
command word is no command. -/
def decodeTableWord (nbits w : Nat) : Option Instr :=
  if nbits ≤ 40 then (decode (tableWord nbits w)).toOption else none

end Sys2Proof
end

