-- ==== Sys2Proof/Machine/Analyzer.lean ====
section
/-!
DEFINITION. The Frequency Analyzer: COUNT.1 to COUNT.4 and FTBUILD
(spec/40_frequency_analyzer.md rules R100 to R109).
-/

namespace Sys2Proof.Machine

/-- The common rule of COUNT.n for the symbols of its lanes in order (R100): the guard for the
whole command first, then one increment a lane. -/
def countBody (lanes : List Byte) (r : Regs) : CmdResult :=
  if r.total.toNat + lanes.length > Config.maxWord then .raised .capCount r.total
  else .done
    { r with
      cnt := lanes.foldl bump r.cnt
      total := r.total + BitVec.ofNat 32 lanes.length
      phase := .counting } []

/-- COUNT.1 b0 (R101). -/
def execCount1 (b0 : Byte) (s : State) : Host.Outcome State Fault Refusal :=
  runCommand 0x10 [.idle, .counting] (countBody [b0]) s

/-- COUNT.2 b0,b1 (R102). -/
def execCount2 (b0 b1 : Byte) (s : State) : Host.Outcome State Fault Refusal :=
  runCommand 0x11 [.idle, .counting] (countBody [b0, b1]) s

/-- COUNT.3 b0,b1,b2 (R103). -/
def execCount3 (b0 b1 b2 : Byte) (s : State) : Host.Outcome State Fault Refusal :=
  runCommand 0x12 [.idle, .counting] (countBody [b0, b1, b2]) s

/-- COUNT.4 b0,b1,b2,b3 (R104). -/
def execCount4 (b0 b1 b2 b3 : Byte) (s : State) : Host.Outcome State Fault Refusal :=
  runCommand 0x13 [.idle, .counting] (countBody [b0, b1, b2, b3]) s

/-- The list `L` of FTBUILD: the symbols that occur, ascending, with their counts (R106). -/
def occurring (cnt : Vector Word32 256) : List FtEntry :=
  (allSymbols.filter fun b => decide (1 ≤ (counter cnt b).toNat)).map fun b => ⟨b, counter cnt b⟩

/-- The order of the Frequency Table: descending count, among equal counts ascending symbol
(R106). -/
def FtEntry.before (a b : FtEntry) : Bool :=
  decide (b.cnt.toNat < a.cnt.toNat) || (a.cnt == b.cnt && decide (a.sym.toNat < b.sym.toNat))

/-- Insertion at the sorted position. -/
def insertFt (e : FtEntry) : List FtEntry → List FtEntry
  | [] => [e]
  | f :: fs => if e.before f then e :: f :: fs else f :: insertFt e fs

/-- A list of entries in the order of the Frequency Table; the order is total, so the result is
unique (R106). -/
def sortFt : List FtEntry → List FtEntry
  | [] => []
  | e :: es => insertFt e (sortFt es)

/-- The Frequency Table of the counters (R106). -/
def buildFt (cnt : Vector Word32 256) : List FtEntry := sortFt (occurring cnt)

/-- FTBUILD's own rule (R106). -/
def ftbuildBody (r : Regs) : CmdResult :=
  .done { r with ft := buildFt r.cnt, phase := .ftReady } []

/-- FTBUILD (R106, R108). -/
def execFtbuild (s : State) : Host.Outcome State Fault Refusal :=
  runCommand 0x14 [.idle, .counting] ftbuildBody s

end Sys2Proof.Machine
end

