-- ==== Sys2Proof/Machine/CodeTable.lean ====
section
/-!
DEFINITION. The Code Table Generator: CODEGEN (spec/42_code_table_generator.md rules R135 to
R143).
-/

namespace Sys2Proof.Machine

/-- What ends a walk without a table. -/
inductive WalkStop where
  | tooDeep (sym : Byte)     -- CAP_CODELEN at this leaf (R140)
  | noTree                   -- NODE is no tree (see `Fault.brokenTree`)
deriving DecidableEq, Repr

/-- `Walk(j, code, len)` (R135, R136), with the code on unbounded naturals so that the check and
not a wrap decides. The first leaf in walk order that is too deep ends it, since the left walk
is done first. A path in a tree of NN nodes has at most NN nodes, so NN is fuel enough. -/
def walk (nodes : List Node) : Nat → Nat → Nat → Nat → Except WalkStop (List CtEntry)
  | 0, _, _, _ => .error .noTree
  | fuel + 1, j, code, len =>
    match (nodes[j]? : Option Node) with
    | none => .error .noTree
    | some (.leaf sym _) =>
      if len > Config.maxLen then .error (.tooDeep sym)
      else .ok [⟨sym, BitVec.ofNat 32 code, BitVec.ofNat 8 len⟩]
    | some (.internal left right _) =>
      match walk nodes fuel left.toNat (code <<< 1) (len + 1) with
      | .error e => .error e
      | .ok ls =>
        match walk nodes fuel right.toNat ((code <<< 1) ||| 1) (len + 1) with
        | .error e => .error e
        | .ok rs => .ok (ls ++ rs)

/-- The Code Table of a tree with `k` leaves, at most 255 of them: none, the promoted single leaf
(R137), or the walk from ROOT (R136). -/
def codeTable (k : Nat) (nodes : List Node) (root : NodeIx) : Except WalkStop (List CtEntry) :=
  if k = 0 then .ok []
  else if k = 1 then
    match (nodes[0]? : Option Node) with
    | some (.leaf sym _) => .ok [⟨sym, 0, 1⟩]
    | _ => .error .noTree
  else walk nodes nodes.length root.toNat 0 0

/-- CODEGEN's own rule (R135): the alphabet check before the walk (R139). -/
def codegenBody (r : Regs) : CmdResult :=
  if r.ft.length > Config.maxTuples then .raised .capAlphabet (BitVec.ofNat 32 r.ft.length)
  else
    match codeTable r.ft.length r.node r.root with
    | .ok t => .done { r with ct := t, phase := .tableReady } []
    | .error (.tooDeep sym) => .raised .capCodelen (zext32 sym)
    | .error .noTree => .stuck .brokenTree

/-- CODEGEN (R135). -/
def execCodegen (s : State) : Host.Outcome State Fault Refusal :=
  runCommand 0x30 [.treeReady] codegenBody s

end Sys2Proof.Machine
end

