-- ==== Sys2Proof/Machine/Container.lean ====
section
/-!
DEFINITION. The Container Codec: HDR.WR and HDR.RD (spec/44_container_codec.md rules R165 to
R175), on the file layout of spec/20_memory.md rule R68.
-/

namespace Sys2Proof.Machine

/-- The 6-byte record of an entry: symbol, binaryCode little-endian, length (R68, R165). -/
def recordBytes (e : CtEntry) : List Byte := [e.sym] ++ bytesLE e.code ++ [e.len]

/-- The header of a bit count and a table: magic, bitLength, tupleCount, records (R68, R165). -/
def headerBytes (bitlen : Word32) (ct : List CtEntry) : List Byte :=
  Config.magic ++ bytesLE bitlen ++ [BitVec.ofNat 8 ct.length] ++ ct.flatMap recordBytes

/-- The header size of a tuple count (R30, R165, R170). -/
def headerSize (tuples : Nat) : Nat := Config.hdrFix + Config.recSize * tuples

/-- HDR.WR's own rule (R165). -/
def hdrWrBody (r : Regs) : CmdResult :=
  .done { r with hdrsize := BitVec.ofNat 11 (headerSize r.ct.length), phase := .encDone }
    (headerBytes r.bitlen r.ct)

/-- HDR.WR (R165). -/
def execHdrWr (s : State) : Host.Outcome State Fault Refusal :=
  runCommand 0x50 [.packDone] hdrWrBody s

/-- What the byte `b` at offset `p` of the header writes, the magic bytes apart (R169, R170,
R171). -/
def storeHeaderByte (p : Nat) (b : Byte) (r : Regs) : Regs :=
  if p < 3 then r
  else if p ≤ 6 then { r with bitlen := setByte (p - 3) b r.bitlen }
  else if p = 7 then { r with hdrsize := BitVec.ofNat 11 (headerSize b.toNat) }
  else
    let f := (p - 8) % 6
    if f = 0 then { r with hsym := b, hcode := 0 }
    else if f ≤ 4 then { r with hcode := setByte (f - 1) b r.hcode }
    else { r with ct := r.ct ++ [⟨r.hsym, r.hcode, b⟩] }

/-- HPOS advances, and the header is complete when it reaches HDRSIZE, known from offset 7 on
(R167, R172). -/
def advanceHeader (p : Nat) (r : Regs) : Regs :=
  { r with
    hpos := BitVec.ofNat 11 (p + 1)
    phase := if 8 ≤ p + 1 ∧ p + 1 = r.hdrsize.toNat then .unpacking else .hdrParse }

/-- HDR.RD's own rule (R167): each magic byte is checked as it arrives (R168). -/
def hdrRdBody (b : Byte) (r : Regs) : CmdResult :=
  let p := r.hpos.toNat
  if p < 3 ∧ Config.magic[p]? ≠ some b then .raised .formatMagic (BitVec.ofNat 32 p)
  else .done (advanceHeader p (storeHeaderByte p b r)) []

/-- HDR.RD b (R167). -/
def execHdrRd (b : Byte) (s : State) : Host.Outcome State Fault Refusal :=
  runCommand 0x51 [.idle, .hdrParse] (hdrRdBody b) s

end Sys2Proof.Machine
end

