-- ==== Sys2Proof/Machine/Control.lean ====
section
/-!
DEFINITION. The control commands NOP and CLEAR (spec/46_control.md rules R200, R201).
-/

namespace Sys2Proof.Machine

/-- NOP (R200): nothing, in every phase. In ERROR it is dropped, "which for NOP is the same as
executing it". -/
def execNop (s : State) : Host.Outcome State Fault Refusal := .next s

/-- CLEAR (R201), recognised before any other check and legal in every phase (R91, step 1). -/
def execClear (s : State) : Host.Outcome State Fault Refusal := .next (clearRegs s)

end Sys2Proof.Machine
end

