-- ==== Sys2Proof/Machine/Packer.lean ====
section
/-!
DEFINITION. The Bit Packer: PACK and PACK.END (spec/43_bit_packer.md rules R150 to R158).
-/

namespace Sys2Proof.Machine

/-- `Lookup(b)`: the first entry of CT whose symbol is `b` (R154). -/
def lookupSym (ct : List CtEntry) (b : Byte) : Option CtEntry := ct.find? fun e => e.sym == b

/-- PACK's loop (R150): while 8 or more bits are accumulated, emit the 8 oldest and keep the
rest. Answers the bytes emitted and the accumulator and count that are left. Each round removes
8 bits, so the count is fuel enough. -/
def drainBits : Nat → Nat → Nat → List Byte × Nat × Nat
  | fuel + 1, acc, cnt =>
    if 8 ≤ cnt then
      let r := drainBits fuel (acc % 2 ^ (cnt - 8)) (cnt - 8)
      (BitVec.ofNat 8 (acc >>> (cnt - 8)) :: r.1, r.2)
    else ([], acc, cnt)
  | 0, acc, cnt => ([], acc, cnt)

/-- PACK's own rule (R150): NOSYM before CAP_BITLEN (R226). -/
def packBody (b : Byte) (r : Regs) : CmdResult :=
  match lookupSym r.ct b with
  | none => .raised .nosym (zext32 b)
  | some e =>
    if r.bitlen.toNat + e.len.toNat > Config.maxWord then .raised .capBitlen r.bitlen
    else
      let acc := (r.pacc.toNat <<< e.len.toNat) ||| e.code.toNat
      let cnt := r.pcnt.toNat + e.len.toNat
      let d := drainBits cnt acc cnt
      .done
        { r with
          pacc := BitVec.ofNat 7 d.2.1
          pcnt := BitVec.ofNat 3 d.2.2
          bitlen := r.bitlen + BitVec.ofNat 32 e.len.toNat
          phase := .packing } d.1

/-- PACK b (R150). -/
def execPack (b : Byte) (s : State) : Host.Outcome State Fault Refusal :=
  runCommand 0x40 [.tableReady, .packing] (packBody b) s

/-- The last payload byte, if bits are left: they stand at the top, zeros below (R152). -/
def padByte (pacc : BitVec 7) (pcnt : BitVec 3) : List Byte :=
  if 0 < pcnt.toNat then [BitVec.ofNat 8 (pacc.toNat <<< (8 - pcnt.toNat))] else []

/-- PACK.END's own rule (R152). -/
def packEndBody (r : Regs) : CmdResult :=
  .done { r with pacc := 0, pcnt := 0, phase := .packDone } (padByte r.pacc r.pcnt)

/-- PACK.END (R152). -/
def execPackEnd (s : State) : Host.Outcome State Fault Refusal :=
  runCommand 0x41 [.tableReady, .packing] packEndBody s

end Sys2Proof.Machine
end

