-- ==== Sys2Proof/Machine/Unpacker.lean ====
section
/-!
DEFINITION. The Bit Unpacker: UNPACK and EOF (spec/45_bit_unpacker.md rules R185 to R194).
-/

namespace Sys2Proof.Machine

/-- `Match(v, n)`: the first entry of CT, in table order, whose code is `v` and whose length is
`n`, both compared exactly (R187). -/
def matchCode (ct : List CtEntry) (v : Word32) (n : Nat) : Option CtEntry :=
  ct.find? fun e => e.code == v && e.len.toNat == n

/-- `Bit(x)` when the accumulator has room (R186): append the bit, count it, and on a match emit
the symbol and empty the accumulator. -/
def takeBit (x : Bool) (r : Regs) : Regs × List Byte :=
  let acc := (r.uacc <<< 1) ||| (if x then 1 else 0)
  let n := r.ucnt + 1
  let r' := { r with uacc := acc, ucnt := n, ucons := r.ucons + 1 }
  match matchCode r.ct acc n.toNat with
  | some e => ({ r' with uacc := 0, ucnt := 0 }, [e.sym])
  | none => (r', [])

/-- The bits of a payload byte in order (R185): none is taken once UCONS = BITLEN (R188), and a
meaningful bit that finds 32 bits accumulated raises FORMAT_NOCODE (R189). -/
def takeBits : List Bool → Regs → CmdResult
  | [], r => .done r []
  | x :: xs, r =>
    if r.ucons = r.bitlen then .done r []
    else if r.ucnt.toNat = Config.uaccWidth then .raised .formatNocode r.ucons
    else
      let t := takeBit x r
      match takeBits xs t.1 with
      | .done r' out => .done r' (t.2 ++ out)
      | .raised e info => .raised e info
      | .stuck f => .stuck f

/-- UNPACK's own rule (R185): the most significant bit first. -/
def unpackBody (b : Byte) (r : Regs) : CmdResult := takeBits (bitsMsb b) r

/-- UNPACK b (R185). -/
def execUnpack (b : Byte) (s : State) : Host.Outcome State Fault Refusal :=
  runCommand 0x60 [.unpacking] (unpackBody b) s

/-- EOF's own rule (R190). -/
def eofBody (r : Regs) : CmdResult :=
  if r.phase = .idle ∨ r.phase = .hdrParse then .raised .formatTruncHeader (zext32 r.hpos)
  else if r.ucons.toNat < r.bitlen.toNat then .raised .formatTruncPayload r.ucons
  else .done { r with phase := .decDone } []

/-- EOF (R190). -/
def execEof (s : State) : Host.Outcome State Fault Refusal :=
  runCommand 0x61 [.idle, .hdrParse, .unpacking] eofBody s

end Sys2Proof.Machine
end

