-- ==== Sys2Proof/Machine/Dispatch.lean ====
section
/-!
DEFINITION. The dispatch: each command's meaning, one direct call an arm. The order of checks of
spec/30_encoding.md rule R91 is in the meanings (steps 1, 2, 4, 5, 6) and in `issueWord`
(step 3, Machine/Channels.lean).
-/

namespace Sys2Proof.Machine

def exec (i : Instr) (s : State) : Host.Outcome State Fault Refusal :=
  match i with
  | .nop => Sys2Proof.Machine.execNop s
  | .clear => Sys2Proof.Machine.execClear s
  | .count1 b0 => Sys2Proof.Machine.execCount1 b0 s
  | .count2 b0 b1 => Sys2Proof.Machine.execCount2 b0 b1 s
  | .count3 b0 b1 b2 => Sys2Proof.Machine.execCount3 b0 b1 b2 s
  | .count4 b0 b1 b2 b3 => Sys2Proof.Machine.execCount4 b0 b1 b2 b3 s
  | .ftbuild => Sys2Proof.Machine.execFtbuild s
  | .tree => Sys2Proof.Machine.execTree s
  | .codegen => Sys2Proof.Machine.execCodegen s
  | .pack b => Sys2Proof.Machine.execPack b s
  | .packEnd => Sys2Proof.Machine.execPackEnd s
  | .hdrWr => Sys2Proof.Machine.execHdrWr s
  | .hdrRd b => Sys2Proof.Machine.execHdrRd b s
  | .unpack b => Sys2Proof.Machine.execUnpack b s
  | .eof => Sys2Proof.Machine.execEof s

end Sys2Proof.Machine
end

