-- ==== Sys2Proof/Machine/Channels.lean ====
section
/-!
DEFINITION. The channels between the host and the core (spec/20_memory.md rules R60, R70, R73,
R75; spec/70_reset_and_hazards.md rules R240, R242, R248): issuing a command word, taking an
output byte, reading a CSR, reset, and which action of the host happens next.
-/

namespace Sys2Proof.Machine

/-- Treat an issued word in the order of R91: a word that is no command raises ILLEGAL_CMD (step
3, R212) unless the phase is ERROR (step 2); the other steps are in the commands' meanings. -/
def issueWord (w : CmdWord) (s : State) : Host.Outcome State Fault Refusal :=
  match decode w with
  | .ok i => exec i s
  | .error _ =>
    if s.regs.phase = .error then .next s
    else .next (errorEntry s .illegalCmd (zext32 (opOf w)))

/-- A command is still in progress: it has emitted more than the output FIFO holds and waits for
the host to take bytes (R75, R248). The first OUTQ_DEPTH bytes of `outQ` are the FIFO, the rest
wait inside the command (notes/assumptions/4.md). -/
def State.busy (s : State) : Bool := decide (Config.outqDepth < s.outQ.length)

/-- The host takes the byte at the head of the stream (R60 (b), R73); from an empty stream
nothing is transferred. The record is not touched (R67). -/
def takeOutput (s : State) : State :=
  match s.outQ with
  | [] => s
  | b :: bs => { s with outQ := bs, taken := s.taken ++ [b] }

/-- The host reads a CSR (R60 (c), R38). -/
def answerCsr (a : CsrAddr) (s : State) : State :=
  { s with csrData := s.csrData ++ [csrRead s.regs a] }

/-- Reset (R240): the record at its reset values, the output FIFO emptied (R242), a command in
progress lost. What the host has taken and read stays with the host. -/
def resetCore (s : State) : State := { s with regs := Regs.reset, outQ := [] }

/-- An action on the command channel or the CSR channel: it is accepted only when no command is
in progress (R70). -/
def HostAction.needsIdle : HostAction → Bool
  | .command _ => true
  | .readCsr _ => true
  | .takeByte => false
  | .assertReset => false

/-- The first action that does not need an idle core, and the others in their order. -/
def pickFree : List HostAction → Option (HostAction × List HostAction)
  | [] => none
  | a :: as =>
    if a.needsIdle then (pickFree as).map fun p => (p.1, a :: p.2) else some (a, as)

/-- The action that happens next and those left: the host's next one, or, while a command is in
progress, the next one that need not wait for it (R248: "stuck until the host takes a byte or
asserts reset"). -/
def nextAction (s : State) : Option (HostAction × List HostAction) :=
  if s.busy then pickFree s.host
  else
    match s.host with
    | [] => none
    | a :: as => some (a, as)

/-- One action of the host. -/
def perform (a : HostAction) (s : State) : Host.Outcome State Fault Refusal :=
  match a with
  | .command w => issueWord w s
  | .takeByte => .next (takeOutput s)
  | .readCsr a => .next (answerCsr a s)
  | .assertReset => .next (resetCore s)

/-- One step: the host's next action. When there is none "the core simply waits for the next one,
and all state survives indefinitely" (R233). -/
def hostStep (s : State) : Host.Outcome State Fault Refusal :=
  match nextAction s with
  | none => .next s
  | some (a, rest) => perform a { s with host := rest }

/-- The command in progress is let complete: the host takes the bytes that do not fit the FIFO. -/
def completeCommand (s : State) : State :=
  if s.busy then
    let k := s.outQ.length - Config.outqDepth
    { s with outQ := s.outQ.drop k, taken := s.taken ++ s.outQ.take k }
  else s

end Sys2Proof.Machine
end

