-- ==== Sys2Proof/Machine/Step.lean ====
section
/-!
DEFINITION. The step function, and a command word placed as the host's next action.
-/

namespace Sys2Proof.Machine

/-- One step of the machine: one action of the host (spec/20_memory.md rules R60, R70). -/
def step (s : State) : Host.Outcome State Fault Refusal := hostStep s

/-- `s` with the word `w` of a row of `nbits` bits as the host's next command. The core has no
stored program (R36): a command runs when the host issues it, so this stands for the issue
(notes/assumptions/2.md). A command still in progress is let complete first, because the core
accepts no command before that (R70). -/
def State.withFetchWord (s : State) (nbits w : Nat) : State :=
  { completeCommand s with host := .command (tableWord nbits w) :: s.host }

end Sys2Proof.Machine
end

