-- ==== Sys2Proof/Machine/Calls.lean ====
section
/-!
DEFINITION. The pseudo-commands of spec/30_encoding.md rule R90, with which the two calls of
spec/70_reset_and_hazards.md rules R244 and R245 are written, and the run of a command list. DECODE
looks at PHASE on its way, so it is a run (`runDecode`) and no list.
-/

namespace Sys2Proof.Machine

/-- Execute a list of commands one after another (R70), stopping where one stops. -/
def runInstrs : List Instr → State → Host.Outcome State Fault Refusal
  | [], s => .next s
  | i :: is, s =>
    match exec i s with
    | .next t => runInstrs is t
    | .fault f => .fault f
    | .refused r => .refused r

/-- `COUNT b0[,b1[,b2[,b3]]]`: COUNT.n with n the number of operands. COUNT takes one to four. -/
def countOf : List Byte → Option Instr
  | [b0] => some (.count1 b0)
  | [b0, b1] => some (.count2 b0 b1)
  | [b0, b1, b2] => some (.count3 b0 b1 b2)
  | [b0, b1, b2, b3] => some (.count4 b0 b1 b2 b3)
  | _ => none

/-- `COUNTS S`: COUNT.4 for each four symbols, then one COUNT.r for the r that are left. -/
def countsOf : List Byte → List Instr
  | [] => []
  | [a] => [.count1 a]
  | [a, b] => [.count2 a b]
  | [a, b, c] => [.count3 a b c]
  | a :: b :: c :: d :: rest => .count4 a b c d :: countsOf rest

/-- `PACKS S`. -/
def packsOf (S : List Byte) : List Instr := S.map .pack

/-- `HDRS H`. -/
def hdrsOf (H : List Byte) : List Instr := H.map .hdrRd

/-- `UNPACKS P`. -/
def unpacksOf (P : List Byte) : List Instr := P.map .unpack

/-- `ENCODE S`. -/
def encodeCall (S : List Byte) : List Instr :=
  [.clear] ++ countsOf S ++ [.ftbuild, .tree, .codegen] ++ packsOf S ++ [.packEnd, .hdrWr]

/-- The file of an `ENCODE`: the last `hdrsize` bytes emitted, the header, in front of the bytes
emitted before them (R74, R90). -/
def assembleFile (hdrsize : Nat) (emitted : List Byte) : List Byte :=
  emitted.drop (emitted.length - hdrsize) ++ emitted.take (emitted.length - hdrsize)

/-- Give bytes to HDR.RD while PHASE ∈ {IDLE, HDR_PARSE}: the state then and the bytes not given.
R90's `h` is the number given (notes/assumptions/10.md). -/
def feedHeader : List Byte → State → Host.Outcome (State × List Byte) Fault Refusal
  | [], s => .next (s, [])
  | b :: F, s =>
    if s.regs.phase = .idle ∨ s.regs.phase = .hdrParse then
      match exec (.hdrRd b) s with
      | .next t => feedHeader F t
      | .fault f => .fault f
      | .refused r => .refused r
    else .next (s, b :: F)

/-- What `DECODE` issues after the header bytes, PHASE being `p` and `P` the bytes left:
`UNPACKS P` if PHASE = UNPACKING; `EOF`. -/
def decodeTail (p : Phase) (P : List Byte) : List Instr :=
  (if p = .unpacking then unpacksOf P else []) ++ [.eof]

/-- `DECODE F`: CLEAR, the header bytes, and the rest as PHASE then tells. -/
def runDecode (F : List Byte) (s : State) : Host.Outcome State Fault Refusal :=
  match exec .clear s with
  | .next c =>
    match feedHeader F c with
    | .next (t, P) => runInstrs (decodeTail t.regs.phase P) t
    | .fault f => .fault f
    | .refused r => .refused r
  | .fault f => .fault f
  | .refused r => .refused r

end Sys2Proof.Machine
end

