-- ==== Sys2Proof/Safety.lean ====
section
/-!
DEFINITION. The terms the claims use: the legal phases and transitions of spec/30_encoding.md
rules R85 and R92, the errors of spec/60_exceptions.md rule R211, a good state (`GoodState`, with
spec/10_state.md rule R43 in the spec's own terms as `RuleR43`), and the bit-string reading of
codes, payloads and trees that spec/42, 43 and 45 state their properties in.
-/

namespace Sys2Proof.Safety

open Sys2Proof.Machine

/-! ### The phase tables -/

/-- Every value PHASE takes (R21). -/
def allPhases : List Phase :=
  [.idle, .counting, .ftReady, .treeReady, .tableReady, .packing, .packDone, .encDone,
   .hdrParse, .unpacking, .decDone, .error]

/-- R85's column "legal in phases"; "any" is every phase. -/
def legalPhases : Instr → List Phase
  | .nop | .clear => allPhases
  | .count1 .. | .count2 .. | .count3 .. | .count4 .. | .ftbuild => [.idle, .counting]
  | .tree => [.ftReady]
  | .codegen => [.treeReady]
  | .pack _ | .packEnd => [.tableReady, .packing]
  | .hdrWr => [.packDone]
  | .hdrRd _ => [.idle, .hdrParse]
  | .unpack _ => [.unpacking]
  | .eof => [.idle, .hdrParse, .unpacking]

/-- R92's column "to phase": where a command that completes without error in phase `p` leaves
PHASE. -/
def targetPhases (i : Instr) (p : Phase) : List Phase :=
  match i with
  | .nop => [p]
  | .clear => [.idle]
  | .count1 .. | .count2 .. | .count3 .. | .count4 .. => [.counting]
  | .ftbuild => [.ftReady]
  | .tree => [.treeReady]
  | .codegen => [.tableReady]
  | .pack _ => [.packing]
  | .packEnd => [.packDone]
  | .hdrWr => [.encDone]
  | .hdrRd _ => [.hdrParse, .unpacking]
  | .unpack _ => [.unpacking]
  | .eof => [.decDone]

/-- R211's column "raised by": the errors the command `i` can raise once it is decoded. -/
def errorsOf : Instr → List ErrorCode
  | .nop | .clear => []
  | .count1 .. | .count2 .. | .count3 .. | .count4 .. => [.sequence, .capCount]
  | .ftbuild | .tree | .packEnd | .hdrWr => [.sequence]
  | .codegen => [.sequence, .capAlphabet, .capCodelen]
  | .pack _ => [.sequence, .nosym, .capBitlen]
  | .hdrRd _ => [.sequence, .formatMagic]
  | .unpack _ => [.sequence, .formatNocode]
  | .eof => [.sequence, .formatTruncHeader, .formatTruncPayload]

/-- The symbols a COUNT.n carries, lane 0 first (R83); other commands carry none. -/
def countLanes : Instr → List Byte
  | .count1 b0 => [b0]
  | .count2 b0 b1 => [b0, b1]
  | .count3 b0 b1 b2 => [b0, b1, b2]
  | .count4 b0 b1 b2 b3 => [b0, b1, b2, b3]
  | _ => []

/-- The command is a COUNT.n. -/
def isCount (i : Instr) : Bool := !(countLanes i).isEmpty

/-! ### Sums and counts -/

/-- The sum of CNT[s] over all symbols (R24). -/
def sumCnt (cnt : Vector Word32 256) : Nat := (allSymbols.map fun b => (counter cnt b).toNat).sum

/-- The number of symbols that occur (R43). -/
def distinctSyms (cnt : Vector Word32 256) : Nat :=
  (allSymbols.filter fun b => decide (1 ≤ (counter cnt b).toNat)).length

/-- The sum of FT[i].cnt (R43). -/
def sumFt (ft : List FtEntry) : Nat := (ft.map fun e => e.cnt.toNat).sum

/-! ### A good state -/

/-- The record of a fresh call with the status registers of `r` (R21 for IDLE, R44). -/
def fresh (r : Regs) : Regs :=
  { Regs.reset with phase := r.phase, err := r.err, errInfo := r.errInfo, ephase := r.ephase }

/-- The error registers (R22): at zero unless PHASE = ERROR, and in ERROR an error recorded with
the phase it was raised in, which is never ERROR (R231). -/
def GoodErrors (r : Regs) : Prop :=
  (r.phase ≠ .error → r.err = .noError ∧ r.errInfo = 0 ∧ r.ephase = .idle) ∧
  (r.phase = .error → r.err ≠ .noError ∧ r.ephase ≠ .error)

/-- The compression record up to the Code Table: what the stages have built from the counters,
the registers `rest` of the packer and the container being given apart. -/
def GoodTable (r : Regs) : Prop :=
  r.total.toNat = sumCnt r.cnt ∧ r.ft = buildFt r.cnt ∧
  (r.node, r.root) = buildTree r.ft ∧
  r.ft.length ≤ Config.maxTuples ∧ codeTable r.ft.length r.node r.root = .ok r.ct

/-- What the record holds in each stage of a call (R21, R24 to R34): the elements the stage's
path has written have the values the rules build, every other element is fresh. -/
def GoodStage (r : Regs) : Phase → Prop
  | .idle => r = fresh r
  | .counting =>
    r = { fresh r with cnt := r.cnt, total := r.total } ∧ r.total.toNat = sumCnt r.cnt
  | .ftReady =>
    r = { fresh r with cnt := r.cnt, total := r.total, ft := r.ft } ∧
    r.total.toNat = sumCnt r.cnt ∧ r.ft = buildFt r.cnt
  | .treeReady =>
    r = { fresh r with cnt := r.cnt, total := r.total, ft := r.ft, node := r.node, root := r.root } ∧
    r.total.toNat = sumCnt r.cnt ∧ r.ft = buildFt r.cnt ∧ (r.node, r.root) = buildTree r.ft
  | .tableReady =>
    r = { fresh r with
          cnt := r.cnt, total := r.total, ft := r.ft, node := r.node, root := r.root, ct := r.ct } ∧
    GoodTable r
  | .packing =>
    r = { fresh r with
          cnt := r.cnt, total := r.total, ft := r.ft, node := r.node, root := r.root, ct := r.ct,
          bitlen := r.bitlen, pacc := r.pacc, pcnt := r.pcnt, outcnt := r.outcnt } ∧
    GoodTable r ∧
    r.pcnt.toNat = r.bitlen.toNat % 8 ∧ r.pacc.toNat < 2 ^ r.pcnt.toNat ∧
    r.outcnt.toNat = r.bitlen.toNat / 8
  | .packDone =>
    r = { fresh r with
          cnt := r.cnt, total := r.total, ft := r.ft, node := r.node, root := r.root, ct := r.ct,
          bitlen := r.bitlen, outcnt := r.outcnt } ∧
    GoodTable r ∧ r.outcnt.toNat = (r.bitlen.toNat + 7) / 8
  | .encDone =>
    r = { fresh r with
          cnt := r.cnt, total := r.total, ft := r.ft, node := r.node, root := r.root, ct := r.ct,
          bitlen := r.bitlen, outcnt := r.outcnt, hdrsize := r.hdrsize } ∧
    GoodTable r ∧ r.hdrsize.toNat = 8 + 6 * r.ct.length ∧
    r.outcnt.toNat = (r.bitlen.toNat + 7) / 8 + r.hdrsize.toNat
  | .hdrParse =>
    r = { fresh r with
          bitlen := r.bitlen, hdrsize := r.hdrsize, ct := r.ct,
          hpos := r.hpos, hsym := r.hsym, hcode := r.hcode } ∧
    1 ≤ r.hpos.toNat ∧
    (r.hpos.toNat < 8 → r.hdrsize = 0) ∧
    (8 ≤ r.hpos.toNat →
      r.hpos.toNat < r.hdrsize.toNat ∧ ∃ k : Nat, k ≤ 255 ∧ r.hdrsize.toNat = 8 + 6 * k) ∧
    r.ct.length = (r.hpos.toNat - 8) / 6
  | .unpacking =>
    r = { fresh r with
          bitlen := r.bitlen, hdrsize := r.hdrsize, ct := r.ct,
          hpos := r.hpos, hsym := r.hsym, hcode := r.hcode,
          uacc := r.uacc, ucnt := r.ucnt, ucons := r.ucons, outcnt := r.outcnt } ∧
    r.ct.length ≤ Config.maxTuples ∧ r.hpos = r.hdrsize ∧ r.hdrsize.toNat = 8 + 6 * r.ct.length ∧
    r.ucons.toNat ≤ r.bitlen.toNat ∧ r.ucnt.toNat ≤ 32 ∧ r.uacc.toNat < 2 ^ r.ucnt.toNat ∧
    r.outcnt.toNat ≤ r.ucons.toNat
  | .decDone =>
    r = { fresh r with
          bitlen := r.bitlen, hdrsize := r.hdrsize, ct := r.ct,
          hpos := r.hpos, hsym := r.hsym, hcode := r.hcode,
          uacc := r.uacc, ucnt := r.ucnt, ucons := r.ucons, outcnt := r.outcnt } ∧
    r.ct.length ≤ Config.maxTuples ∧ r.hpos = r.hdrsize ∧ r.hdrsize.toNat = 8 + 6 * r.ct.length ∧
    r.ucons = r.bitlen ∧ r.ucnt.toNat ≤ 32 ∧ r.uacc.toNat < 2 ^ r.ucnt.toNat ∧
    r.outcnt.toNat ≤ r.ucons.toNat
  | .error => False

/-- A good state: the error registers and the record of its stage are as the rules leave them.
It holds at reset and every step keeps it, so it holds of every state a run reaches. -/
def GoodState (s : State) : Prop := GoodErrors s.regs ∧ GoodStage s.regs s.regs.stage

/-- R43, its nine invariants in the spec's own terms and order, over the phase the record is
frozen in when PHASE = ERROR. -/
structure RuleR43 (r : Regs) : Prop where
  totals : r.total.toNat = sumCnt r.cnt
  frequencyTable :
    r.stage ∈ [.ftReady, .treeReady, .tableReady, .packing, .packDone, .encDone] →
    r.ftn.toNat = distinctSyms r.cnt ∧ sumFt r.ft = r.total.toNat ∧
    r.ft.Pairwise fun a b =>
      b.cnt.toNat < a.cnt.toNat ∨ (a.cnt = b.cnt ∧ a.sym.toNat < b.sym.toNat)
  tree :
    r.stage ∈ [.treeReady, .tableReady, .packing, .packDone, .encDone] →
    (r.ftn.toNat = 0 → r.nn.toNat = 0) ∧
    (1 ≤ r.ftn.toNat → r.nn.toNat = 2 * r.ftn.toNat - 1 ∧
      ∃ n : Node, r.node[r.root.toNat]? = some n ∧ n.freq = r.total)
  table :
    r.stage ∈ [.tableReady, .packing, .packDone, .encDone] →
    r.ctn.toNat = r.ftn.toNat ∧ r.ftn.toNat ≤ 255
  packing :
    r.stage ∈ [.tableReady, .packing] →
    r.pcnt.toNat = r.bitlen.toNat % 8 ∧ r.pacc.toNat < 2 ^ r.pcnt.toNat ∧
    r.outcnt.toNat = r.bitlen.toNat / 8
  packDone : r.stage ∈ [.packDone, .encDone] → r.pcnt = 0 ∧ r.pacc = 0
  header :
    r.stage = .hdrParse →
    1 ≤ r.hpos.toNat ∧ (r.hpos.toNat < r.hdrsize.toNat ∨ r.hpos.toNat < 8) ∧
    r.ctn.toNat = (r.hpos.toNat - 8) / 6
  unpacking :
    r.stage ∈ [.unpacking, .decDone] →
    r.hpos = r.hdrsize ∧ r.hdrsize.toNat = 8 + 6 * r.ctn.toNat ∧
    r.ucons.toNat ≤ r.bitlen.toNat ∧ r.ucnt.toNat ≤ 32 ∧ r.uacc.toNat < 2 ^ r.ucnt.toNat
  errors : r.phase ≠ .error → r.err = .noError ∧ r.errInfo = 0 ∧ r.ephase = .idle

/-! ### Bit strings -/

/-- The number a bit string writes, most significant bit first. -/
def bitsValue (bits : List Bool) : Nat := bits.foldl (fun v x => 2 * v + x.toNat) 0

/-- The `n` low bits of a number, most significant first. -/
def lowBits (n v : Nat) : List Bool := (List.range n).map fun k => v.testBit (n - 1 - k)

/-- A code as the bit string it stands for: its `len` bits, most significant first (R63, R156). -/
def codeBits (e : CtEntry) : List Bool := lowBits e.len.toNat e.code.toNat

/-- Bit number `t` of a bit string is bit 7 - (t mod 8) of byte t div 8; the last byte is filled
with zeros (R63, R156). -/
def bytesOfBits (bits : List Bool) : List Byte :=
  (List.range ((bits.length + 7) / 8)).map fun q =>
    BitVec.ofNat 8 (bitsValue ((List.range 8).map fun k => bits.getD (8 * q + k) false))

/-- The bits of a sequence of payload bytes in order (R63). -/
def bitsOfBytes (bytes : List Byte) : List Bool := bytes.flatMap fun b => lowBits 8 b.toNat

/-- The bits packed for a symbol sequence, or none if a symbol has no entry (R156). -/
def payloadBits (ct : List CtEntry) (S : List Byte) : Option (List Bool) :=
  match S with
  | [] => some []
  | b :: S =>
    match lookupSym ct b, payloadBits ct S with
    | some e, some rest => some (codeBits e ++ rest)
    | _, _ => none

/-- The decoder read on bit strings (R186, R187, R189): `pending` are the bits since the last
match. It answers the bits left pending and the symbols recovered, or the number of bits it had
consumed when a bit found 32 bits pending. -/
def readBits (ct : List CtEntry) : List Bool → List Bool → Except Nat (List Bool × List Byte)
  | pending, [] => .ok (pending, [])
  | pending, x :: xs =>
    if pending.length = 32 then .error 0
    else
      let seen := pending ++ [x]
      match ct.find? fun e => e.code.toNat == bitsValue seen && e.len.toNat == seen.length with
      | some e =>
        match readBits ct [] xs with
        | .ok (p, out) => .ok (p, e.sym :: out)
        | .error n => .error (n + 1)
      | none =>
        match readBits ct seen xs with
        | .ok (p, out) => .ok (p, out)
        | .error n => .error (n + 1)

/-- `w` leads from node `j` to a leaf with symbol `b`: 0 for left, 1 for right (R136). -/
inductive Leads (nodes : List Node) : Nat → List Bool → Byte → Prop where
  | leaf {j : Nat} {sym : Byte} {f : Word32} :
      nodes[j]? = some (.leaf sym f) → Leads nodes j [] sym
  | left {j : Nat} {l r : NodeIx} {f : Word32} {w : List Bool} {sym : Byte} :
      nodes[j]? = some (.internal l r f) → Leads nodes l.toNat w sym → Leads nodes j (false :: w) sym
  | right {j : Nat} {l r : NodeIx} {f : Word32} {w : List Bool} {sym : Byte} :
      nodes[j]? = some (.internal l r f) → Leads nodes r.toNat w sym → Leads nodes j (true :: w) sym

/-- No code of the table is a prefix of another (R141 (c)): there are no two different entries of
which the shorter or equal one's code is the top bits of the other's. -/
def PrefixFree (ct : List CtEntry) : Prop :=
  ∀ j k : Nat, ∀ a b : CtEntry, j ≠ k → ct[j]? = some a → ct[k]? = some b →
    a.len.toNat ≤ b.len.toNat → b.code.toNat >>> (b.len.toNat - a.len.toNat) ≠ a.code.toNat

/-! ### What a command leaves -/

/-- `s` with the record `r` but for OUTCNT, and the bytes `out` emitted and counted in OUTCNT
(R73): everything a command that completes can change. -/
def completed (s : State) (r : Regs) (out : List Byte) : State :=
  { s with
    regs := { r with outcnt := s.regs.outcnt + BitVec.ofNat 32 out.length }
    outQ := s.outQ ++ out }

/-- The two errors every command but NOP and CLEAR shares, at the place R91 gives them: a word of
the command's opcode with a reserved bit set raises ILLEGAL_CMD (R212), a phase that is not
listed raises SEQUENCE (R213), each with the opcode as information. -/
def ProtocolErrors (i : Instr) : Prop :=
  ∀ s : State, s.regs.phase ≠ .error →
    (∀ arg : Word32, wordLegal (wordOf arg i.opcode) = false →
      issueWord (wordOf arg i.opcode) s = .next (errorEntry s .illegalCmd (zext32 i.opcode))) ∧
    (s.regs.phase ∉ legalPhases i →
      exec i s = .next (errorEntry s .sequence (zext32 i.opcode)))

/-- The age of a node in the merge order of a table with `k` entries (R130): leaves in working
sequence order, index k-1 first and index 0 last, then the internal nodes as created. -/
def nodeAge (k j : Nat) : Nat := if j < k then k - 1 - j else j

/-- Node `x` is taken before node `y`: lower frequency, among equal frequencies the one inserted
earlier (R123, R124, R130). -/
def TakenBefore (k : Nat) (nodes : List Node) (x y : Nat) : Prop :=
  nodeFreq nodes x < nodeFreq nodes y ∨
  (nodeFreq nodes x = nodeFreq nodes y ∧ nodeAge k x < nodeAge k y)

/-- Node `c` is a child of node `j`. -/
def ChildOf (nodes : List Node) (c j : Nat) : Prop :=
  ∃ (l r : NodeIx) (f : Word32), nodes[j]? = some (.internal l r f) ∧ (l.toNat = c ∨ r.toNat = c)

end Sys2Proof.Safety
end

