-- ==== Sys2Proof/Certificates/Slice0/Obligations.lean ====
section
/-!
DEFINITION. The statements for the provers, in the order of OBLIGATIONS.json. Each docstring names
the rules of spec/ it formalises. Nothing is proved here.
-/

open Sys2Proof Sys2Proof.Machine Sys2Proof.Safety

/-! ### Encoding and decoding -/

/-- R81 to R85, R89: a few command words written out from the spec's encoding decode to the
commands they stand for (the words of R80, R101 to R104 and of 95_test_vectors.md). -/
def Obligations.SampleWordsDecode : Prop :=
  decode 0x0000004140#40 = .ok (.pack 0x41) ∧
  decode 0x0000005110#40 = .ok (.count1 0x51) ∧
  decode 0x0000434211#40 = .ok (.count2 0x42 0x43) ∧
  decode 0x0061726212#40 = .ok (.count3 0x62 0x72 0x61) ∧
  decode 0x4241414113#40 = .ok (.count4 0x41 0x41 0x41 0x42) ∧
  decode 0x0000000001#40 = .ok .clear ∧
  decode 0x0000000020#40 = .ok .tree ∧
  decode 0x0000001F60#40 = .ok (.unpack 0x1F) ∧
  decode 0x0041414111#40 = .error (.reservedBits 0x11) ∧
  decode 0x000000007F#40 = .error (.undefinedOpcode 0x7F)

/-- R80 to R84: decoding the encoding of any command, at every value of every operand, gives that
command back. -/
def Obligations.DecodeOfEncodeIsTheCommand : Prop :=
  ∀ i : Instr, decode (encode i) = .ok i

/-- R84, R86, R87: every word that decodes to a command is that command's own encoding, so no bit
of an accepted word is ignored and no command has two words. -/
def Obligations.AcceptedWordIsTheEncodingOfItsCommand : Prop :=
  ∀ (w : CmdWord) (i : Instr), decode w = .ok i → encode i = w

/-- R86: a word is a command exactly when its opcode is in the map and its format's reserved bits
are zero; and that is exactly when some row of spec/opcode_table.json matches it. No word is matched
by two rows, and the row that matches a command's word is the one of the command's mnemonic. -/
def Obligations.LegalWordsAreTheOpcodeTables : Prop :=
  ∀ w : CmdWord,
    (wordLegal w = true ↔ ∃ i, decode w = .ok i) ∧
    (wordLegal w = true ↔ ∃ row ∈ opcodeTable, row.matchesWord w = true) ∧
    (∀ row ∈ opcodeTable, ∀ row' ∈ opcodeTable,
      row.matchesWord w = true → row'.matchesWord w = true → row = row') ∧
    ∀ i, decode w = .ok i →
      ∀ row ∈ opcodeTable, row.matchesWord w = true ↔ row.mnemonic = i.mnemonic

/-- R89: the assembler accepts a line exactly when it has its mnemonic's operands, each 0 to 255,
and the line of a command's mnemonic and operands assembles to that command. -/
def Obligations.AssemblerInvertsTheSourceLine : Prop :=
  (∀ l : SourceLine, l.assemble.isSome = true ↔
    l.operands.length = l.mnemonic.arity ∧ ∀ n ∈ l.operands, n ≤ 255) ∧
  ∀ i : Instr, SourceLine.assemble ⟨i.mnemonic, i.operands⟩ = some i

/-! ### Issue, the order of checks, and the step -/

/-- R91, steps 1 to 6 in their order, for every word in every state. -/
def Obligations.IssuedWordIsTreatedInTheOrderOfChecks : Prop :=
  ∀ (w : CmdWord) (s : State),
    (opOf w = 0x01 ∧ argOf w = 0 → issueWord w s = .next (clearRegs s)) ∧
    (¬(opOf w = 0x01 ∧ argOf w = 0) →
      (s.regs.phase = .error → issueWord w s = .next s) ∧
      (s.regs.phase ≠ .error →
        (wordLegal w = false →
          issueWord w s = .next (errorEntry s .illegalCmd (zext32 (opOf w)))) ∧
        (wordLegal w = true →
          (opOf w = 0x00 → issueWord w s = .next s) ∧
          (opOf w ≠ 0x00 → ∃ i, decode w = .ok i ∧ encode i = w ∧
            (s.regs.phase ∉ legalPhases i →
              issueWord w s = .next (errorEntry s .sequence (zext32 (opOf w)))) ∧
            (s.regs.phase ∈ legalPhases i → issueWord w s = exec i s)))))

/-- R60, R70: when no command is in progress and the host's next action is a command word, legal or
not, the step issues that word, the action being used up: a word that decodes to `i` runs `exec i`,
and one that decodes to none raises ILLEGAL_CMD, but is dropped in ERROR (R86, R91). -/
def Obligations.StepRunsTheDecodedCommand : Prop :=
  ∀ (s : State) (w : CmdWord) (rest : List HostAction),
    s.busy = false → s.host = .command w :: rest →
    step s = issueWord w { s with host := rest } ∧
    (∀ i, decode w = .ok i → step s = exec i { s with host := rest }) ∧
    (∀ e, decode w = .error e →
      (s.regs.phase = .error → step s = .next { s with host := rest }) ∧
      (s.regs.phase ≠ .error → step s =
        .next (errorEntry { s with host := rest } .illegalCmd (zext32 (opOf w)))))

/-- R70, R75, R248: while a command is in progress, a step accepts no command and answers no CSR
read; only taking a byte or reset moves the machine, and without either it waits with its state
unchanged. The model's DESIGN CHOICE, log entry 4 (notes/assumptions/4.md), and no rule's words, are
two things here: that a command is in progress when `outQ` is longer than the FIFO, its effect and
bytes being staged there at once, and that the first take or reset of the host's list is performed
ahead of the commands and CSR reads that wait before it. -/
def Obligations.BusyCoreWaitsForTheHostToTakeBytes : Prop :=
  ∀ s : State, s.busy = true →
    ((∀ a ∈ s.host, a.needsIdle = true) → step s = .next s) ∧
    (∀ before rest, (∀ a ∈ before, a.needsIdle = true) →
      (s.host = before ++ .takeByte :: rest →
        ∃ b q, s.outQ = b :: q ∧
          step s = .next { s with outQ := q, taken := s.taken ++ [b], host := before ++ rest }) ∧
      (s.host = before ++ .assertReset :: rest →
        step s = .next { s with regs := Regs.reset, outQ := [], host := before ++ rest }))

/-- R60, R67, R73, R233: when no command is in progress, taking a byte removes the oldest byte of
the stream and touches no register, a CSR read answers the map's value and changes nothing else,
reset gives the reset record and an empty stream, and with no action of the host the state stays. -/
def Obligations.HostActionsOnAnIdleCore : Prop :=
  ∀ (s : State) (rest : List HostAction), s.busy = false →
    (∀ b q, s.outQ = b :: q → s.host = .takeByte :: rest →
      step s = .next { s with outQ := q, taken := s.taken ++ [b], host := rest }) ∧
    (∀ a, s.host = .readCsr a :: rest →
      step s = .next { s with csrData := s.csrData ++ [csrRead s.regs a], host := rest }) ∧
    (s.host = .assertReset :: rest →
      step s = .next { s with regs := Regs.reset, outQ := [], host := rest }) ∧
    (s.host = [] → step s = .next s)

/-- R73, R70: in every step but a reset the bytes the host has taken followed by the bytes not yet
taken only grow, at the tail: the stream is first in first out and nothing is lost or reordered. -/
def Obligations.OutputStreamIsFirstInFirstOut : Prop :=
  ∀ s t : State, step s = .next t →
    (∃ out, t.taken ++ t.outQ = (s.taken ++ s.outQ) ++ out) ∨
    (∃ rest, nextAction s = some (.assertReset, rest))

/-! ### Reset, CLEAR, NOP -/

/-- R44: every element of the record after reset, after the host asserts reset, and after CLEAR; and
reset differs from CLEAR in the stream alone, which it empties. -/
def Obligations.ResetAndClearGiveTheResetValues : Prop :=
  (∀ s : State, ∃ t, exec .clear s = .next t ∧ resetCore s = { t with outQ := [] }) ∧
  ∀ (s t : State) (r : Regs),
    (r = State.reset.regs ∨ r = (resetCore s).regs ∨ (exec .clear s = .next t ∧ r = t.regs)) →
    r.phase = .idle ∧ r.err.code = 0 ∧ r.errInfo = 0 ∧ r.ephase.code = 0 ∧
    (∀ b, counter r.cnt b = 0) ∧ r.total = 0 ∧ r.ftn = 0 ∧ r.nn = 0 ∧ r.root = 0x1FF ∧
    r.ctn = 0 ∧ r.bitlen = 0 ∧ r.hdrsize = 0 ∧ r.pacc = 0 ∧ r.pcnt = 0 ∧
    r.uacc = 0 ∧ r.ucnt = 0 ∧ r.ucons = 0 ∧ r.hpos = 0 ∧ r.hsym = 0 ∧ r.hcode = 0 ∧ r.outcnt = 0

/-- R201, R242: CLEAR, as a command and as an issued word, completes in every phase, gives the record
of R44 and leaves the output stream and the host's side alone; reset differs only in emptying the
stream; no other command leaves ENC_DONE, DEC_DONE or ERROR but into ERROR; a word with op 0x01 and
a non-zero argument is not CLEAR but illegal, and is dropped in ERROR. -/
def Obligations.ClearRestartsTheCallAndKeepsTheStream : Prop :=
  (∀ s : State, exec .clear s = .next { s with regs := Regs.reset } ∧
    issueWord 0x0000000001#40 s = .next { s with regs := Regs.reset }) ∧
  (∀ s : State, resetCore s = { s with regs := Regs.reset, outQ := [] }) ∧
  (∀ (i : Instr) (s t : State), s.regs.phase ∈ [.encDone, .decDone, .error] → i ≠ .clear →
    exec i s = .next t → t.regs.phase = s.regs.phase ∨ t.regs.phase = .error) ∧
  ∀ (s : State) (arg : Word32), arg ≠ 0 →
    issueWord (wordOf arg 0x01) s =
      .next (if s.regs.phase = .error then s else errorEntry s .illegalCmd 0x01)

/-- R200: NOP, as a command and as an issued word, completes in every phase and changes nothing; with
a non-zero argument it is no NOP but illegal, and is dropped in ERROR. -/
def Obligations.NopChangesNothing : Prop :=
  (∀ s : State, exec .nop s = .next s ∧ issueWord 0x0000000000#40 s = .next s) ∧
  ∀ (s : State) (arg : Word32), arg ≠ 0 →
    issueWord (wordOf arg 0x00) s =
      .next (if s.regs.phase = .error then s else errorEntry s .illegalCmd 0x00)

/-! ### Errors -/

/-- R227, R228: a word that raises an error writes ERR, ERRINFO, EPHASE (the phase it was issued
in) and PHASE and has no other effect: no data register, no byte of the stream, not OUTCNT. -/
def Obligations.ErrorsArePrecise : Prop :=
  ∀ (w : CmdWord) (s t : State), issueWord w s = .next t →
    s.regs.phase ≠ .error → t.regs.phase = .error →
    ∃ (e : ErrorCode) (info : Word32), e ≠ .noError ∧
      t = { s with
            regs := { s.regs with err := e, errInfo := info, ephase := s.regs.phase, phase := .error } }

/-- R229, R230, R231: from ERROR a step leaves the whole record as it is, unless it performs a
well-formed CLEAR or a reset, and then the record is the reset record; every word but a well-formed
CLEAR is dropped, with no state change and no output. -/
def Obligations.OnlyClearOrResetLeavesError : Prop :=
  (∀ (s : State) (w : CmdWord), s.regs.phase = .error → w ≠ 0x0000000001#40 →
    issueWord w s = .next s) ∧
  ∀ s t : State, s.regs.phase = .error → step s = .next t →
    ((∃ rest, nextAction s = some (.command 0x0000000001#40, rest) ∨
              nextAction s = some (.assertReset, rest)) ∧ t.regs = Regs.reset) ∨
    t.regs = s.regs

/-- R211: an error a decoded command raises is one its row of the table allows, its cause held, and
ERRINFO is the cause's information word. (For FORMAT_NOCODE and CAP_CODELEN the exact information
is in `UnpackReadsTheBitString` and `CodegenRejectsTooDeepLeaves`.) -/
def Obligations.ErrorCausesAndInformation : Prop :=
  ∀ (i : Instr) (s t : State), s.regs.ft.length ≤ 256 → exec i s = .next t →
    s.regs.phase ≠ .error → t.regs.phase = .error →
    t.regs.err ∈ errorsOf i ∧
    match t.regs.err with
    | .noError | .illegalCmd => False
    | .sequence => s.regs.phase ∉ legalPhases i ∧ t.regs.errInfo = zext32 i.opcode
    | .formatMagic =>
      ∃ b, i = .hdrRd b ∧ s.regs.hpos.toNat < 3 ∧ Config.magic[s.regs.hpos.toNat]? ≠ some b ∧
        t.regs.errInfo = zext32 s.regs.hpos
    | .formatTruncHeader =>
      i = .eof ∧ (s.regs.phase = .idle ∨ s.regs.phase = .hdrParse) ∧
        t.regs.errInfo = zext32 s.regs.hpos
    | .formatTruncPayload =>
      i = .eof ∧ s.regs.ucons.toNat < s.regs.bitlen.toNat ∧ t.regs.errInfo = s.regs.ucons
    | .formatNocode => ∃ b, i = .unpack b ∧ s.regs.phase = .unpacking
    | .capAlphabet => i = .codegen ∧ s.regs.ft.length = 256 ∧ t.regs.errInfo = 256
    | .capCount =>
      isCount i = true ∧ s.regs.total.toNat + (countLanes i).length > 4294967295 ∧
        t.regs.errInfo = s.regs.total
    | .capCodelen =>
      i = .codegen ∧ ∃ w sym, Leads s.regs.node s.regs.root.toNat w sym ∧ 31 < w.length ∧
        t.regs.errInfo = zext32 sym
    | .capBitlen =>
      ∃ b e, i = .pack b ∧ lookupSym s.regs.ct b = some e ∧
        s.regs.bitlen.toNat + e.len.toNat > 4294967295 ∧ t.regs.errInfo = s.regs.bitlen
    | .nosym => ∃ b, i = .pack b ∧ (∀ e ∈ s.regs.ct, e.sym ≠ b) ∧ t.regs.errInfo = zext32 b

/-! ### Phases and writers -/

/-- R92: a command that completes without error was legal in its phase and leaves PHASE where the
table says; HDR.RD leaves UNPACKING exactly when the header is complete; EOF completes only from
UNPACKING with UCONS = BITLEN; a command in a phase not listed for it raises SEQUENCE; and in ERROR
every command but CLEAR is dropped. -/
def Obligations.PhasesFollowTheTransitionTable : Prop :=
  (∀ (i : Instr) (s : State), s.regs.phase = .error → i ≠ .clear → exec i s = .next s) ∧
  (∀ (i : Instr) (s : State), s.regs.phase ≠ .error → s.regs.phase ∉ legalPhases i →
    exec i s = .next (errorEntry s .sequence (zext32 i.opcode))) ∧
  ∀ (i : Instr) (s t : State), GoodState s → exec i s = .next t → s.regs.phase ≠ .error →
    t.regs.phase ≠ .error →
    s.regs.phase ∈ legalPhases i ∧ t.regs.phase ∈ targetPhases i s.regs.phase ∧
    (∀ b, i = .hdrRd b →
      (t.regs.phase = .unpacking ↔ 8 ≤ t.regs.hpos.toNat ∧ t.regs.hpos = t.regs.hdrsize)) ∧
    (i = .eof → s.regs.phase = .unpacking ∧ s.regs.ucons = s.regs.bitlen)

/-- R20's column "unit that writes it", R109: each element of the record changes only by the
commands of the unit that writes it (CLEAR apart). -/
def Obligations.EachElementHasItsWriter : Prop :=
  ∀ (i : Instr) (s t : State), exec i s = .next t → i ≠ .clear →
    (isCount i = false → t.regs.cnt = s.regs.cnt ∧ t.regs.total = s.regs.total) ∧
    (i ≠ .ftbuild → t.regs.ft = s.regs.ft) ∧
    (i ≠ .tree → t.regs.node = s.regs.node ∧ t.regs.root = s.regs.root) ∧
    (i ≠ .codegen → (∀ b, i ≠ .hdrRd b) → t.regs.ct = s.regs.ct) ∧
    ((∀ b, i ≠ .pack b) → (∀ b, i ≠ .hdrRd b) → t.regs.bitlen = s.regs.bitlen) ∧
    (i ≠ .hdrWr → (∀ b, i ≠ .hdrRd b) → t.regs.hdrsize = s.regs.hdrsize) ∧
    ((∀ b, i ≠ .pack b) → i ≠ .packEnd →
      t.regs.pacc = s.regs.pacc ∧ t.regs.pcnt = s.regs.pcnt) ∧
    ((∀ b, i ≠ .unpack b) →
      t.regs.uacc = s.regs.uacc ∧ t.regs.ucnt = s.regs.ucnt ∧ t.regs.ucons = s.regs.ucons) ∧
    ((∀ b, i ≠ .hdrRd b) →
      t.regs.hpos = s.regs.hpos ∧ t.regs.hsym = s.regs.hsym ∧ t.regs.hcode = s.regs.hcode) ∧
    (t.regs.phase ≠ .error →
      t.regs.err = s.regs.err ∧ t.regs.errInfo = s.regs.errInfo ∧ t.regs.ephase = s.regs.ephase) ∧
    t.host = s.host ∧ t.taken = s.taken ∧ t.csrData = s.csrData

/-- R109: once the Frequency Table is built (any phase after COUNTING) no command but CLEAR changes
FT, and COUNT.n and FTBUILD raise SEQUENCE (in ERROR they are dropped). -/
def Obligations.FrequencyTableIsImmutableOnceBuilt : Prop :=
  ∀ (i : Instr) (s t : State), s.regs.phase ∉ [.idle, .counting] → i ≠ .clear →
    exec i s = .next t →
    t.regs.ft = s.regs.ft ∧
    (isCount i = true ∨ i = .ftbuild →
      t = if s.regs.phase = .error then s else errorEntry s .sequence (zext32 i.opcode))

/-- R34, R73: a command other than CLEAR appends the bytes it emits to the tail of the stream and
adds their number to OUTCNT, and nothing else writes OUTCNT. -/
def Obligations.OutcntCountsTheBytesEmitted : Prop :=
  ∀ (i : Instr) (s t : State), i ≠ .clear → exec i s = .next t →
    ∃ out, t.outQ = s.outQ ++ out ∧
      t.regs.outcnt = s.regs.outcnt + BitVec.ofNat 32 out.length

/-- R45: the record at the end of a call, and the bytes it emitted, are a function of the commands
issued since CLEAR and of nothing else. -/
def Obligations.CallDependsOnItsCommandsAlone : Prop :=
  ∀ (cs : List Instr) (s s' t : State), runInstrs (.clear :: cs) s = .next t →
    ∃ (out : List Byte) (t' : State), runInstrs (.clear :: cs) s' = .next t' ∧
      t'.regs = t.regs ∧ t.outQ = s.outQ ++ out ∧ t'.outQ = s'.outQ ++ out

/-! ### Frequency Analyzer -/

/-- R100 to R104: COUNT.1, COUNT.2, COUNT.3 and COUNT.4 in IDLE or COUNTING, while TOTAL has room,
complete: CNT[b] grows by the number of lanes that carry b, TOTAL by n, PHASE is COUNTING, and
nothing else changes; without room CAP_COUNT with TOTAL and no counter changed; and their protocol
errors. -/
def Obligations.CountAddsEachLane : Prop :=
  ∀ i : Instr, isCount i = true → ProtocolErrors i ∧ ∀ s : State,
    s.regs.phase = .idle ∨ s.regs.phase = .counting →
    (s.regs.total.toNat + (countLanes i).length ≤ 4294967295 →
      ∃ cnt, exec i s = .next
          { s with regs := { s.regs with
              cnt := cnt
              total := s.regs.total + BitVec.ofNat 32 (countLanes i).length
              phase := .counting } } ∧
        ∀ b, counter cnt b = counter s.regs.cnt b + BitVec.ofNat 32 ((countLanes i).count b)) ∧
    (s.regs.total.toNat + (countLanes i).length > 4294967295 →
      exec i s = .next (errorEntry s .capCount s.regs.total))

/-- R105, the lane law: two sequences of COUNT.n commands that carry the same symbols, in any split
and any order, lead from one state to the same state, when TOTAL has room for them. -/
def Obligations.LaneLaw : Prop :=
  ∀ (cs ds : List Instr) (s : State),
    (∀ i ∈ cs, isCount i = true) → (∀ i ∈ ds, isCount i = true) →
    (cs.flatMap countLanes).Perm (ds.flatMap countLanes) →
    s.regs.phase = .idle ∨ s.regs.phase = .counting →
    s.regs.total.toNat + (cs.flatMap countLanes).length ≤ 4294967295 →
    ∃ t, runInstrs cs s = .next t ∧ runInstrs ds s = .next t

/-- R90, R105: `COUNTS S` from a fresh call leaves CNT[b] = the number of times b occurs in S and
TOTAL = |S|. -/
def Obligations.CountsLeavesTheOccurrences : Prop :=
  ∀ (S : List Byte) (s : State), s.regs = Regs.reset → S.length ≤ 4294967295 →
    ∃ t, runInstrs (countsOf S) s = .next t ∧ t.regs.total.toNat = S.length ∧
      (∀ b, (counter t.regs.cnt b).toNat = S.count b) ∧
      t.regs.phase = (if S = [] then .idle else .counting)

/-- R106, R107, R108: FTBUILD in IDLE or COUNTING completes: FT holds exactly the symbols that
occur, each once with its count, by descending count and among equal counts by ascending symbol;
PHASE is FT_READY; nothing else changes; and its protocol errors. -/
def Obligations.FtbuildSortsTheOccurringSymbols : Prop :=
  ProtocolErrors .ftbuild ∧ ∀ s : State, s.regs.phase = .idle ∨ s.regs.phase = .counting →
    ∃ ft, exec .ftbuild s = .next { s with regs := { s.regs with ft := ft, phase := .ftReady } } ∧
      (∀ b c, (⟨b, c⟩ : FtEntry) ∈ ft ↔ c = counter s.regs.cnt b ∧ 1 ≤ c.toNat) ∧
      ft.Pairwise (fun a b =>
        b.cnt.toNat < a.cnt.toNat ∨ (a.cnt = b.cnt ∧ a.sym.toNat < b.sym.toNat)) ∧
      ft.length = distinctSyms s.regs.cnt

/-! ### Code Tree Builder -/

/-- R121, R125, R126, R127: TREE in FT_READY completes, for every Frequency Table of at most 256
entries whose counts sum to at most 2^32 - 1 (every good state's): NN = 2K-1 and ROOT = 2K-2 (none
and 0x1FF for K = 0), the leaves are the entries in table order, every internal node has two
different children of smaller index and the sum of their frequencies, every node but the root has
exactly one parent, the root's frequency is the sum of the counts; nothing else changes; and its
protocol errors. -/
def Obligations.TreeBuildsAFullBinaryTree : Prop :=
  ProtocolErrors .tree ∧ ∀ s : State, s.regs.phase = .ftReady →
    s.regs.ft.length ≤ 256 → sumFt s.regs.ft ≤ 4294967295 →
    ∃ (nodes : List Node) (root : NodeIx),
      exec .tree s = .next
        { s with regs := { s.regs with node := nodes, root := root, phase := .treeReady } } ∧
      (s.regs.ft.length = 0 → nodes = [] ∧ root = 0x1FF) ∧
      (1 ≤ s.regs.ft.length →
        nodes.length = 2 * s.regs.ft.length - 1 ∧ root.toNat = 2 * s.regs.ft.length - 2 ∧
        nodeFreq nodes root.toNat = sumFt s.regs.ft) ∧
      (s.regs.ft.length = 2 → ∃ f, nodes[2]? = some (.internal 1 0 f)) ∧
      (∀ (k : Nat) (e : FtEntry), s.regs.ft[k]? = some e → nodes[k]? = some (.leaf e.sym e.cnt)) ∧
      (∀ j : Nat, s.regs.ft.length ≤ j → j < nodes.length →
        ∃ (l r : NodeIx) (f : Word32), nodes[j]? = some (.internal l r f) ∧ l ≠ r ∧ l.toNat < j ∧ r.toNat < j ∧
          f.toNat = nodeFreq nodes l.toNat + nodeFreq nodes r.toNat) ∧
      (∀ c : Nat, c < nodes.length → c ≠ root.toNat → ∃ j, ChildOf nodes c j ∧ ∀ j', ChildOf nodes c j' → j' = j) ∧
      (∀ j, ¬ChildOf nodes root.toNat j)

/-- R122, R123, R124, R130: the tree is the one a priority queue keyed by (frequency, age) builds:
at each merge the left child is taken before the right one, and both before every node that stood
in the working sequence and was not merged then. -/
def Obligations.EachMergeTakesTheTwoFirstNodes : Prop :=
  ∀ s t : State, s.regs.phase = .ftReady →
    s.regs.ft.length ≤ 256 → sumFt s.regs.ft ≤ 4294967295 →
    s.regs.ft.Pairwise (fun a b => b.cnt.toNat ≤ a.cnt.toNat) → exec .tree s = .next t →
    ∀ (j : Nat) (l r : NodeIx) (f : Word32), t.regs.node[j]? = some (.internal l r f) →
      TakenBefore s.regs.ft.length t.regs.node l.toNat r.toNat ∧
      ∀ x : Nat, x < j → x ≠ l.toNat → x ≠ r.toNat → (∀ j', j' < j → ¬ChildOf t.regs.node x j') →
        TakenBefore s.regs.ft.length t.regs.node r.toNat x

/-! ### Code Table Generator -/

/-- R135, R136, R140: CODEGEN in TREE_READY completes in every good state with 2 to 255 leaves none
of which lies deeper than 31: CT has one entry for each leaf, whose code and length write the path
from the root to the leaf (0 left, 1 right, first branch most significant), in left-to-right order;
PHASE is TABLE_READY; nothing else changes; and its protocol errors. -/
def Obligations.CodegenWritesThePathOfEachLeaf : Prop :=
  ProtocolErrors .codegen ∧ ∀ s : State, GoodState s → s.regs.phase = .treeReady →
    2 ≤ s.regs.ft.length → s.regs.ft.length ≤ 255 →
    (∀ w sym, Leads s.regs.node s.regs.root.toNat w sym → w.length ≤ 31) →
    ∃ ct, exec .codegen s = .next { s with regs := { s.regs with ct := ct, phase := .tableReady } } ∧
      ct.length = s.regs.ft.length ∧
      (∀ e, e ∈ ct ↔ ∃ w, Leads s.regs.node s.regs.root.toNat w e.sym ∧
        e.code.toNat = bitsValue w ∧ e.len.toNat = w.length) ∧
      (ct.map codeBits).Pairwise (· < ·)

/-- R137, R138, R139: CODEGEN in TREE_READY completes with the empty table for FTN = 0 and with the
promoted 1-bit code for FTN = 1, and raises CAP_ALPHABET with 256, before any walk, for FTN = 256. -/
def Obligations.CodegenCornerCases : Prop :=
  ∀ s : State, GoodState s → s.regs.phase = .treeReady →
    (s.regs.ft = [] →
      exec .codegen s = .next { s with regs := { s.regs with ct := [], phase := .tableReady } }) ∧
    (∀ e, s.regs.ft = [e] →
      exec .codegen s =
        .next { s with regs := { s.regs with ct := [⟨e.sym, 0, 1⟩], phase := .tableReady } }) ∧
    (s.regs.ft.length = 256 → exec .codegen s = .next (errorEntry s .capAlphabet 256))

/-- R140: with 2 to 255 leaves, one of them deeper than 31, CODEGEN raises CAP_CODELEN with the
symbol of the first such leaf in walk order; and a tree of at most 32 leaves has none. -/
def Obligations.CodegenRejectsTooDeepLeaves : Prop :=
  ∀ s : State, GoodState s → s.regs.phase = .treeReady →
    2 ≤ s.regs.ft.length → s.regs.ft.length ≤ 255 →
    (∀ w sym, Leads s.regs.node s.regs.root.toNat w sym → 31 < w.length →
      (∀ v sym', Leads s.regs.node s.regs.root.toNat v sym' → v < w → v.length ≤ 31) →
      exec .codegen s = .next (errorEntry s .capCodelen (zext32 sym))) ∧
    (s.regs.ft.length ≤ 32 →
      ∀ w sym, Leads s.regs.node s.regs.root.toNat w sym → w.length ≤ 31)

/-- R141 (a) to (d): in every good state of the compression path from TABLE_READY on, CT has the
symbols of FT, each once, at most 255 of them; each length is 1 to 31 and each code fits it; no
code is a prefix of another; and for two entries or more the codes are complete. -/
def Obligations.EncoderTableIsACompletePrefixCode : Prop :=
  ∀ s : State, GoodState s → s.regs.stage ∈ [.tableReady, .packing, .packDone, .encDone] →
    (s.regs.ct.map (·.sym)).Perm (s.regs.ft.map (·.sym)) ∧
    (s.regs.ct.map (·.sym)).Nodup ∧ s.regs.ct.length ≤ 255 ∧
    (∀ e ∈ s.regs.ct, 1 ≤ e.len.toNat ∧ e.len.toNat ≤ 31 ∧ e.code.toNat < 2 ^ e.len.toNat) ∧
    PrefixFree s.regs.ct ∧
    (2 ≤ s.regs.ct.length → (s.regs.ct.map fun e => 2 ^ (31 - e.len.toNat)).sum = 2 ^ 31)

/-- R141 (e): in such a state a symbol with a greater count never has a longer code. The spec's source
states an instance only: the general property is the spec's own addition, from general knowledge
(93_implementation_defined.md G3), and no rule depends on it. -/
def Obligations.MoreFrequentSymbolsHaveNoLongerCodes : Prop :=
  ∀ s : State, GoodState s → s.regs.stage ∈ [.tableReady, .packing, .packDone, .encDone] →
    ∀ a ∈ s.regs.ct, ∀ b ∈ s.regs.ct,
      (counter s.regs.cnt b.sym).toNat < (counter s.regs.cnt a.sym).toNat →
      a.len.toNat ≤ b.len.toNat

/-! ### Bit Packer -/

/-- R150, R154, R155: PACK b in TABLE_READY or PACKING, when CT has a first entry for b whose length
BITLEN has room for, completes: with P the pending bits (the PCNT low bits of PACC) followed by the
entry's code bits, the whole bytes of P are emitted, at most 4 of them for a length up to 31, the
bits after them stay pending, BITLEN grows by the length, PHASE is PACKING, nothing else changes;
and its protocol errors. PACC < 2^PCNT and code < 2^len hold in every good state. -/
def Obligations.PackAppendsTheCode : Prop :=
  ∀ b : Byte, ProtocolErrors (.pack b) ∧ ∀ (s : State) (e : CtEntry),
    s.regs.phase = .tableReady ∨ s.regs.phase = .packing →
    lookupSym s.regs.ct b = some e →
    s.regs.bitlen.toNat + e.len.toNat ≤ 4294967295 →
    s.regs.pacc.toNat < 2 ^ s.regs.pcnt.toNat → e.code.toNat < 2 ^ e.len.toNat →
    ∃ pacc pcnt,
      exec (.pack b) s = .next (completed s
        { s.regs with
          pacc := pacc
          pcnt := pcnt
          bitlen := s.regs.bitlen + BitVec.ofNat 32 e.len.toNat
          phase := .packing }
        (bytesOfBits ((lowBits s.regs.pcnt.toNat s.regs.pacc.toNat ++ codeBits e).take
          (8 * ((s.regs.pcnt.toNat + e.len.toNat) / 8))))) ∧
      pcnt.toNat = (s.regs.pcnt.toNat + e.len.toNat) % 8 ∧
      pacc.toNat < 2 ^ pcnt.toNat ∧
      lowBits pcnt.toNat pacc.toNat =
        (lowBits s.regs.pcnt.toNat s.regs.pacc.toNat ++ codeBits e).drop
          (8 * ((s.regs.pcnt.toNat + e.len.toNat) / 8)) ∧
      (e.len.toNat ≤ 31 → (s.regs.pcnt.toNat + e.len.toNat) / 8 ≤ 4)

/-- R150, R154, R157: PACK b raises NOSYM with b when no entry has the symbol b, and CAP_BITLEN with
BITLEN when the first entry for b would take BITLEN past 2^32 - 1. -/
def Obligations.PackErrors : Prop :=
  ∀ (b : Byte) (s : State), s.regs.phase = .tableReady ∨ s.regs.phase = .packing →
    ((∀ e ∈ s.regs.ct, e.sym ≠ b) → exec (.pack b) s = .next (errorEntry s .nosym (zext32 b))) ∧
    (∀ before e after, s.regs.ct = before ++ e :: after → (∀ x ∈ before, x.sym ≠ b) → e.sym = b →
      s.regs.bitlen.toNat + e.len.toNat > 4294967295 →
      exec (.pack b) s = .next (errorEntry s .capBitlen s.regs.bitlen))

/-- R152: PACK.END in TABLE_READY or PACKING completes: with no pending bit it emits nothing, else
the one byte whose top bits are the pending bits and whose other bits are 0; PACC and PCNT become
0, BITLEN stays, PHASE is PACK_DONE, nothing else changes; and its protocol errors. PACC < 2^PCNT
holds in every good state. -/
def Obligations.PackEndPadsTheLastByte : Prop :=
  ProtocolErrors .packEnd ∧ ∀ s : State,
    s.regs.phase = .tableReady ∨ s.regs.phase = .packing →
    s.regs.pacc.toNat < 2 ^ s.regs.pcnt.toNat →
    ∃ out,
      exec .packEnd s =
        .next (completed s { s.regs with pacc := 0, pcnt := 0, phase := .packDone } out) ∧
      (s.regs.pcnt = 0 → out = []) ∧
      (s.regs.pcnt ≠ 0 → ∃ b : Byte, out = [b] ∧
        lowBits 8 b.toNat = lowBits s.regs.pcnt.toNat s.regs.pacc.toNat ++
          List.replicate (8 - s.regs.pcnt.toNat) false)

/-- R156: from TABLE_READY, packing a sequence whose symbols all have entries and ending it emits
the concatenation of their codes in order, zero-padded to a byte boundary, and BITLEN is its exact
number of bits. -/
def Obligations.PayloadIsTheConcatenationOfTheCodes : Prop :=
  ∀ (S : List Byte) (s : State) (B : List Bool), GoodState s → s.regs.phase = .tableReady →
    payloadBits s.regs.ct S = some B → B.length ≤ 4294967295 →
    ∃ t, runInstrs (packsOf S ++ [.packEnd]) s = .next t ∧
      t.regs.phase = .packDone ∧ t.regs.bitlen.toNat = B.length ∧
      t.outQ = s.outQ ++ bytesOfBits B ∧ t.regs.ct = s.regs.ct

/-! ### Container Codec -/

/-- R165, R68, R62: HDR.WR in PACK_DONE completes and emits 8 + 6·CTN bytes: the magic at offset 0,
the bytes of BITLEN least significant first at 3, CTN at 7, and for record r its symbol at 8+6r, its
code bytes least significant first at 9+6r, its length at 13+6r; HDRSIZE is that number of bytes,
PHASE is ENC_DONE, nothing else changes; and its protocol errors. -/
def Obligations.HdrWrEmitsTheHeader : Prop :=
  ProtocolErrors .hdrWr ∧ ∀ s : State, s.regs.phase = .packDone →
    ∃ hdr : List Byte,
      exec .hdrWr s = .next (completed s
        { s.regs with hdrsize := BitVec.ofNat 11 (8 + 6 * s.regs.ct.length), phase := .encDone } hdr) ∧
      hdr.length = 8 + 6 * s.regs.ct.length ∧
      hdr[0]? = some 0x51 ∧ hdr[1]? = some 0x50 ∧ hdr[2]? = some 0x4B ∧
      (∀ k : Nat, k < 4 → hdr[3 + k]? = some (BitVec.ofNat 8 (s.regs.bitlen.toNat / 2 ^ (8 * k)))) ∧
      hdr[7]? = some (BitVec.ofNat 8 s.regs.ct.length) ∧
      ∀ (r : Nat) (e : CtEntry), s.regs.ct[r]? = some e →
        hdr[8 + 6 * r]? = some e.sym ∧
        (∀ k : Nat, k < 4 → hdr[9 + 6 * r + k]? = some (BitVec.ofNat 8 (e.code.toNat / 2 ^ (8 * k)))) ∧
        hdr[13 + 6 * r]? = some e.len

/-- R168 and R167's protocol errors: HDR.RD in IDLE or HDR_PARSE raises FORMAT_MAGIC, with the
offset, on a byte at offset 0, 1 or 2 that is not 0x51, 0x50, 0x4B in that order. -/
def Obligations.HdrRdChecksTheMagicByteByByte : Prop :=
  ∀ b : Byte, ProtocolErrors (.hdrRd b) ∧ ∀ s : State,
    s.regs.phase = .idle ∨ s.regs.phase = .hdrParse →
    ((s.regs.hpos = 0 ∧ b ≠ 0x51) ∨ (s.regs.hpos = 1 ∧ b ≠ 0x50) ∨ (s.regs.hpos = 2 ∧ b ≠ 0x4B) →
      exec (.hdrRd b) s = .next (errorEntry s .formatMagic (zext32 s.regs.hpos)))

/-- R167, R169 to R173: HDR.RD b in IDLE or HDR_PARSE, with the right byte at a magic offset or any
byte at a later one, completes and emits nothing. A magic byte is stored nowhere; offsets 3 to 6
replace byte p-3 of BITLEN; offset 7 makes HDRSIZE 8 + 6·b; from offset 8 on, by (p-8) mod 6: 0 sets
HSYM and clears HCODE, 1 to 4 replace a byte of HCODE, 5 appends (HSYM, HCODE, b) to CT. HPOS
advances; PHASE is UNPACKING when the byte is the last of the header, else HDR_PARSE; nothing else
changes. -/
def Obligations.HdrRdStoresTheHeaderByte : Prop :=
  ∀ (b : Byte) (s : State), s.regs.phase = .idle ∨ s.regs.phase = .hdrParse →
    (s.regs.hpos = 0 → b = 0x51) → (s.regs.hpos = 1 → b = 0x50) → (s.regs.hpos = 2 → b = 0x4B) →
    ∃ bitlen hdrsize hsym hcode ct phase,
      exec (.hdrRd b) s = .next { s with regs := { s.regs with
        bitlen := bitlen, hdrsize := hdrsize, hsym := hsym, hcode := hcode, ct := ct,
        hpos := s.regs.hpos + 1, phase := phase } } ∧
      (∀ k : Nat, k < 4 → byteOf k bitlen =
        if s.regs.hpos.toNat = 3 + k then b else byteOf k s.regs.bitlen) ∧
      hdrsize = (if s.regs.hpos = 7 then BitVec.ofNat 11 (8 + 6 * b.toNat) else s.regs.hdrsize) ∧
      hsym = (if 8 ≤ s.regs.hpos.toNat ∧ (s.regs.hpos.toNat - 8) % 6 = 0 then b else s.regs.hsym) ∧
      (∀ k : Nat, k < 4 → byteOf k hcode =
        if 8 ≤ s.regs.hpos.toNat then
          if (s.regs.hpos.toNat - 8) % 6 = 0 then 0
          else if (s.regs.hpos.toNat - 8) % 6 = 1 + k then b else byteOf k s.regs.hcode
        else byteOf k s.regs.hcode) ∧
      ct = (if 8 ≤ s.regs.hpos.toNat ∧ (s.regs.hpos.toNat - 8) % 6 = 5
            then s.regs.ct ++ [⟨s.regs.hsym, s.regs.hcode, b⟩] else s.regs.ct) ∧
      phase = (if 7 ≤ s.regs.hpos.toNat ∧ s.regs.hpos.toNat + 1 = hdrsize.toNat
               then .unpacking else .hdrParse)

/-- R175, R173: HDR.WR emits the header of the bit count and the table, and feeding a header to HDR.RD
in a fresh call raises no error and gives back its bit count and its table, whatever the table's
entries are (up to 255 of them), with HDRSIZE and HPOS the header's size and PHASE = UNPACKING. -/
def Obligations.HeaderRoundTrip : Prop :=
  (∀ s : State, s.regs.phase = .packDone →
    ∃ t, exec .hdrWr s = .next t ∧ t.outQ = s.outQ ++ headerBytes s.regs.bitlen s.regs.ct) ∧
  ∀ (s : State) (bitlen : Word32) (ct : List CtEntry), s.regs = Regs.reset → ct.length ≤ 255 →
    ∃ t, runInstrs (hdrsOf (headerBytes bitlen ct)) s = .next t ∧
      t.regs.phase = .unpacking ∧ t.regs.ct = ct ∧ t.regs.bitlen = bitlen ∧
      t.regs.hdrsize.toNat = 8 + 6 * ct.length ∧ t.regs.hpos = t.regs.hdrsize ∧
      t.regs.uacc = 0 ∧ t.regs.ucnt = 0 ∧ t.regs.ucons = 0 ∧ t.outQ = s.outQ

/-! ### Bit Unpacker -/

/-- R185 to R189, R191: UNPACK b in UNPACKING reads, most significant bit first, the bits of b up to
the stop at UCONS = BITLEN as the bit string decoder does: it completes with the symbols of the
codes completed (first matching entry, code and length both equal), the bits since the last match
pending, UCONS advanced by the bits read, nothing else changed; or a bit that finds 32 pending
raises FORMAT_NOCODE with the number of bits consumed before it; and its protocol errors. The three
bounds hold in every good state. -/
def Obligations.UnpackReadsTheBitString : Prop :=
  ∀ b : Byte, ProtocolErrors (.unpack b) ∧ ∀ s : State,
    s.regs.phase = .unpacking → s.regs.ucons.toNat ≤ s.regs.bitlen.toNat →
    s.regs.ucnt.toNat ≤ 32 → s.regs.uacc.toNat < 2 ^ s.regs.ucnt.toNat →
    let bits := (lowBits 8 b.toNat).take (s.regs.bitlen.toNat - s.regs.ucons.toNat)
    match readBits s.regs.ct (lowBits s.regs.ucnt.toNat s.regs.uacc.toNat) bits with
    | .ok (pending, out) =>
      ∃ uacc ucnt,
        exec (.unpack b) s = .next (completed s
          { s.regs with
            uacc := uacc
            ucnt := ucnt
            ucons := s.regs.ucons + BitVec.ofNat 32 bits.length } out) ∧
        lowBits ucnt.toNat uacc.toNat = pending ∧ ucnt.toNat ≤ 32 ∧ uacc.toNat < 2 ^ ucnt.toNat
    | .error n =>
      exec (.unpack b) s =
        .next (errorEntry s .formatNocode (s.regs.ucons + BitVec.ofNat 32 n))

/-- R189, R193: UNPACK completes, staying in UNPACKING, whenever the accumulator has room for the
meaningful bits of the byte, whatever the table is; with UCONS = BITLEN it changes nothing. -/
def Obligations.UnpackCompletesWithRoom : Prop :=
  ∀ (b : Byte) (s : State), s.regs.phase = .unpacking →
    (s.regs.ucons = s.regs.bitlen → exec (.unpack b) s = .next s) ∧
    (s.regs.ucons.toNat ≤ s.regs.bitlen.toNat →
      s.regs.ucnt.toNat + min 8 (s.regs.bitlen.toNat - s.regs.ucons.toNat) ≤ 32 →
      ∃ t, exec (.unpack b) s = .next t ∧ t.regs.phase = .unpacking ∧
        t.regs.ucons.toNat =
          s.regs.ucons.toNat + min 8 (s.regs.bitlen.toNat - s.regs.ucons.toNat))

/-- R190, R174, R192: EOF in IDLE or HDR_PARSE raises FORMAT_TRUNC_HEADER with HPOS; in UNPACKING it
raises FORMAT_TRUNC_PAYLOAD with UCONS while UCONS < BITLEN and else completes in DEC_DONE with
nothing else changed, whatever bits are pending; and its protocol errors. -/
def Obligations.EofEndsTheDecode : Prop :=
  ProtocolErrors .eof ∧ ∀ s : State,
    (s.regs.phase = .idle ∨ s.regs.phase = .hdrParse →
      exec .eof s = .next (errorEntry s .formatTruncHeader (zext32 s.regs.hpos))) ∧
    (s.regs.phase = .unpacking → s.regs.ucons.toNat < s.regs.bitlen.toNat →
      exec .eof s = .next (errorEntry s .formatTruncPayload s.regs.ucons)) ∧
    (s.regs.phase = .unpacking → s.regs.bitlen.toNat ≤ s.regs.ucons.toNat →
      exec .eof s = .next { s with regs := { s.regs with phase := .decDone } })

/-- R194, the round trip: for every byte sequence S, if `ENCODE S` ends in ENC_DONE, then `DECODE` of
the file assembled from the bytes it emitted, run from any state, ends in DEC_DONE with UCNT = 0 and
emits exactly S. -/
def Obligations.DecodeOfEncodeIsTheInput : Prop :=
  ∀ (S out : List Byte) (s t s' : State),
    runInstrs (encodeCall S) s = .next t → t.regs.phase = .encDone → t.outQ = s.outQ ++ out →
    ∃ t', runDecode (assembleFile t.regs.hdrsize.toNat out) s' = .next t' ∧
      t'.regs.phase = .decDone ∧ t'.regs.ucnt = 0 ∧ t'.outQ = s'.outQ ++ S

/-! ### CSRs -/

/-- R38: the scalar CSRs and the ID constant. -/
def Obligations.ScalarCsrMap : Prop :=
  ∀ r : Regs,
    csrRead r 0x000 = 0x51504B01 ∧ csrRead r 0x001 = r.status ∧ csrRead r 0x002 = zext32 r.err.code ∧
    csrRead r 0x003 = r.errInfo ∧ csrRead r 0x004 = r.total ∧ csrRead r 0x005 = zext32 r.ftn ∧
    csrRead r 0x006 = zext32 r.nn ∧ csrRead r 0x007 = zext32 r.root ∧ csrRead r 0x008 = zext32 r.ctn ∧
    csrRead r 0x009 = r.bitlen ∧ csrRead r 0x00A = zext32 r.hdrsize ∧ csrRead r 0x00B = zext32 r.pacc ∧
    csrRead r 0x00C = zext32 r.pcnt ∧ csrRead r 0x00D = r.uacc ∧ csrRead r 0x00E = zext32 r.ucnt ∧
    csrRead r 0x00F = r.ucons ∧ csrRead r 0x010 = zext32 r.hpos ∧ csrRead r 0x011 = r.outcnt

/-- R38, R40: the array windows: the counter of each symbol, the entries and nodes below their
counts, 0 from the count on, and 0 at every address outside the map. -/
def Obligations.ArrayWindowsAreGatedByTheirCounts : Prop :=
  ∀ r : Regs,
    (∀ b : Byte, csrRead r (0x100 + b.setWidth 12) = counter r.cnt b) ∧
    (∀ k : Nat, k < 256 → ∀ a : CsrAddr, a = BitVec.ofNat 12 k →
      (∀ e : FtEntry, r.ft[k]? = some e →
        csrRead r (0x200 + a) = zext32 e.sym ∧ csrRead r (0x300 + a) = e.cnt) ∧
      (r.ft.length ≤ k → csrRead r (0x200 + a) = 0 ∧ csrRead r (0x300 + a) = 0)) ∧
    (∀ k : Nat, k < 255 → ∀ a : CsrAddr, a = BitVec.ofNat 12 k →
      (∀ e : CtEntry, r.ct[k]? = some e → csrRead r (0x400 + a) = zext32 e.sym ∧
        csrRead r (0x500 + a) = e.code ∧ csrRead r (0x600 + a) = zext32 e.len) ∧
      (r.ct.length ≤ k →
        csrRead r (0x400 + a) = 0 ∧ csrRead r (0x500 + a) = 0 ∧ csrRead r (0x600 + a) = 0)) ∧
    (∀ k : Nat, k < 511 → ∀ a : CsrAddr, a = BitVec.ofNat 12 k →
      (∀ n : Node, r.node[k]? = some n →
        csrRead r (0x800 + a) = n.freq ∧ csrRead r (0xA00 + a) = n.info) ∧
      (r.node.length ≤ k → csrRead r (0x800 + a) = 0 ∧ csrRead r (0xA00 + a) = 0)) ∧
    (∀ a : CsrAddr, (0x011 < a.toNat ∧ a.toNat < 0x100) ∨ a.toNat = 0x4FF ∨ a.toNat = 0x5FF ∨
      (0x6FE < a.toNat ∧ a.toNat < 0x800) ∨ a.toNat = 0x9FF ∨ 0xBFE < a.toNat → csrRead r a = 0)

/-- R39, R41: the fields of STATUS and of NODE_INFO as numbers. -/
def Obligations.StatusAndNodeInfoFields : Prop :=
  (∀ r : Regs, r.status.toNat =
    r.phase.code.toNat + 16 * r.ephase.code.toNat + (if r.phase = .error then 256 else 0)) ∧
  (∀ sym f, (Node.info (.leaf sym f)).toNat = 2 * sym.toNat) ∧
  (∀ l r f, (Node.info (.internal l r f)).toNat = 1 + 2 * l.toNat + 1024 * r.toNat)

/-! ### The good state -/

/-- R44, R43: the reset state is good. -/
def Obligations.ResetStateIsGood : Prop := GoodState State.reset

/-- R43: every step from a good state leads to a good state. -/
def Obligations.StepKeepsTheGoodState : Prop :=
  ∀ s t : State, GoodState s → step s = .next t → GoodState t

/-- R253, R127: in a good state every step has a next state: no command word in any phase, and no
other action of the host, ends in a fault or a refusal. -/
def Obligations.GoodStatesNeverStop : Prop :=
  ∀ s : State, GoodState s → ∃ t, step s = .next t

/-- R43: a good state meets the nine invariants. -/
def Obligations.GoodStatesMeetRuleR43 : Prop :=
  ∀ s : State, GoodState s → RuleR43 s.regs

/-! ### Pseudo-commands -/

/-- R90: `DECODE F` completes from every state. After CLEAR it gives the first `h` bytes of F to
HDR.RD, each while PHASE is IDLE or HDR_PARSE, and stops early only when PHASE is neither; without an
error h = min(|F|, HDRSIZE), HDRSIZE being 8 + 6·F[7] once the 8th byte is read, and h = |F| when F
is shorter. Then it issues `UNPACKS F[h ..]` only if PHASE = UNPACKING, and EOF. That a byte which
raises FORMAT_MAGIC counts among the `h` is the model's reading (log entry 10). -/
def Obligations.DecodeExpandsToItsCommands : Prop :=
  ∀ (F : List Byte) (s : State), ∃ (h : Nat) (u t : State),
    h ≤ F.length ∧
    runInstrs (.clear :: hdrsOf (F.take h)) s = .next u ∧
    (∀ k < h, ∃ v, runInstrs (.clear :: hdrsOf (F.take k)) s = .next v ∧
      (v.regs.phase = .idle ∨ v.regs.phase = .hdrParse)) ∧
    (h < F.length → u.regs.phase ≠ .idle ∧ u.regs.phase ≠ .hdrParse) ∧
    (u.regs.phase ≠ .error →
      (F.length < 8 → h = F.length) ∧
      (∀ b, F[7]? = some b →
        u.regs.hdrsize.toNat = 8 + 6 * b.toNat ∧ h = min F.length u.regs.hdrsize.toNat)) ∧
    runInstrs ((if u.regs.phase = .unpacking then unpacksOf (F.drop h) else []) ++ [.eof]) u =
      .next t ∧
    runDecode F s = .next t

/-- R90: `COUNT b0[,b1[,b2[,b3]]]` is the COUNT.n of its n operands, opcode 0x0F + n, for n from 1 to
4 and for no other number. -/
def Obligations.CountIsTheCommandOfItsOperands : Prop :=
  ∀ bs : List Byte,
    ((countOf bs).isSome = true ↔ 1 ≤ bs.length ∧ bs.length ≤ 4) ∧
    ∀ i : Instr, countOf bs = some i ↔
      i.opcode.toNat = 0x0F + bs.length ∧ isCount i = true ∧ countLanes i = bs
end

