-- ==== Sys2Proof/Laws/Decode.lean ====
section
/-!
SUPPORT. The fields of an assembled word (R80, R82, R83), and what decoding a word answers.
-/

namespace Sys2Proof.Machine

/-- A word as a number (R80). -/
theorem wordOf_toNat (arg : Word32) (op : Byte) :
    (wordOf arg op).toNat = 256 * arg.toNat + op.toNat := by
  show (arg ++ op : BitVec (32 + 8)).toNat = _
  rw [BitVec.toNat_append, ← Nat.shiftLeft_add_eq_or_of_lt op.isLt, Nat.shiftLeft_eq]
  omega

theorem opOf_toNat (w : CmdWord) : (opOf w).toNat = w.toNat % 256 := by
  simp [opOf, BitVec.extractLsb'_toNat]

theorem argOf_toNat (w : CmdWord) : (argOf w).toNat = w.toNat / 256 := by
  have := w.isLt
  simp only [argOf, BitVec.extractLsb'_toNat, Nat.shiftRight_eq_div_pow]
  omega

theorem laneOf_toNat (arg : Word32) (i : Nat) :
    (laneOf arg i).toNat = arg.toNat / 2 ^ (8 * i) % 256 := by
  simp [laneOf, BitVec.extractLsb'_toNat, Nat.shiftRight_eq_div_pow]

@[simp] theorem opOf_wordOf (arg : Word32) (op : Byte) : opOf (wordOf arg op) = op := by
  apply BitVec.eq_of_toNat_eq
  rw [opOf_toNat, wordOf_toNat]
  have := op.isLt
  omega

@[simp] theorem argOf_wordOf (arg : Word32) (op : Byte) : argOf (wordOf arg op) = arg := by
  apply BitVec.eq_of_toNat_eq
  rw [argOf_toNat, wordOf_toNat]
  have := op.isLt
  omega

/-- A word is its two fields (R80). -/
theorem wordOf_opOf_argOf (w : CmdWord) : wordOf (argOf w) (opOf w) = w := by
  apply BitVec.eq_of_toNat_eq
  rw [wordOf_toNat, opOf_toNat, argOf_toNat]
  omega

/-- The packed argument as a number: lane 0 lowest (R83). -/
theorem argP_toNat (b0 b1 b2 b3 : Byte) : (argP b0 b1 b2 b3).toNat =
    b0.toNat + 256 * b1.toNat + 65536 * b2.toNat + 16777216 * b3.toNat := by
  show (((b3 ++ b2 : BitVec (8 + 8)) ++ b1 : BitVec (8 + 8 + 8)) ++ b0 : BitVec (8 + 8 + 8 + 8)).toNat = _
  have h0 := b0.isLt
  have h1 := b1.isLt
  have h2 := b2.isLt
  rw [BitVec.toNat_append, BitVec.toNat_append, BitVec.toNat_append,
    ← Nat.shiftLeft_add_eq_or_of_lt h0, ← Nat.shiftLeft_add_eq_or_of_lt h1,
    ← Nat.shiftLeft_add_eq_or_of_lt h2]
  simp only [Nat.shiftLeft_eq]
  omega

theorem argS_toNat (b : Byte) : (argS b).toNat = b.toNat := by
  show (0#24 ++ b : BitVec (24 + 8)).toNat = _
  rw [BitVec.toNat_append]
  simp

/-- The lanes of a packed argument (R83). -/
theorem laneOf_argP (b0 b1 b2 b3 : Byte) :
    laneOf (argP b0 b1 b2 b3) 0 = b0 ∧ laneOf (argP b0 b1 b2 b3) 1 = b1 ∧
    laneOf (argP b0 b1 b2 b3) 2 = b2 ∧ laneOf (argP b0 b1 b2 b3) 3 = b3 := by
  have h0 := b0.isLt
  have h1 := b1.isLt
  have h2 := b2.isLt
  have h3 := b3.isLt
  refine ⟨?_, ?_, ?_, ?_⟩ <;> apply BitVec.eq_of_toNat_eq <;>
    rw [laneOf_toNat, argP_toNat] <;> omega

/-- The operand byte of format S is lane 0 (R82). -/
@[simp] theorem laneOf_argS (b : Byte) : laneOf (argS b) 0 = b := by
  apply BitVec.eq_of_toNat_eq
  rw [laneOf_toNat, argS_toNat]
  have := b.isLt
  omega

/-- An argument is its four lanes. -/
theorem argP_lanes (arg : Word32) :
    argP (laneOf arg 0) (laneOf arg 1) (laneOf arg 2) (laneOf arg 3) = arg := by
  apply BitVec.eq_of_toNat_eq
  simp only [argP_toNat, laneOf_toNat]
  have := arg.isLt
  omega

/-- Format P's check says that the lanes from `n` on are zero (R83). -/
theorem reservedZeroP_iff (n : Nat) (arg : Word32) :
    reservedZeroP n arg = true ↔ ∀ i, i < 4 → n ≤ i → laneOf arg i = 0 := by
  unfold reservedZeroP
  simp only [List.all_eq_true, List.mem_range, Bool.or_eq_true, decide_eq_true_eq, beq_iff_eq]
  constructor
  · intro h i h4 hn
    rcases h i h4 with h | h
    · omega
    · exact h
  · intro h i h4
    by_cases hn : i < n
    · exact .inl hn
    · exact .inr (h i h4 (by omega))

/-- Format S's check says that `arg` is its lane 0 (R82). -/
theorem reservedZeroS_iff (arg : Word32) :
    reservedZeroS arg = true ↔ arg = argS (laneOf arg 0) := by
  unfold reservedZeroS
  have := arg.isLt
  rw [beq_iff_eq, ← BitVec.toNat_inj, ← BitVec.toNat_inj, argS_toNat, laneOf_toNat,
    BitVec.extractLsb'_toNat, Nat.shiftRight_eq_div_pow]
  simp only [BitVec.ofNat_eq_ofNat, BitVec.toNat_ofNat]
  omega

end Sys2Proof.Machine

namespace Sys2Proof

open Machine

/-- The opcode map is keyed by the opcode (R85). -/
theorem opcode_of_mnemonicOf {op : Byte} {m : Mnemonic} (h : mnemonicOf op = some m) :
    m.opcode = op := by
  simpa using List.find?_some h

theorem mnemonicOf_opcode (m : Mnemonic) : mnemonicOf m.opcode = some m := by
  cases m <;> rfl

/-- Everything decoding can accept: a row of the map with its reserved bits zero (R86). -/
theorem decodeFields_eq_ok {op : Byte} {arg : Word32} {i : Instr} :
    decodeFields op arg = .ok i ↔
      ∃ m : Mnemonic, m.opcode = op ∧ m.format.reservedZero arg = true ∧ m.instr (laneOf arg) = i := by
  unfold decodeFields
  constructor
  · intro h
    cases hm : mnemonicOf op with
    | none => rw [hm] at h; cases h
    | some m =>
      rw [hm] at h
      simp only at h
      split at h
      · rename_i hz
        cases h
        exact ⟨m, opcode_of_mnemonicOf hm, hz, rfl⟩
      · cases h
  · rintro ⟨m, rfl, hz, rfl⟩
    rw [mnemonicOf_opcode]
    simp [hz]

@[simp] theorem decode_wordOf (arg : Word32) (op : Byte) :
    decode (wordOf arg op) = decodeFields op arg := by
  simp [decode]

end Sys2Proof
end

