-- ==== Sys2Proof/Laws/State.lean ====
section
/-!
SUPPORT. One lemma per field for each operation that updates the state: error entry, CLEAR,
emission, the host's actions, and `completed`, so that no later proof unfolds a record update.
-/

namespace Sys2Proof.Machine

open Sys2Proof.Safety

variable (s : State) (r : Regs) (e : ErrorCode) (info : Word32) (bytes out : List Byte)

@[simp] theorem errorEntry_phase : (errorEntry s e info).regs.phase = .error := rfl
@[simp] theorem errorEntry_err : (errorEntry s e info).regs.err = e := rfl
@[simp] theorem errorEntry_errInfo : (errorEntry s e info).regs.errInfo = info := rfl
@[simp] theorem errorEntry_ephase : (errorEntry s e info).regs.ephase = s.regs.phase := rfl
@[simp] theorem errorEntry_cnt : (errorEntry s e info).regs.cnt = s.regs.cnt := rfl
@[simp] theorem errorEntry_total : (errorEntry s e info).regs.total = s.regs.total := rfl
@[simp] theorem errorEntry_ft : (errorEntry s e info).regs.ft = s.regs.ft := rfl
@[simp] theorem errorEntry_node : (errorEntry s e info).regs.node = s.regs.node := rfl
@[simp] theorem errorEntry_root : (errorEntry s e info).regs.root = s.regs.root := rfl
@[simp] theorem errorEntry_ct : (errorEntry s e info).regs.ct = s.regs.ct := rfl
@[simp] theorem errorEntry_bitlen : (errorEntry s e info).regs.bitlen = s.regs.bitlen := rfl
@[simp] theorem errorEntry_hdrsize : (errorEntry s e info).regs.hdrsize = s.regs.hdrsize := rfl
@[simp] theorem errorEntry_pacc : (errorEntry s e info).regs.pacc = s.regs.pacc := rfl
@[simp] theorem errorEntry_pcnt : (errorEntry s e info).regs.pcnt = s.regs.pcnt := rfl
@[simp] theorem errorEntry_uacc : (errorEntry s e info).regs.uacc = s.regs.uacc := rfl
@[simp] theorem errorEntry_ucnt : (errorEntry s e info).regs.ucnt = s.regs.ucnt := rfl
@[simp] theorem errorEntry_ucons : (errorEntry s e info).regs.ucons = s.regs.ucons := rfl
@[simp] theorem errorEntry_hpos : (errorEntry s e info).regs.hpos = s.regs.hpos := rfl
@[simp] theorem errorEntry_hsym : (errorEntry s e info).regs.hsym = s.regs.hsym := rfl
@[simp] theorem errorEntry_hcode : (errorEntry s e info).regs.hcode = s.regs.hcode := rfl
@[simp] theorem errorEntry_outcnt : (errorEntry s e info).regs.outcnt = s.regs.outcnt := rfl
@[simp] theorem errorEntry_outQ : (errorEntry s e info).outQ = s.outQ := rfl
@[simp] theorem errorEntry_host : (errorEntry s e info).host = s.host := rfl
@[simp] theorem errorEntry_taken : (errorEntry s e info).taken = s.taken := rfl
@[simp] theorem errorEntry_csrData : (errorEntry s e info).csrData = s.csrData := rfl

@[simp] theorem emit_phase : (emit s bytes).regs.phase = s.regs.phase := rfl
@[simp] theorem emit_err : (emit s bytes).regs.err = s.regs.err := rfl
@[simp] theorem emit_errInfo : (emit s bytes).regs.errInfo = s.regs.errInfo := rfl
@[simp] theorem emit_ephase : (emit s bytes).regs.ephase = s.regs.ephase := rfl
@[simp] theorem emit_cnt : (emit s bytes).regs.cnt = s.regs.cnt := rfl
@[simp] theorem emit_total : (emit s bytes).regs.total = s.regs.total := rfl
@[simp] theorem emit_ft : (emit s bytes).regs.ft = s.regs.ft := rfl
@[simp] theorem emit_node : (emit s bytes).regs.node = s.regs.node := rfl
@[simp] theorem emit_root : (emit s bytes).regs.root = s.regs.root := rfl
@[simp] theorem emit_ct : (emit s bytes).regs.ct = s.regs.ct := rfl
@[simp] theorem emit_bitlen : (emit s bytes).regs.bitlen = s.regs.bitlen := rfl
@[simp] theorem emit_hdrsize : (emit s bytes).regs.hdrsize = s.regs.hdrsize := rfl
@[simp] theorem emit_pacc : (emit s bytes).regs.pacc = s.regs.pacc := rfl
@[simp] theorem emit_pcnt : (emit s bytes).regs.pcnt = s.regs.pcnt := rfl
@[simp] theorem emit_uacc : (emit s bytes).regs.uacc = s.regs.uacc := rfl
@[simp] theorem emit_ucnt : (emit s bytes).regs.ucnt = s.regs.ucnt := rfl
@[simp] theorem emit_ucons : (emit s bytes).regs.ucons = s.regs.ucons := rfl
@[simp] theorem emit_hpos : (emit s bytes).regs.hpos = s.regs.hpos := rfl
@[simp] theorem emit_hsym : (emit s bytes).regs.hsym = s.regs.hsym := rfl
@[simp] theorem emit_hcode : (emit s bytes).regs.hcode = s.regs.hcode := rfl
@[simp] theorem emit_outcnt : (emit s bytes).regs.outcnt = s.regs.outcnt + BitVec.ofNat 32 bytes.length := rfl
@[simp] theorem emit_outQ : (emit s bytes).outQ = s.outQ ++ bytes := rfl
@[simp] theorem emit_host : (emit s bytes).host = s.host := rfl
@[simp] theorem emit_taken : (emit s bytes).taken = s.taken := rfl
@[simp] theorem emit_csrData : (emit s bytes).csrData = s.csrData := rfl

@[simp] theorem completed_phase : (completed s r out).regs.phase = r.phase := rfl
@[simp] theorem completed_err : (completed s r out).regs.err = r.err := rfl
@[simp] theorem completed_errInfo : (completed s r out).regs.errInfo = r.errInfo := rfl
@[simp] theorem completed_ephase : (completed s r out).regs.ephase = r.ephase := rfl
@[simp] theorem completed_cnt : (completed s r out).regs.cnt = r.cnt := rfl
@[simp] theorem completed_total : (completed s r out).regs.total = r.total := rfl
@[simp] theorem completed_ft : (completed s r out).regs.ft = r.ft := rfl
@[simp] theorem completed_node : (completed s r out).regs.node = r.node := rfl
@[simp] theorem completed_root : (completed s r out).regs.root = r.root := rfl
@[simp] theorem completed_ct : (completed s r out).regs.ct = r.ct := rfl
@[simp] theorem completed_bitlen : (completed s r out).regs.bitlen = r.bitlen := rfl
@[simp] theorem completed_hdrsize : (completed s r out).regs.hdrsize = r.hdrsize := rfl
@[simp] theorem completed_pacc : (completed s r out).regs.pacc = r.pacc := rfl
@[simp] theorem completed_pcnt : (completed s r out).regs.pcnt = r.pcnt := rfl
@[simp] theorem completed_uacc : (completed s r out).regs.uacc = r.uacc := rfl
@[simp] theorem completed_ucnt : (completed s r out).regs.ucnt = r.ucnt := rfl
@[simp] theorem completed_ucons : (completed s r out).regs.ucons = r.ucons := rfl
@[simp] theorem completed_hpos : (completed s r out).regs.hpos = r.hpos := rfl
@[simp] theorem completed_hsym : (completed s r out).regs.hsym = r.hsym := rfl
@[simp] theorem completed_hcode : (completed s r out).regs.hcode = r.hcode := rfl
@[simp] theorem completed_outcnt : (completed s r out).regs.outcnt = s.regs.outcnt + BitVec.ofNat 32 out.length := rfl
@[simp] theorem completed_outQ : (completed s r out).outQ = s.outQ ++ out := rfl
@[simp] theorem completed_host : (completed s r out).host = s.host := rfl
@[simp] theorem completed_taken : (completed s r out).taken = s.taken := rfl
@[simp] theorem completed_csrData : (completed s r out).csrData = s.csrData := rfl

@[simp] theorem clearRegs_regs : (clearRegs s).regs = Regs.reset := rfl
@[simp] theorem clearRegs_outQ : (clearRegs s).outQ = s.outQ := rfl
@[simp] theorem clearRegs_host : (clearRegs s).host = s.host := rfl
@[simp] theorem clearRegs_taken : (clearRegs s).taken = s.taken := rfl
@[simp] theorem clearRegs_csrData : (clearRegs s).csrData = s.csrData := rfl

@[simp] theorem resetCore_regs : (resetCore s).regs = Regs.reset := rfl
@[simp] theorem resetCore_outQ : (resetCore s).outQ = [] := rfl
@[simp] theorem resetCore_host : (resetCore s).host = s.host := rfl
@[simp] theorem resetCore_taken : (resetCore s).taken = s.taken := rfl
@[simp] theorem resetCore_csrData : (resetCore s).csrData = s.csrData := rfl

@[simp] theorem answerCsr_regs (a : CsrAddr) : (answerCsr a s).regs = s.regs := rfl
@[simp] theorem answerCsr_outQ (a : CsrAddr) : (answerCsr a s).outQ = s.outQ := rfl
@[simp] theorem answerCsr_host (a : CsrAddr) : (answerCsr a s).host = s.host := rfl
@[simp] theorem answerCsr_taken (a : CsrAddr) : (answerCsr a s).taken = s.taken := rfl
@[simp] theorem answerCsr_csrData (a : CsrAddr) : (answerCsr a s).csrData = s.csrData ++ [csrRead s.regs a] := rfl

@[simp] theorem takeOutput_regs : (takeOutput s).regs = s.regs := by
  unfold takeOutput; split <;> rfl
@[simp] theorem takeOutput_host : (takeOutput s).host = s.host := by
  unfold takeOutput; split <;> rfl
@[simp] theorem takeOutput_csrData : (takeOutput s).csrData = s.csrData := by
  unfold takeOutput; split <;> rfl

/-- Taking a byte moves at most one byte from the head of the stream to the host. -/
@[simp] theorem takeOutput_stream :
    (takeOutput s).taken ++ (takeOutput s).outQ = s.taken ++ s.outQ := by
  unfold takeOutput; split <;> simp_all

end Sys2Proof.Machine
end

