-- ==== Sys2Proof/Laws/Ops.lean ====
section
/-!
SUPPORT. One lemma for each shared operation that says everything it can do: `finish`,
`runCommand`, the counters, the bytes of a 32-bit register.
-/

namespace Sys2Proof.Machine

open Sys2Proof.Safety

/-- A completed command is `completed`: the record of its rule with the bytes emitted and counted,
when the rule leaves OUTCNT alone. -/
theorem finish_done (s : State) (r : Regs) (out : List Byte) (h : r.outcnt = s.regs.outcnt) :
    finish s (.done r out) = .next (completed s r out) := by
  simp [finish, emit, completed, h]

@[simp] theorem finish_raised (s : State) (e : ErrorCode) (info : Word32) :
    finish s (.raised e info) = .next (errorEntry s e info) := rfl

@[simp] theorem finish_stuck (s : State) (f : Fault) : finish s (.stuck f) = .fault f := rfl

/-- A command that emits nothing leaves the stream and OUTCNT as they are. -/
@[simp] theorem completed_nil (s : State) (r : Regs) (h : r.outcnt = s.regs.outcnt) :
    completed s r [] = { s with regs := r } := by
  simp [completed, ← h]

theorem finish_done_nil (s : State) (r : Regs) (h : r.outcnt = s.regs.outcnt) :
    finish s (.done r []) = .next { s with regs := r } := by
  rw [finish_done s r [] h, completed_nil s r h]

/-- Every command but NOP and CLEAR is dropped in ERROR (R229). -/
theorem runCommand_error {op legal body} {s : State} (h : s.regs.phase = .error) :
    runCommand op legal body s = .next s := by
  simp [runCommand, h]

/-- In a listed phase the command's own rule decides. -/
theorem runCommand_legal {op legal body} {s : State} (h : s.regs.phase ≠ .error)
    (hl : s.regs.phase ∈ legal) : runCommand op legal body s = finish s (body s.regs) := by
  simp [runCommand, h, hl]

/-- In any other phase it raises SEQUENCE (R213). -/
theorem runCommand_illegal {op legal body} {s : State} (h : s.regs.phase ≠ .error)
    (hl : s.regs.phase ∉ legal) :
    runCommand op legal body s = .next (errorEntry s .sequence (zext32 op)) := by
  simp [runCommand, h, hl]

/-- Everything `runCommand` can answer with a next state: dropped, SEQUENCE, an error of the
command's own rule, or its completion. -/
theorem runCommand_cases {op legal body} {s t : State} (h : runCommand op legal body s = .next t) :
    (s.regs.phase = .error ∧ t = s) ∨
    (s.regs.phase ≠ .error ∧ s.regs.phase ∉ legal ∧ t = errorEntry s .sequence (zext32 op)) ∨
    (s.regs.phase ≠ .error ∧ s.regs.phase ∈ legal ∧
      ((∃ e info, body s.regs = .raised e info ∧ t = errorEntry s e info) ∨
       (∃ r out, body s.regs = .done r out ∧ t = emit { s with regs := r } out))) := by
  unfold runCommand at h
  split at h
  · simp_all
  · split at h
    · rename_i h1 h2
      refine .inr (.inr ⟨h1, h2, ?_⟩)
      cases hb : body s.regs with
      | done r out => rw [hb] at h; simp [finish] at h; exact .inr ⟨r, out, rfl, h.symm⟩
      | raised e info => rw [hb] at h; simp at h; exact .inl ⟨e, info, rfl, h.symm⟩
      | stuck f => rw [hb] at h; simp at h
    · rename_i h1 h2
      simp at h
      exact .inr (.inl ⟨h1, h2, h.symm⟩)

/-! ### The counters -/

/-- One increment adds one to the counter of its symbol and leaves every other alone (R100). -/
theorem counter_bump (cnt : Vector Word32 256) (b c : Byte) :
    counter (bump cnt b) c = if b = c then counter cnt c + 1 else counter cnt c := by
  unfold counter bump
  rw [Vector.getElem_set]
  by_cases h : b = c
  · subst h; simp [counter]
  · have : b.toNat ≠ c.toNat := fun e => h (BitVec.eq_of_toNat_eq e)
    simp [h, this]

/-- After the lanes of a command each counter has grown by the lanes that carry its symbol (R100:
"equivalently, for every symbol s, CNT[s] increases by m(s)"). -/
theorem counter_foldl_bump (lanes : List Byte) (cnt : Vector Word32 256) (c : Byte) :
    counter (lanes.foldl bump cnt) c = counter cnt c + BitVec.ofNat 32 (lanes.count c) := by
  induction lanes generalizing cnt with
  | nil => simp
  | cons b bs ih =>
    rw [List.foldl_cons, ih, counter_bump, List.count_cons]
    by_cases h : b = c
    · subst h
      simp only [beq_self_eq_true, if_true]
      rw [BitVec.ofNat_add, BitVec.add_assoc, BitVec.add_comm (BitVec.ofNat 32 (bs.count b))]
      rfl
    · simp [h]

/-- Two counter arrays with the same counters are equal. -/
theorem counters_ext {a b : Vector Word32 256} (h : ∀ c, counter a c = counter b c) : a = b := by
  apply Vector.ext
  intro i hi
  have := h (BitVec.ofNat 8 i)
  simp only [counter, BitVec.toNat_ofNat] at this
  simpa [Nat.mod_eq_of_lt hi] using this

@[simp] theorem counter_reset (b : Byte) : counter Regs.reset.cnt b = 0 := by
  simp [counter, Regs.reset]

/-! ### Symbols -/

@[simp] theorem length_allSymbols : allSymbols.length = 256 := by simp [allSymbols]

theorem mem_allSymbols (b : Byte) : b ∈ allSymbols := by
  simp only [allSymbols, List.mem_map, List.mem_range]
  exact ⟨b.toNat, b.isLt, by simp⟩

theorem nodup_allSymbols : allSymbols.Nodup := by
  unfold allSymbols
  refine List.Nodup.map_on ?_ List.nodup_range
  intro x hx y hy h
  have := congrArg BitVec.toNat h
  simp only [List.mem_range] at hx hy
  simpa [Nat.mod_eq_of_lt hx, Nat.mod_eq_of_lt hy] using this

/-! ### Bytes of a 32-bit register -/

/-- Byte `k` as a number (R62). -/
theorem byteOf_eq_ofNat (k : Nat) (v : Word32) : byteOf k v = BitVec.ofNat 8 (v.toNat / 2 ^ (8 * k)) := by
  apply BitVec.eq_of_toNat_eq
  simp [byteOf, BitVec.extractLsb'_toNat, Nat.shiftRight_eq_div_pow]

/-- Replacing byte `k` of a register replaces that byte and no other (R167). -/
theorem byteOf_setByte (j k : Nat) (hj : j < 4) (hk : k < 4) (b : Byte) (v : Word32) :
    byteOf j (setByte k b v) = if j = k then b else byteOf j v := by
  have hj' : j = 0 ∨ j = 1 ∨ j = 2 ∨ j = 3 := by omega
  have hk' : k = 0 ∨ k = 1 ∨ k = 2 ∨ k = 3 := by omega
  apply BitVec.eq_of_getLsbD_eq
  intro i hi
  have hi' : i = 0 ∨ i = 1 ∨ i = 2 ∨ i = 3 ∨ i = 4 ∨ i = 5 ∨ i = 6 ∨ i = 7 := by omega
  rcases hj' with rfl | rfl | rfl | rfl <;> rcases hk' with rfl | rfl | rfl | rfl <;>
    rcases hi' with rfl | rfl | rfl | rfl | rfl | rfl | rfl | rfl <;>
    simp [byteOf, setByte, zext32]

/-- A register is its four bytes. -/
theorem word_eq_of_bytes {v w : Word32} (h : ∀ k, k < 4 → byteOf k v = byteOf k w) : v = w := by
  apply BitVec.eq_of_getLsbD_eq
  intro i hi
  have := congrArg (fun x : Byte => x.getLsbD (i % 8)) (h (i / 8) (by omega))
  simp only [byteOf, BitVec.getLsbD_extractLsb'] at this
  have h8 : i % 8 < 8 := Nat.mod_lt _ (by omega)
  have he : 8 * (i / 8) + i % 8 = i := Nat.div_add_mod i 8
  simpa [h8, he] using this

end Sys2Proof.Machine
end

