-- ==== Sys2Proof/Laws/Exec.lean ====
section
/-!
SUPPORT. Every command but NOP and CLEAR runs in the one frame `runCommand`: its opcode, its legal
phases, its own rule. What the rules of the shorter commands can answer.
-/

namespace Sys2Proof.Machine

open Sys2Proof.Safety

/-- A command's own rule. NOP and CLEAR, which have none, stand for "nothing". -/
def bodyOf : Instr → Regs → CmdResult
  | .nop, r | .clear, r => .done r []
  | .count1 b0, r => countBody [b0] r
  | .count2 b0 b1, r => countBody [b0, b1] r
  | .count3 b0 b1 b2, r => countBody [b0, b1, b2] r
  | .count4 b0 b1 b2 b3, r => countBody [b0, b1, b2, b3] r
  | .ftbuild, r => ftbuildBody r
  | .tree, r => treeBody r
  | .codegen, r => codegenBody r
  | .pack b, r => packBody b r
  | .packEnd, r => packEndBody r
  | .hdrWr, r => hdrWrBody r
  | .hdrRd b, r => hdrRdBody b r
  | .unpack b, r => unpackBody b r
  | .eof, r => eofBody r

/-- Every command but NOP and CLEAR is its rule in the shared frame (R91). -/
theorem exec_eq_runCommand {i : Instr} (hn : i ≠ .nop) (hc : i ≠ .clear) (s : State) :
    exec i s = runCommand i.opcode (legalPhases i) (bodyOf i) s := by
  cases i <;> first | rfl | contradiction

@[simp] theorem exec_nop (s : State) : exec .nop s = .next s := rfl

@[simp] theorem exec_clear (s : State) : exec .clear s = .next { s with regs := Regs.reset } := rfl

/-- A COUNT.n is the common rule on its lanes (R100). -/
theorem bodyOf_count {i : Instr} (h : isCount i = true) (r : Regs) :
    bodyOf i r = countBody (countLanes i) r := by
  cases i <;> first | rfl | (simp [isCount, countLanes] at h)

theorem legalPhases_count {i : Instr} (h : isCount i = true) :
    legalPhases i = [.idle, .counting] := by
  cases i <;> first | rfl | (simp [isCount, countLanes] at h)

/-- In a listed phase a command is its own rule. -/
theorem exec_legal {i : Instr} (hn : i ≠ .nop) (hc : i ≠ .clear) {s : State}
    (he : s.regs.phase ≠ .error) (hl : s.regs.phase ∈ legalPhases i) :
    exec i s = finish s (bodyOf i s.regs) := by
  rw [exec_eq_runCommand hn hc, runCommand_legal he hl]

/-- In ERROR every command but CLEAR is dropped (R229). -/
theorem exec_error {i : Instr} (hc : i ≠ .clear) {s : State} (he : s.regs.phase = .error) :
    exec i s = .next s := by
  by_cases hn : i = .nop
  · subst hn; rfl
  · rw [exec_eq_runCommand hn hc, runCommand_error he]

/-- In a phase that is not listed a command raises SEQUENCE (R213). -/
theorem exec_sequence {i : Instr} {s : State} (he : s.regs.phase ≠ .error)
    (hl : s.regs.phase ∉ legalPhases i) :
    exec i s = .next (errorEntry s .sequence (zext32 i.opcode)) := by
  have all : s.regs.phase ∈ allPhases := by cases s.regs.phase <;> decide
  have hn : i ≠ .nop := by rintro rfl; exact hl all
  have hc : i ≠ .clear := by rintro rfl; exact hl all
  rw [exec_eq_runCommand hn hc, runCommand_illegal he hl]

/-- Everything a command can answer with a next state. -/
theorem exec_cases {i : Instr} {s t : State} (h : exec i s = .next t) :
    (i = .clear ∧ t = { s with regs := Regs.reset }) ∨
    (i ≠ .clear ∧ (i = .nop ∨ s.regs.phase = .error) ∧ t = s) ∨
    (s.regs.phase ≠ .error ∧ s.regs.phase ∉ legalPhases i ∧
      t = errorEntry s .sequence (zext32 i.opcode)) ∨
    (i ≠ .nop ∧ i ≠ .clear ∧ s.regs.phase ≠ .error ∧ s.regs.phase ∈ legalPhases i ∧
      ((∃ e info, bodyOf i s.regs = .raised e info ∧ t = errorEntry s e info) ∨
       (∃ r out, bodyOf i s.regs = .done r out ∧ t = emit { s with regs := r } out))) := by
  by_cases hc : i = .clear
  · subst hc; simp at h; exact .inl ⟨rfl, h.symm⟩
  by_cases hn : i = .nop
  · subst hn; simp at h; exact .inr (.inl ⟨hc, .inl rfl, h.symm⟩)
  rw [exec_eq_runCommand hn hc] at h
  rcases runCommand_cases h with ⟨he, rfl⟩ | ⟨he, hl, rfl⟩ | ⟨he, hl, h⟩
  · exact .inr (.inl ⟨hc, .inr he, rfl⟩)
  · exact .inr (.inr (.inl ⟨he, hl, rfl⟩))
  · exact .inr (.inr (.inr ⟨hn, hc, he, hl, h⟩))

/-- No command's rule runs in ERROR. -/
theorem error_not_legal {i : Instr} (hn : i ≠ .nop) (hc : i ≠ .clear) :
    Phase.error ∉ legalPhases i := by
  cases i <;> first | contradiction | simp [legalPhases]

/-! ### The words -/

/-- WellFormed's check and the opcode map agree on the format of each opcode. -/
theorem formatOf_eq (op : Byte) : formatOf op = (mnemonicOf op).map Mnemonic.format := by
  revert op; decide

/-- A word that is not legal is none of the commands' (R86). -/
theorem decode_of_not_legal {w : CmdWord} (h : wordLegal w = false) : ∃ e, decode w = .error e := by
  unfold wordLegal at h
  unfold decode decodeFields
  rw [formatOf_eq] at h
  cases hm : mnemonicOf (opOf w) with
  | none => exact ⟨_, rfl⟩
  | some m =>
    rw [hm] at h
    simp only [Option.map] at h
    simp only [h]
    exact ⟨_, rfl⟩

/-- A word that is no command raises ILLEGAL_CMD, or is dropped in ERROR (R91, steps 2 and 3). -/
theorem issueWord_illegal {w : CmdWord} (h : wordLegal w = false) (s : State) :
    issueWord w s = if s.regs.phase = .error then .next s
      else .next (errorEntry s .illegalCmd (zext32 (opOf w))) := by
  obtain ⟨e, he⟩ := decode_of_not_legal h
  simp [issueWord, he]

theorem issueWord_ok {w : CmdWord} {i : Instr} (h : decode w = .ok i) (s : State) :
    issueWord w s = exec i s := by
  simp [issueWord, h]

/-! ### The rules of the single commands -/

theorem hdrRdBody_cases (b : Byte) (r : Regs) :
    (r.hpos.toNat < 3 ∧ Config.magic[r.hpos.toNat]? ≠ some b ∧
      hdrRdBody b r = .raised .formatMagic (BitVec.ofNat 32 r.hpos.toNat)) ∨
    ((r.hpos.toNat < 3 → Config.magic[r.hpos.toNat]? = some b) ∧
      hdrRdBody b r = .done (advanceHeader r.hpos.toNat (storeHeaderByte r.hpos.toNat b r)) []) := by
  unfold hdrRdBody
  by_cases h : r.hpos.toNat < 3 ∧ Config.magic[r.hpos.toNat]? ≠ some b
  · exact .inl ⟨h.1, h.2, by simp [h]⟩
  · refine .inr ⟨?_, by simp only [if_neg h]⟩
    intro h3
    by_contra hne
    exact h ⟨h3, hne⟩

/-- The elements a header byte can write (R167): BITLEN, HDRSIZE, HSYM, HCODE and CT; the others
stay. -/
theorem storeHeaderByte_frame (p : Nat) (b : Byte) (r : Regs) :
    storeHeaderByte p b r = { r with
      bitlen := (storeHeaderByte p b r).bitlen, hdrsize := (storeHeaderByte p b r).hdrsize,
      hsym := (storeHeaderByte p b r).hsym, hcode := (storeHeaderByte p b r).hcode,
      ct := (storeHeaderByte p b r).ct } := by
  unfold storeHeaderByte
  by_cases h3 : p < 3
  · simp only [if_pos h3]
  by_cases h6 : p ≤ 6
  · simp only [if_neg h3, if_pos h6]
  by_cases h7 : p = 7
  · simp only [if_neg h3, if_neg h6, if_pos h7]
  by_cases hf : (p - 8) % 6 = 0
  · simp only [if_neg h3, if_neg h6, if_neg h7, if_pos hf]
  by_cases hg : (p - 8) % 6 ≤ 4
  · simp only [if_neg h3, if_neg h6, if_neg h7, if_neg hf, if_pos hg]
  · simp only [if_neg h3, if_neg h6, if_neg h7, if_neg hf, if_neg hg]

/-- One bit of the unpacker writes UACC, UCNT and UCONS and nothing else (R186). -/
theorem takeBit_frame (x : Bool) (r : Regs) :
    (takeBit x r).1 = { r with
      uacc := (takeBit x r).1.uacc, ucnt := (takeBit x r).1.ucnt, ucons := r.ucons + 1 } := by
  unfold takeBit
  simp only
  split <;> rfl

/-- UNPACK's rule writes UACC, UCNT and UCONS and nothing else (R185). -/
theorem takeBits_frame {xs : List Bool} {r r' : Regs} {out : List Byte}
    (h : takeBits xs r = .done r' out) :
    r' = { r with uacc := r'.uacc, ucnt := r'.ucnt, ucons := r'.ucons } := by
  induction xs generalizing r r' out with
  | nil => simp [takeBits] at h; rw [← h.1]
  | cons x xs ih =>
    unfold takeBits at h
    split at h
    · simp at h; rw [← h.1]
    · split at h
      · cases h
      · simp only at h
        cases ht : takeBits xs (takeBit x r).1 with
        | done r2 out2 =>
          rw [ht] at h
          simp at h
          obtain ⟨rfl, -⟩ := h
          rw [ih ht, takeBit_frame]
        | raised e info => rw [ht] at h; cases h
        | stuck f => rw [ht] at h; cases h

/-- UNPACK's rule raises no error but FORMAT_NOCODE, and never stops (R185). -/
theorem takeBits_total (xs : List Bool) (r : Regs) :
    (∃ r' out, takeBits xs r = .done r' out) ∨ (∃ info, takeBits xs r = .raised .formatNocode info) := by
  induction xs generalizing r with
  | nil => exact .inl ⟨_, _, rfl⟩
  | cons x xs ih =>
    unfold takeBits
    split
    · exact .inl ⟨_, _, rfl⟩
    · split
      · exact .inr ⟨_, rfl⟩
      · rcases ih (takeBit x r).1 with ⟨r', out, h⟩ | ⟨info, h⟩
        · simp only [h]; exact .inl ⟨_, _, rfl⟩
        · simp only [h]; exact .inr ⟨_, rfl⟩

/-- PACK's rule: NOSYM, CAP_BITLEN, or the code appended (R150). -/
theorem packBody_cases (b : Byte) (r : Regs) :
    (lookupSym r.ct b = none ∧ packBody b r = .raised .nosym (zext32 b)) ∨
    (∃ e, lookupSym r.ct b = some e ∧ r.bitlen.toNat + e.len.toNat > Config.maxWord ∧
      packBody b r = .raised .capBitlen r.bitlen) ∨
    (∃ e, lookupSym r.ct b = some e ∧ r.bitlen.toNat + e.len.toNat ≤ Config.maxWord ∧
      packBody b r = .done
        { r with
          pacc := BitVec.ofNat 7 (drainBits (r.pcnt.toNat + e.len.toNat)
            ((r.pacc.toNat <<< e.len.toNat) ||| e.code.toNat) (r.pcnt.toNat + e.len.toNat)).2.1
          pcnt := BitVec.ofNat 3 (drainBits (r.pcnt.toNat + e.len.toNat)
            ((r.pacc.toNat <<< e.len.toNat) ||| e.code.toNat) (r.pcnt.toNat + e.len.toNat)).2.2
          bitlen := r.bitlen + BitVec.ofNat 32 e.len.toNat
          phase := .packing }
        (drainBits (r.pcnt.toNat + e.len.toNat)
          ((r.pacc.toNat <<< e.len.toNat) ||| e.code.toNat) (r.pcnt.toNat + e.len.toNat)).1) := by
  unfold packBody
  cases h : lookupSym r.ct b with
  | none => exact .inl ⟨rfl, rfl⟩
  | some e =>
    by_cases hb : r.bitlen.toNat + e.len.toNat > Config.maxWord
    · exact .inr (.inl ⟨e, rfl, hb, by simp only [if_pos hb]⟩)
    · exact .inr (.inr ⟨e, rfl, by omega, by simp only [if_neg hb]⟩)

/-- EOF's rule (R190). -/
theorem eofBody_cases (r : Regs) :
    ((r.phase = .idle ∨ r.phase = .hdrParse) ∧ eofBody r = .raised .formatTruncHeader (zext32 r.hpos)) ∨
    (r.phase ≠ .idle ∧ r.phase ≠ .hdrParse ∧ r.ucons.toNat < r.bitlen.toNat ∧
      eofBody r = .raised .formatTruncPayload r.ucons) ∨
    (r.phase ≠ .idle ∧ r.phase ≠ .hdrParse ∧ r.bitlen.toNat ≤ r.ucons.toNat ∧
      eofBody r = .done { r with phase := .decDone } []) := by
  unfold eofBody
  by_cases h : r.phase = .idle ∨ r.phase = .hdrParse
  · exact .inl ⟨h, by simp only [if_pos h]⟩
  · rw [if_neg h]
    rw [not_or] at h
    by_cases hb : r.ucons.toNat < r.bitlen.toNat
    · exact .inr (.inl ⟨h.1, h.2, hb, by rw [if_pos hb]⟩)
    · exact .inr (.inr ⟨h.1, h.2, by omega, by rw [if_neg hb]⟩)

/-- CODEGEN's rule (R135). -/
theorem codegenBody_cases (r : Regs) :
    (Config.maxTuples < r.ft.length ∧
      codegenBody r = .raised .capAlphabet (BitVec.ofNat 32 r.ft.length)) ∨
    (r.ft.length ≤ Config.maxTuples ∧
      ((∃ t, codeTable r.ft.length r.node r.root = .ok t ∧
          codegenBody r = .done { r with ct := t, phase := .tableReady } []) ∨
       (∃ sym, codeTable r.ft.length r.node r.root = .error (.tooDeep sym) ∧
          codegenBody r = .raised .capCodelen (zext32 sym)) ∨
       (codeTable r.ft.length r.node r.root = .error .noTree ∧
          codegenBody r = .stuck .brokenTree))) := by
  unfold codegenBody
  by_cases h : r.ft.length > Config.maxTuples
  · exact .inl ⟨h, by rw [if_pos h]⟩
  · refine .inr ⟨by omega, ?_⟩
    rw [if_neg h]
    cases hc : codeTable r.ft.length r.node r.root with
    | ok t => exact .inl ⟨t, rfl, rfl⟩
    | error e =>
      cases e with
      | tooDeep sym => exact .inr (.inl ⟨sym, rfl, rfl⟩)
      | noTree => exact .inr (.inr ⟨rfl, rfl⟩)

/-- COUNT's rule (R100). -/
theorem countBody_cases (lanes : List Byte) (r : Regs) :
    (r.total.toNat + lanes.length > Config.maxWord ∧ countBody lanes r = .raised .capCount r.total) ∨
    (r.total.toNat + lanes.length ≤ Config.maxWord ∧
      countBody lanes r = .done
        { r with
          cnt := lanes.foldl bump r.cnt
          total := r.total + BitVec.ofNat 32 lanes.length
          phase := .counting } []) := by
  unfold countBody
  by_cases h : r.total.toNat + lanes.length > Config.maxWord
  · exact .inl ⟨h, by rw [if_pos h]⟩
  · exact .inr ⟨by omega, by rw [if_neg h]⟩

end Sys2Proof.Machine
end

