-- ==== Sys2Proof/Laws/Analyzer.lean ====
section
/-!
SUPPORT. The Frequency Analyzer: a run of COUNT commands (R100, R105), and what FTBUILD's sort
gives (R106, R107).
-/

namespace Sys2Proof.Machine

open Sys2Proof.Safety

/-! ### Counting -/

/-- In IDLE and COUNTING a COUNT.n is the common rule on its lanes. -/
theorem exec_count {i : Instr} (h : isCount i = true) {s : State}
    (hp : s.regs.phase = .idle ∨ s.regs.phase = .counting) :
    exec i s = finish s (countBody (countLanes i) s.regs) := by
  rw [exec_legal _ _ _ _, bodyOf_count h]
  · rintro rfl; simp [isCount, countLanes] at h
  · rintro rfl; simp [isCount, countLanes] at h
  · rcases hp with hp | hp <;> simp [hp]
  · rw [legalPhases_count h]; simpa using hp

/-- The counters do not depend on the order of the symbols. -/
theorem foldl_bump_perm {a b : List Byte} (h : a.Perm b) (c : Vector Word32 256) :
    a.foldl bump c = b.foldl bump c := by
  apply counters_ext
  intro x
  rw [counter_foldl_bump, counter_foldl_bump, h.count_eq]

/-- A run of COUNT commands with room in TOTAL counts the symbols of all its lanes. -/
theorem run_counts (cs : List Instr) (s : State) (h : ∀ i ∈ cs, isCount i = true)
    (hp : s.regs.phase = .idle ∨ s.regs.phase = .counting)
    (hr : s.regs.total.toNat + (cs.flatMap countLanes).length ≤ 4294967295) :
    runInstrs cs s = .next { s with regs := { s.regs with
        cnt := (cs.flatMap countLanes).foldl bump s.regs.cnt
        total := s.regs.total + BitVec.ofNat 32 (cs.flatMap countLanes).length
        phase := if cs = [] then s.regs.phase else .counting } } := by
  induction cs generalizing s with
  | nil => simp [runInstrs]
  | cons i cs ih =>
    have hi := h i (by simp)
    simp only [List.flatMap_cons, List.length_append] at hr
    simp only [runInstrs]
    rw [exec_count hi hp]
    rcases countBody_cases (countLanes i) s.regs with ⟨h', _⟩ | ⟨_, h'⟩
    · simp only [Config.maxWord] at h'; omega
    · rw [h', finish_done_nil _ _ (by rfl)]
      simp only
      rw [ih _ (fun x hx => h x (by simp [hx])) (.inr rfl)]
      · simp [BitVec.add_assoc, BitVec.ofNat_add]
      · simp only [BitVec.toNat_add, BitVec.toNat_ofNat]; omega

theorem countsOf_isCount (S : List Byte) : ∀ i ∈ countsOf S, isCount i = true := by
  fun_induction countsOf S <;> simp_all [isCount, countLanes]

/-- `COUNTS S` carries the symbols of `S` in order (R90). -/
theorem countsOf_lanes (S : List Byte) : (countsOf S).flatMap countLanes = S := by
  fun_induction countsOf S <;> simp_all [countLanes]

/-! ### The sort -/

theorem perm_insertFt (e : FtEntry) (l : List FtEntry) : (insertFt e l).Perm (e :: l) := by
  induction l with
  | nil => simp [insertFt]
  | cons f fs ih =>
    unfold insertFt
    split
    · exact .refl _
    · exact (ih.cons f).trans (.swap ..)

theorem perm_sortFt (l : List FtEntry) : (sortFt l).Perm l := by
  induction l with
  | nil => simp [sortFt]
  | cons f fs ih => exact (perm_insertFt f _).trans (ih.cons f)

/-- The order of the Frequency Table as a proposition (R106). -/
abbrev FtOrder (a b : FtEntry) : Prop :=
  b.cnt.toNat < a.cnt.toNat ∨ (a.cnt = b.cnt ∧ a.sym.toNat < b.sym.toNat)

theorem before_iff (a b : FtEntry) : a.before b = true ↔ FtOrder a b := by
  simp [FtEntry.before, FtOrder]

theorem FtOrder.trans {a b c : FtEntry} (h1 : FtOrder a b) (h2 : FtOrder b c) : FtOrder a c := by
  unfold FtOrder at *
  rcases h1 with h1 | ⟨h1, h1'⟩ <;> rcases h2 with h2 | ⟨h2, h2'⟩
  · left; omega
  · left; rw [← h2]; exact h1
  · left; rw [h1]; exact h2
  · right; exact ⟨h1.trans h2, by omega⟩

theorem FtOrder.total {a b : FtEntry} (h : a.sym ≠ b.sym) (hn : ¬FtOrder a b) : FtOrder b a := by
  unfold FtOrder at *
  have hs : a.sym.toNat ≠ b.sym.toNat := fun e => h (BitVec.eq_of_toNat_eq e)
  by_cases hc : a.cnt = b.cnt
  · right
    refine ⟨hc.symm, ?_⟩
    have : ¬a.sym.toNat < b.sym.toNat := fun e => hn (.inr ⟨hc, e⟩)
    omega
  · left
    have h1 : a.cnt.toNat ≠ b.cnt.toNat := fun e => hc (BitVec.eq_of_toNat_eq e)
    have : ¬b.cnt.toNat < a.cnt.toNat := fun e => hn (.inl e)
    omega

theorem sorted_insertFt {e : FtEntry} {l : List FtEntry} (hs : l.Pairwise FtOrder)
    (hd : ∀ x ∈ l, x.sym ≠ e.sym) : (insertFt e l).Pairwise FtOrder := by
  induction l with
  | nil => simp [insertFt]
  | cons f fs ih =>
    have hs' := List.pairwise_cons.1 hs
    unfold insertFt
    split
    · rename_i h
      rw [before_iff] at h
      refine List.pairwise_cons.2 ⟨?_, hs⟩
      intro x hx
      rcases List.mem_cons.1 hx with rfl | hx
      · exact h
      · exact h.trans (hs'.1 x hx)
    · rename_i h
      rw [before_iff] at h
      refine List.pairwise_cons.2 ⟨?_, ih hs'.2 fun x hx => hd x (by simp [hx])⟩
      intro x hx
      rw [(perm_insertFt e fs).mem_iff] at hx
      rcases List.mem_cons.1 hx with rfl | hx
      · exact FtOrder.total (hd f (by simp)).symm h
      · exact hs'.1 x hx

theorem sorted_sortFt {l : List FtEntry} (hd : (l.map (·.sym)).Nodup) :
    (sortFt l).Pairwise FtOrder := by
  induction l with
  | nil => simp [sortFt]
  | cons e es ih =>
    simp only [List.map_cons, List.nodup_cons, List.mem_map, not_exists, not_and] at hd
    refine sorted_insertFt (ih hd.2) ?_
    intro x hx h
    exact hd.1 x ((perm_sortFt es).mem_iff.1 hx) h

theorem nodup_occurring (c : Vector Word32 256) : ((occurring c).map (·.sym)).Nodup := by
  simp only [occurring, List.map_map, Function.comp_def, List.map_id']
  exact nodup_allSymbols.filter _

theorem mem_occurring (cnt : Vector Word32 256) (e : FtEntry) :
    e ∈ occurring cnt ↔ e.cnt = counter cnt e.sym ∧ 1 ≤ e.cnt.toNat := by
  simp only [occurring, List.mem_map, List.mem_filter, mem_allSymbols, true_and, decide_eq_true_eq]
  constructor
  · rintro ⟨b, h, rfl⟩; exact ⟨rfl, h⟩
  · rintro ⟨h1, h2⟩; exact ⟨e.sym, by rw [← h1]; exact h2, by rw [← h1]⟩

/-! ### The Frequency Table -/

theorem perm_buildFt (cnt : Vector Word32 256) : (buildFt cnt).Perm (occurring cnt) := perm_sortFt _

theorem mem_buildFt (cnt : Vector Word32 256) (e : FtEntry) :
    e ∈ buildFt cnt ↔ e.cnt = counter cnt e.sym ∧ 1 ≤ e.cnt.toNat := by
  rw [(perm_buildFt cnt).mem_iff, mem_occurring]

theorem sorted_buildFt (cnt : Vector Word32 256) : (buildFt cnt).Pairwise FtOrder :=
  sorted_sortFt (nodup_occurring cnt)

theorem nodup_buildFt (cnt : Vector Word32 256) : ((buildFt cnt).map (·.sym)).Nodup :=
  ((perm_buildFt cnt).map _).nodup_iff.2 (nodup_occurring cnt)

theorem descending_buildFt (cnt : Vector Word32 256) :
    (buildFt cnt).Pairwise fun a b => b.cnt.toNat ≤ a.cnt.toNat := by
  refine (sorted_buildFt cnt).imp ?_
  rintro a b (h | ⟨h, _⟩)
  · omega
  · rw [h]

theorem length_buildFt (cnt : Vector Word32 256) : (buildFt cnt).length = distinctSyms cnt := by
  rw [(perm_buildFt cnt).length_eq]
  simp [occurring, distinctSyms]

theorem length_buildFt_le (cnt : Vector Word32 256) : (buildFt cnt).length ≤ 256 := by
  rw [length_buildFt, distinctSyms, ← length_allSymbols]
  exact List.length_filter_le _ _

/-- FT's counts sum to the counters' sum (R43). -/
theorem sumFt_buildFt (cnt : Vector Word32 256) : sumFt (buildFt cnt) = sumCnt cnt := by
  have h1 : sumFt (buildFt cnt) = sumFt (occurring cnt) := ((perm_buildFt cnt).map _).sum_eq
  rw [h1, sumFt, occurring, sumCnt]
  generalize allSymbols = l
  induction l with
  | nil => rfl
  | cons b l ih =>
    by_cases h : 1 ≤ (counter cnt b).toNat
    · simp only [List.filter_cons, h, decide_true, if_true, List.map_cons, List.sum_cons, ih]
    · simp only [List.filter_cons, h, decide_false, List.map_cons, List.sum_cons, ← ih]
      simp
      omega

end Sys2Proof.Machine
end

