-- ==== Sys2Proof/Laws/Frames.lean ====
section
/-!
SUPPORT. What the commands' rules leave alone and where they leave PHASE, which errors they raise,
what an issued word answers, and that a command's effect is a function of the record alone.
-/

namespace Sys2Proof.Machine

open Sys2Proof.Safety

/-- A command's own rule raises the errors of its row of R211 and neither of the protocol's. -/
theorem bodyOf_raised {i : Instr} {r : Regs} {e : ErrorCode} {info : Word32}
    (h : bodyOf i r = .raised e info) :
    e ≠ .noError ∧ e ≠ .illegalCmd ∧ e ≠ .sequence ∧ e ∈ errorsOf i := by
  have hcount : ∀ l, countBody l r = .raised e info → e = .capCount := by
    intro l h
    rcases countBody_cases l r with ⟨_, h'⟩ | ⟨_, h'⟩ <;> rw [h'] at h <;> cases h
    rfl
  cases i <;> simp only [bodyOf] at h
  case count1 => rw [hcount _ h]; simp [errorsOf]
  case count2 => rw [hcount _ h]; simp [errorsOf]
  case count3 => rw [hcount _ h]; simp [errorsOf]
  case count4 => rw [hcount _ h]; simp [errorsOf]
  case codegen =>
    rcases codegenBody_cases r with ⟨_, h'⟩ | ⟨_, ⟨t, _, h'⟩ | ⟨sym, _, h'⟩ | ⟨_, h'⟩⟩ <;>
      rw [h'] at h <;> cases h <;> simp [errorsOf]
  case pack b =>
    rcases packBody_cases b r with ⟨_, h'⟩ | ⟨e, _, _, h'⟩ | ⟨e, _, _, h'⟩ <;>
      rw [h'] at h <;> cases h <;> simp [errorsOf]
  case hdrRd b =>
    rcases hdrRdBody_cases b r with ⟨_, _, h'⟩ | ⟨_, h'⟩ <;> rw [h'] at h <;> cases h
    simp [errorsOf]
  case unpack b =>
    rcases takeBits_total (bitsMsb b) r with ⟨r', out, h'⟩ | ⟨_, h'⟩ <;>
      rw [unpackBody, h'] at h <;> cases h
    simp [errorsOf]
  case eof =>
    rcases eofBody_cases r with ⟨_, h'⟩ | ⟨_, _, _, h'⟩ | ⟨_, _, _, h'⟩ <;>
      rw [h'] at h <;> cases h <;> simp [errorsOf]
  all_goals cases h

/-- What a command's own rule leaves alone (R20's column of writers), and where it leaves PHASE
(R92). -/
theorem bodyOf_done {i : Instr} {r r' : Regs} {out : List Byte} (h : bodyOf i r = .done r' out) :
    r'.outcnt = r.outcnt ∧ r'.err = r.err ∧ r'.errInfo = r.errInfo ∧ r'.ephase = r.ephase ∧
    (isCount i = false → r'.cnt = r.cnt ∧ r'.total = r.total) ∧
    (i ≠ .ftbuild → r'.ft = r.ft) ∧
    (i ≠ .tree → r'.node = r.node ∧ r'.root = r.root) ∧
    (i ≠ .codegen → (∀ b, i ≠ .hdrRd b) → r'.ct = r.ct) ∧
    ((∀ b, i ≠ .pack b) → (∀ b, i ≠ .hdrRd b) → r'.bitlen = r.bitlen) ∧
    (i ≠ .hdrWr → (∀ b, i ≠ .hdrRd b) → r'.hdrsize = r.hdrsize) ∧
    ((∀ b, i ≠ .pack b) → i ≠ .packEnd → r'.pacc = r.pacc ∧ r'.pcnt = r.pcnt) ∧
    ((∀ b, i ≠ .unpack b) → r'.uacc = r.uacc ∧ r'.ucnt = r.ucnt ∧ r'.ucons = r.ucons) ∧
    ((∀ b, i ≠ .hdrRd b) → r'.hpos = r.hpos ∧ r'.hsym = r.hsym ∧ r'.hcode = r.hcode) ∧
    (i ≠ .nop → i ≠ .clear → r.phase ∈ legalPhases i → r'.phase ∈ targetPhases i r.phase) := by
  have hcount : ∀ l, countBody l r = .done r' out →
      r' = { r with cnt := r'.cnt, total := r'.total, phase := .counting } := by
    intro l h
    rcases countBody_cases l r with ⟨_, h'⟩ | ⟨_, h'⟩ <;> rw [h'] at h <;> cases h
    rfl
  cases i <;> simp only [bodyOf] at h
  case count1 => rw [hcount _ h]; simp [isCount, countLanes, targetPhases]
  case count2 => rw [hcount _ h]; simp [isCount, countLanes, targetPhases]
  case count3 => rw [hcount _ h]; simp [isCount, countLanes, targetPhases]
  case count4 => rw [hcount _ h]; simp [isCount, countLanes, targetPhases]
  case codegen =>
    rcases codegenBody_cases r with ⟨_, h'⟩ | ⟨_, ⟨t, _, h'⟩ | ⟨sym, _, h'⟩ | ⟨_, h'⟩⟩ <;>
      rw [h'] at h <;> cases h <;> simp [isCount, countLanes, targetPhases]
  case pack b =>
    rcases packBody_cases b r with ⟨_, h'⟩ | ⟨e, _, _, h'⟩ | ⟨e, _, _, h'⟩ <;>
      rw [h'] at h <;> cases h <;> simp [isCount, countLanes, targetPhases]
  case hdrRd b =>
    rcases hdrRdBody_cases b r with ⟨_, _, h'⟩ | ⟨_, h'⟩ <;> rw [h'] at h <;> cases h
    rw [storeHeaderByte_frame]
    simp [isCount, countLanes, targetPhases, advanceHeader]
    intro _
    by_cases h8 : 7 ≤ r.hpos.toNat ∧
        r.hpos.toNat + 1 = (storeHeaderByte r.hpos.toNat b r).hdrsize.toNat
    · exact .inr h8
    · exact .inl fun h => by simpa [h] using h8
  case unpack b =>
    rw [takeBits_frame h]
    simp [isCount, countLanes, targetPhases, legalPhases]
  case eof =>
    rcases eofBody_cases r with ⟨_, h'⟩ | ⟨_, _, _, h'⟩ | ⟨_, _, _, h'⟩ <;>
      rw [h'] at h <;> cases h <;> simp [isCount, countLanes, targetPhases]
  all_goals (cases h; simp [isCount, countLanes, targetPhases])

/-- A command appends to the output stream and touches nothing of the host's side. -/
theorem exec_stream {i : Instr} {s t : State} (h : exec i s = .next t) :
    (∃ out, t.outQ = s.outQ ++ out) ∧ t.taken = s.taken ∧ t.host = s.host ∧
      t.csrData = s.csrData := by
  rcases exec_cases h with ⟨rfl, rfl⟩ | ⟨_, _, rfl⟩ | ⟨_, _, rfl⟩ |
    ⟨_, _, _, _, ⟨e, info, _, rfl⟩ | ⟨r, out, _, rfl⟩⟩
  · exact ⟨⟨[], by simp⟩, by simp⟩
  · exact ⟨⟨[], by simp⟩, by simp⟩
  · exact ⟨⟨[], by simp⟩, by simp⟩
  · exact ⟨⟨[], by simp⟩, by simp⟩
  · exact ⟨⟨out, by simp⟩, by simp⟩

/-- The record a command leaves and the bytes it emits depend on the record alone (R45). -/
theorem exec_regs {i : Instr} {s s' t : State} (hr : s.regs = s'.regs) (h : exec i s = .next t) :
    ∃ t' out, exec i s' = .next t' ∧ t'.regs = t.regs ∧ t.outQ = s.outQ ++ out ∧
      t'.outQ = s'.outQ ++ out := by
  rcases exec_cases h with ⟨rfl, rfl⟩ | ⟨hc, h | h, rfl⟩ | ⟨he, hl, rfl⟩ |
    ⟨hn, hc, he, hl, ⟨e, info, hb, rfl⟩ | ⟨r, out, hb, rfl⟩⟩
  · exact ⟨_, [], rfl, by simp⟩
  · rename_i hh
    subst hh
    exact ⟨_, [], rfl, by simp [hr]⟩
  · rw [hr] at h; exact ⟨_, [], exec_error hc h, by simp [hr]⟩
  · rw [hr] at he hl; exact ⟨_, [], exec_sequence he hl, by simp [errorEntry, hr]⟩
  · rw [hr] at he hl hb
    exact ⟨_, [], by rw [exec_legal hn hc he hl, hb]; rfl, by simp [errorEntry, hr]⟩
  · rw [hr] at he hl hb
    exact ⟨_, out, by rw [exec_legal hn hc he hl, hb]; rfl, by simp [emit]⟩

/-- Everything an issued word can answer with a next state. -/
theorem issueWord_cases {w : CmdWord} {s t : State} (h : issueWord w s = .next t) :
    (∃ i, decode w = .ok i ∧ exec i s = .next t) ∨ (s.regs.phase = .error ∧ t = s) ∨
    (s.regs.phase ≠ .error ∧ t = errorEntry s .illegalCmd (zext32 (opOf w))) := by
  unfold issueWord at h
  split at h
  · rename_i i hi; exact .inl ⟨i, hi, h⟩
  · split at h
    · cases h; exact .inr (.inl ⟨‹_›, rfl⟩)
    · cases h; exact .inr (.inr ⟨‹_›, rfl⟩)

theorem runInstrs_cons {i : Instr} {s t : State} (h : exec i s = .next t) (is : List Instr) :
    runInstrs (i :: is) s = runInstrs is t := by
  simp only [runInstrs, h]

/-- A run of two lists is the first, then the second. -/
theorem runInstrs_append {as bs : List Instr} {s t u : State} (h1 : runInstrs as s = .next t)
    (h2 : runInstrs bs t = .next u) : runInstrs (as ++ bs) s = .next u := by
  induction as generalizing s with
  | nil => cases h1; exact h2
  | cons a as ih =>
    simp only [runInstrs, List.cons_append] at h1 ⊢
    split at h1
    · exact ih h1
    · cases h1
    · cases h1

theorem runInstrs_append_inv {as bs : List Instr} {s u : State}
    (h : runInstrs (as ++ bs) s = .next u) :
    ∃ t, runInstrs as s = .next t ∧ runInstrs bs t = .next u := by
  induction as generalizing s with
  | nil => exact ⟨s, rfl, h⟩
  | cons a as ih =>
    simp only [runInstrs, List.cons_append] at h ⊢
    split at h
    · rename_i t ht; exact ih h
    · cases h
    · cases h

end Sys2Proof.Machine
end

