-- ==== Sys2Proof/Laws/Header.lean ====
section
/-!
SUPPORT. The Container Codec: where the bytes of a header stand (R68, R165), and the parse of a
header byte by byte (R167 to R175).
-/

namespace Sys2Proof.Machine

open Sys2Proof.Safety

/-! ### The bytes of a header -/

theorem length_recordBytes (e : CtEntry) : (recordBytes e).length = 6 := rfl

theorem length_records (ct : List CtEntry) : (ct.flatMap recordBytes).length = 6 * ct.length := by
  induction ct with
  | nil => rfl
  | cons e ct ih => rw [List.flatMap_cons, List.length_append, ih, length_recordBytes, List.length_cons]; ring

theorem length_headerBytes (bitlen : Word32) (ct : List CtEntry) :
    (headerBytes bitlen ct).length = 8 + 6 * ct.length := by
  simp only [headerBytes, List.length_append, length_records]
  rfl

/-- Byte `j` of record `r`. -/
theorem getElem?_records (ct : List CtEntry) (r j : Nat) (hj : j < 6) (e : CtEntry)
    (h : ct[r]? = some e) : (ct.flatMap recordBytes)[6 * r + j]? = (recordBytes e)[j]? := by
  induction ct generalizing r with
  | nil => simp at h
  | cons a ct ih =>
    rw [List.flatMap_cons]
    cases r with
    | zero =>
      simp only [List.getElem?_cons_zero, Option.some.injEq] at h
      subst h
      rw [Nat.mul_zero, Nat.zero_add, List.getElem?_append_left (by rw [length_recordBytes]; exact hj)]
    | succ r =>
      rw [List.getElem?_append_right (by rw [length_recordBytes]; omega), length_recordBytes]
      rw [show 6 * (r + 1) + j - 6 = 6 * r + j by omega]
      exact ih r (by simpa using h)

/-- The header's fixed part, then its records. -/
theorem headerBytes_eq (bitlen : Word32) (ct : List CtEntry) :
    headerBytes bitlen ct = [0x51, 0x50, 0x4B, byteOf 0 bitlen, byteOf 1 bitlen, byteOf 2 bitlen,
      byteOf 3 bitlen, BitVec.ofNat 8 ct.length] ++ ct.flatMap recordBytes := rfl

theorem getElem?_headerBytes (bitlen : Word32) (ct : List CtEntry) (j : Nat) :
    (headerBytes bitlen ct)[8 + j]? = (ct.flatMap recordBytes)[j]? := by
  rw [headerBytes_eq, List.getElem?_append_right (by simp)]
  congr 1
  simp

/-! ### One header byte -/

/-- In IDLE and HDR_PARSE, HDR.RD is its own rule. -/
theorem exec_hdrRd {s : State} (h : s.regs.phase = .idle ∨ s.regs.phase = .hdrParse) (b : Byte) :
    exec (.hdrRd b) s = finish s (hdrRdBody b s.regs) := by
  rw [exec_legal (by simp) (by simp)]
  · rfl
  · rcases h with h | h <;> simp [h]
  · rcases h with h | h <;> simp [h, legalPhases]

theorem storeHeaderByte_outcnt (p : Nat) (b : Byte) (r : Regs) :
    (storeHeaderByte p b r).outcnt = r.outcnt := by rw [storeHeaderByte_frame]

/-- A header byte that is not a wrong magic byte is stored and HPOS advances (R167, R168). -/
theorem hdrRd_next {s : State} (h : s.regs.phase = .idle ∨ s.regs.phase = .hdrParse) {b : Byte}
    (hm : s.regs.hpos.toNat < 3 → Config.magic[s.regs.hpos.toNat]? = some b) :
    exec (.hdrRd b) s = .next { s with
      regs := advanceHeader s.regs.hpos.toNat (storeHeaderByte s.regs.hpos.toNat b s.regs) } := by
  rw [exec_hdrRd h]
  rcases hdrRdBody_cases b s.regs with ⟨h1, h2, _⟩ | ⟨_, h1⟩
  · exact absurd (hm h1) h2
  · rw [h1, finish_done_nil _ _ (by exact storeHeaderByte_outcnt _ _ _)]

theorem storeHeaderByte_bitlen {p : Nat} (h1 : 3 ≤ p) (h2 : p ≤ 6) (b : Byte) (r : Regs) :
    storeHeaderByte p b r = { r with bitlen := setByte (p - 3) b r.bitlen } := by
  unfold storeHeaderByte
  rw [if_neg (by omega), if_pos h2]

theorem storeHeaderByte_magic {p : Nat} (h1 : p < 3) (b : Byte) (r : Regs) :
    storeHeaderByte p b r = r := by
  unfold storeHeaderByte
  rw [if_pos h1]

theorem storeHeaderByte_count (b : Byte) (r : Regs) :
    storeHeaderByte 7 b r = { r with hdrsize := BitVec.ofNat 11 (headerSize b.toNat) } := rfl

theorem storeHeaderByte_sym {p : Nat} (h1 : 8 ≤ p) (h2 : (p - 8) % 6 = 0) (b : Byte) (r : Regs) :
    storeHeaderByte p b r = { r with hsym := b, hcode := 0 } := by
  unfold storeHeaderByte
  rw [if_neg (by omega), if_neg (by omega), if_neg (by omega)]
  simp only [h2, if_true]

theorem storeHeaderByte_code {p k : Nat} (h1 : 8 ≤ p) (h2 : (p - 8) % 6 = k + 1) (hk : k < 4) (b : Byte)
    (r : Regs) : storeHeaderByte p b r = { r with hcode := setByte k b r.hcode } := by
  unfold storeHeaderByte
  rw [if_neg (by omega), if_neg (by omega), if_neg (by omega)]
  simp only [h2]
  rw [if_neg (by omega), if_pos (by omega), Nat.add_sub_cancel]

theorem storeHeaderByte_len {p : Nat} (h1 : 8 ≤ p) (h2 : (p - 8) % 6 = 5) (b : Byte) (r : Regs) :
    storeHeaderByte p b r = { r with ct := r.ct ++ [⟨r.hsym, r.hcode, b⟩] } := by
  unfold storeHeaderByte
  rw [if_neg (by omega), if_neg (by omega), if_neg (by omega)]
  simp only [h2]
  rw [if_neg (by omega), if_neg (by omega)]

/-- A word written byte by byte is the word. -/
theorem setBytes_eq (v w : Word32) :
    setByte 3 (byteOf 3 w) (setByte 2 (byteOf 2 w) (setByte 1 (byteOf 1 w) (setByte 0 (byteOf 0 w) v))) =
      w := by
  apply word_eq_of_bytes
  intro k hk
  have : k = 0 ∨ k = 1 ∨ k = 2 ∨ k = 3 := by omega
  rcases this with rfl | rfl | rfl | rfl <;> simp [byteOf_setByte]

/-! ### The parse of a whole header -/

/-- The record while a header with `n` records and bit count `bitlen` is parsed, `done` of its
records being read. -/
structure Parsed (r : Regs) (bitlen : Word32) (n : Nat) (done : List CtEntry) : Prop where
  phase : r.phase = if done.length = n then .unpacking else .hdrParse
  hpos : r.hpos.toNat = 8 + 6 * done.length
  hdrsize : r.hdrsize.toNat = 8 + 6 * n
  bitlen : r.bitlen = bitlen
  ct : r.ct = done

/-- The registers HDR.RD never writes. -/
def SameElsewhere (r r' : Regs) : Prop :=
  r' = { r with phase := r'.phase, bitlen := r'.bitlen, hdrsize := r'.hdrsize, ct := r'.ct,
                hpos := r'.hpos, hsym := r'.hsym, hcode := r'.hcode }

/-- One byte that does not complete the header. -/
theorem hdrRd_inside {s : State} (hp : s.regs.phase = .idle ∨ s.regs.phase = .hdrParse) {b : Byte} {p : Nat}
    (hpos : s.regs.hpos.toNat = p) (hpl : p < 2047) (hm : p < 3 → Config.magic[p]? = some b)
    (hno : 7 ≤ p → p + 1 ≠ (storeHeaderByte p b s.regs).hdrsize.toNat) :
    exec (.hdrRd b) s = .next { s with regs := { storeHeaderByte p b s.regs with
      hpos := BitVec.ofNat 11 (p + 1), phase := .hdrParse } } := by
  rw [hdrRd_next hp (by rw [hpos]; exact hm), hpos]
  simp only [advanceHeader]
  rw [if_neg]
  rintro ⟨h1, h2⟩
  exact hno (by omega) h2

/-- One record: six bytes (R171). -/
theorem run_record {s : State} {bitlen : Word32} {n : Nat} {done : List CtEntry} (hn : n ≤ 255)
    (h : Parsed s.regs bitlen n done) (hlt : done.length < n) (e : CtEntry) :
    ∃ t, runInstrs (hdrsOf (recordBytes e)) s = .next t ∧ Parsed t.regs bitlen n (done ++ [e]) ∧
      t.outQ = s.outQ ∧ SameElsewhere s.regs t.regs := by
  obtain ⟨k, hk⟩ : ∃ k, done.length = k := ⟨_, rfl⟩
  rw [hk] at hlt
  have hph : s.regs.phase = .hdrParse := by rw [h.phase, if_neg (by omega)]
  have hpos : s.regs.hpos.toNat = 8 + 6 * k := by rw [h.hpos, hk]
  have hsz := h.hdrsize
  -- byte 0
  have x0 := hdrRd_inside (b := e.sym) (.inr hph) hpos (by omega) (by omega)
    (by intro _; rw [storeHeaderByte_sym (by omega) (by omega)]; simp only; omega)
  rw [storeHeaderByte_sym (by omega) (by omega)] at x0
  have y : ∀ (j : Nat), j ≤ 6 → (BitVec.ofNat 11 (8 + 6 * k + j)).toNat = 8 + 6 * k + j := by
    intro j hj
    simp only [BitVec.toNat_ofNat]
    omega
  have c : ∀ (j : Nat) (hj : j < 4) (s' : State), s'.regs.phase = .hdrParse →
      s'.regs.hpos = BitVec.ofNat 11 (8 + 6 * k + (j + 1)) → s'.regs.hdrsize.toNat = 8 + 6 * n →
      exec (.hdrRd (byteOf j e.code)) s' = .next { s' with regs := { s'.regs with
        hcode := setByte j (byteOf j e.code) s'.regs.hcode
        hpos := BitVec.ofNat 11 (8 + 6 * k + (j + 1) + 1), phase := .hdrParse } } := by
    intro j hj s' h1 h2 h3
    have h2' : s'.regs.hpos.toNat = 8 + 6 * k + (j + 1) := by rw [h2, y _ (by omega)]
    have := hdrRd_inside (b := byteOf j e.code) (.inr h1) h2' (by omega) (by omega)
      (by intro _; rw [storeHeaderByte_code (k := j) (by omega) (by omega) hj]; simp only; omega)
    rw [storeHeaderByte_code (k := j) (by omega) (by omega) hj] at this
    exact this
  simp only [hdrsOf, recordBytes, bytesLE, List.cons_append, List.nil_append, List.map_cons, List.map_nil]
  refine ⟨_, (runInstrs_cons x0 _).trans ((runInstrs_cons (c 0 (by omega) _ ?_ ?_ ?_) _).trans
    ((runInstrs_cons (c 1 (by omega) _ ?_ ?_ ?_) _).trans
    ((runInstrs_cons (c 2 (by omega) _ ?_ ?_ ?_) _).trans
    ((runInstrs_cons (c 3 (by omega) _ ?_ ?_ ?_) _).trans
    ((runInstrs_cons (hdrRd_next (.inr ?_) ?_) []).trans rfl))))), ?_, rfl, ?_⟩
  all_goals first | rfl | exact hsz | skip
  · simp only [y 5 (by omega)]
    omega
  · simp only [y 5 (by omega)]
    rw [storeHeaderByte_len (by omega) (by omega)]
    constructor
    · simp only [advanceHeader, hsz, List.length_append, List.length_singleton, hk]
      by_cases hkn : k + 1 = n
      · rw [if_pos hkn, if_pos (by omega)]
      · rw [if_neg hkn, if_neg (by omega)]
    · simp only [advanceHeader, List.length_append, List.length_singleton, hk]
      exact y 6 (by omega)
    · exact hsz
    · exact h.bitlen
    · simp only [advanceHeader, h.ct, setBytes_eq]
  · simp only [y 5 (by omega)]
    rw [storeHeaderByte_len (by omega) (by omega)]
    rfl

/-- The records that are left. -/
theorem run_records {bitlen : Word32} {n : Nat} (hn : n ≤ 255) (rest : List CtEntry) :
    ∀ (s : State) (done : List CtEntry), Parsed s.regs bitlen n done → done.length + rest.length = n →
      ∃ t, runInstrs (hdrsOf (rest.flatMap recordBytes)) s = .next t ∧
        Parsed t.regs bitlen n (done ++ rest) ∧ t.outQ = s.outQ ∧ SameElsewhere s.regs t.regs := by
  induction rest with
  | nil => intro s done h _; exact ⟨s, rfl, by simpa using h, rfl, rfl⟩
  | cons e rest ih =>
    intro s done h hl
    rw [List.length_cons] at hl
    obtain ⟨u, u1, u2, u3, u4⟩ := run_record hn h (by omega) e
    obtain ⟨t, t1, t2, t3, t4⟩ := ih u (done ++ [e]) u2 (by simp; omega)
    refine ⟨t, ?_, by simpa using t2, t3.trans u3, ?_⟩
    · rw [List.flatMap_cons, hdrsOf, List.map_append]
      exact runInstrs_append u1 t1
    · unfold SameElsewhere at *
      rw [t4, u4]

/-- The fixed part (R168 to R170), from a fresh record. -/
theorem run_fixed {s : State} (hs : s.regs = Regs.reset) (bitlen : Word32) (n : Nat) (hn : n ≤ 255) :
    ∃ t, runInstrs (hdrsOf [0x51, 0x50, 0x4B, byteOf 0 bitlen, byteOf 1 bitlen, byteOf 2 bitlen,
        byteOf 3 bitlen, BitVec.ofNat 8 n]) s = .next t ∧ Parsed t.regs bitlen n [] ∧
      t.outQ = s.outQ ∧ SameElsewhere Regs.reset t.regs := by
  have h0 : exec (.hdrRd 0x51) s = .next { s with regs := { Regs.reset with hpos := 1, phase := .hdrParse } } := by
    rw [hdrRd_inside (p := 0) (by rw [hs]; exact .inl rfl) (by rw [hs]; rfl) (by omega)
      (by intro; rfl) (by omega), hs]
    rfl
  have h1 : ∀ r : Regs, exec (.hdrRd 0x50) { s with regs := { r with hpos := 1, phase := .hdrParse } } =
      .next { s with regs := { r with hpos := 2, phase := .hdrParse } } := by
    intro r
    rw [hdrRd_inside (p := 1) (.inr rfl) rfl (by omega) (by intro; rfl) (by omega)]
    rfl
  have h2 : ∀ r : Regs, exec (.hdrRd 0x4B) { s with regs := { r with hpos := 2, phase := .hdrParse } } =
      .next { s with regs := { r with hpos := 3, phase := .hdrParse } } := by
    intro r
    rw [hdrRd_inside (p := 2) (.inr rfl) rfl (by omega) (by intro; rfl) (by omega)]
    rfl
  have h3 : ∀ (j : Nat) (hj : j < 4) (b : Byte) (s' : State), s'.regs.phase = .hdrParse →
      s'.regs.hpos = BitVec.ofNat 11 (3 + j) →
      exec (.hdrRd b) s' = .next { s' with regs := { s'.regs with
        bitlen := setByte j b s'.regs.bitlen, hpos := BitVec.ofNat 11 (3 + j + 1), phase := .hdrParse } } := by
    intro j hj b s' h1 h2
    have h2' : s'.regs.hpos.toNat = 3 + j := by rw [h2]; simp only [BitVec.toNat_ofNat]; omega
    have := hdrRd_inside (b := b) (.inr h1) h2' (by omega) (by omega) (by omega)
    rw [storeHeaderByte_bitlen (by omega) (by omega)] at this
    rw [show 3 + j - 3 = j by omega] at this
    exact this
  simp only [hdrsOf, List.map_cons, List.map_nil]
  have hb : (BitVec.ofNat 8 n).toNat = n := by simp; omega
  have hz : (BitVec.ofNat 11 (8 + 6 * n)).toNat = 8 + 6 * n := by simp; omega
  refine ⟨_, (runInstrs_cons h0 _).trans ((runInstrs_cons (h1 _) _).trans
    ((runInstrs_cons (h2 _) _).trans ((runInstrs_cons (h3 0 (by omega) _ _ ?_ ?_) _).trans
    ((runInstrs_cons (h3 1 (by omega) _ _ ?_ ?_) _).trans
    ((runInstrs_cons (h3 2 (by omega) _ _ ?_ ?_) _).trans
    ((runInstrs_cons (h3 3 (by omega) _ _ ?_ ?_) _).trans
    ((runInstrs_cons (hdrRd_next (.inr ?_) ?_) []).trans rfl))))))), ?_, rfl, ?_⟩
  all_goals first | rfl | skip
  · intro h
    exact absurd (show 7 < 3 from h) (by omega)
  · have h7 : (BitVec.ofNat 11 (3 + 3 + 1)).toNat = 7 := rfl
    simp only [h7, storeHeaderByte_count, headerSize, Config.hdrFix, Config.recSize, hb]
    constructor
    · simp only [advanceHeader, hz, List.length_nil]
      by_cases hn0 : 0 = n
      · rw [if_pos hn0, if_pos (by omega)]
      · rw [if_neg hn0, if_neg (by omega)]
    · rfl
    · exact hz
    · simp only [advanceHeader, setBytes_eq]
    · rfl

/-- A whole header (R175). -/
theorem run_header {s : State} (hs : s.regs = Regs.reset) (bitlen : Word32) (ct : List CtEntry)
    (hn : ct.length ≤ 255) :
    ∃ t, runInstrs (hdrsOf (headerBytes bitlen ct)) s = .next t ∧ Parsed t.regs bitlen ct.length ct ∧
      t.outQ = s.outQ ∧ SameElsewhere Regs.reset t.regs := by
  obtain ⟨u, u1, u2, u3, u4⟩ := run_fixed hs bitlen ct.length hn
  obtain ⟨t, t1, t2, t3, t4⟩ := run_records hn ct u [] u2 (by simp)
  refine ⟨t, ?_, by simpa using t2, t3.trans u3, ?_⟩
  · rw [headerBytes_eq, hdrsOf, List.map_append]
    exact runInstrs_append u1 t1
  · unfold SameElsewhere at *
    rw [t4, u4]

end Sys2Proof.Machine
end

