-- ==== Sys2Proof/Laws/Calls.lean ====
section
/-!
SUPPORT. The pseudo-command DECODE (R90): which bytes its header loop gives to HDR.RD, and where the
loop stops.
-/

namespace Sys2Proof.Machine

open Sys2Proof.Safety

/-- HDR.RD always has a next state. -/
theorem hdrRd_total (b : Byte) (s : State) : ∃ t, exec (.hdrRd b) s = .next t := by
  by_cases he : s.regs.phase = .error
  · exact ⟨s, exec_error (by simp) he⟩
  by_cases hp : s.regs.phase = .idle ∨ s.regs.phase = .hdrParse
  · rw [exec_hdrRd hp]
    rcases hdrRdBody_cases b s.regs with ⟨_, _, h⟩ | ⟨_, h⟩ <;> rw [h] <;> exact ⟨_, rfl⟩
  · exact ⟨_, exec_sequence he (by simpa [legalPhases] using hp)⟩

/-- HDR.RD outside IDLE and HDR_PARSE ends in ERROR. -/
theorem hdrRd_outside {b : Byte} {s t : State} (hp : ¬(s.regs.phase = .idle ∨ s.regs.phase = .hdrParse))
    (h : exec (.hdrRd b) s = .next t) : t.regs.phase = .error := by
  by_cases he : s.regs.phase = .error
  · rw [exec_error (by simp) he] at h
    cases h
    exact he
  · rw [exec_sequence he (by simpa [legalPhases] using hp)] at h
    cases h
    rfl

/-- HDR.RDs do not leave ERROR. -/
theorem run_hdrs_error (H : List Byte) {s : State} (he : s.regs.phase = .error) :
    runInstrs (hdrsOf H) s = .next s := by
  induction H with
  | nil => rfl
  | cons b H ih => exact (runInstrs_cons (exec_error (by simp) he) _).trans ih

theorem feedHeader_cons {b : Byte} {s t : State} (hp : s.regs.phase = .idle ∨ s.regs.phase = .hdrParse)
    (h : exec (.hdrRd b) s = .next t) (F : List Byte) : feedHeader (b :: F) s = feedHeader F t := by
  rw [feedHeader, if_pos hp, h]

/-- The header loop stops where PHASE is neither IDLE nor HDR_PARSE. -/
theorem feedHeader_outside {s : State} (hp : ¬(s.regs.phase = .idle ∨ s.regs.phase = .hdrParse))
    (F : List Byte) : feedHeader F s = .next (s, F) := by
  cases F with
  | nil => rfl
  | cons b F => rw [feedHeader, if_neg hp]

/-- Everything the header loop does: it gives the first `h` bytes to HDR.RD, each in IDLE or
HDR_PARSE, and stops before the end of the bytes only outside these two phases. -/
theorem feedHeader_spec (F : List Byte) (s : State) : ∃ h t,
    feedHeader F s = .next (t, F.drop h) ∧ h ≤ F.length ∧
    runInstrs (hdrsOf (F.take h)) s = .next t ∧
    (∀ k < h, ∃ v, runInstrs (hdrsOf (F.take k)) s = .next v ∧
      (v.regs.phase = .idle ∨ v.regs.phase = .hdrParse)) ∧
    (h < F.length → ¬(t.regs.phase = .idle ∨ t.regs.phase = .hdrParse)) := by
  induction F generalizing s with
  | nil => exact ⟨0, s, rfl, Nat.le_refl _, rfl, by simp, by simp⟩
  | cons b F ih =>
    by_cases hp : s.regs.phase = .idle ∨ s.regs.phase = .hdrParse
    · obtain ⟨u, hu⟩ := hdrRd_total b s
      obtain ⟨h, t, h1, h2, h3, h4, h5⟩ := ih u
      refine ⟨h + 1, t, (feedHeader_cons hp hu F).trans h1, by simpa using h2,
        (runInstrs_cons hu _).trans h3, ?_, fun hl => h5 (by simpa using hl)⟩
      intro k hk
      cases k with
      | zero => exact ⟨s, rfl, hp⟩
      | succ k =>
        obtain ⟨v, hv, hv'⟩ := h4 k (by omega)
        exact ⟨v, (runInstrs_cons hu _).trans hv, hv'⟩
    · exact ⟨0, s, feedHeader_outside hp _, Nat.zero_le _, rfl, by simp, fun _ => hp⟩

/-- Of a file whose first bytes `H` are a whole header, the loop takes exactly those. -/
theorem feedHeader_whole {H : List Byte} {s t : State}
    (hs : s.regs.phase = .idle ∨ s.regs.phase = .hdrParse)
    (h : runInstrs (hdrsOf H) s = .next t) (ht : t.regs.phase = .unpacking) (P : List Byte) :
    feedHeader (H ++ P) s = .next (t, P) := by
  induction H generalizing s with
  | nil => cases h; simp [ht] at hs
  | cons b H ih =>
    obtain ⟨u, hu⟩ := hdrRd_total b s
    rw [hdrsOf, List.map_cons, runInstrs_cons hu] at h
    rw [List.cons_append, feedHeader_cons hs hu]
    by_cases hp : u.regs.phase = .idle ∨ u.regs.phase = .hdrParse
    · exact ih hp h
    · cases H with
      | nil => cases h; exact feedHeader_outside hp P
      | cons c H =>
        obtain ⟨v, hv⟩ := hdrRd_total c u
        rw [List.map_cons, runInstrs_cons hv] at h
        have he := hdrRd_outside hp hv
        cases (run_hdrs_error H he).symm.trans h
        simp [he] at ht

/-- `DECODE` is CLEAR, the header loop, and the rest as PHASE tells. -/
theorem runDecode_eq {F P : List Byte} {s t : State} (h : feedHeader F (clearRegs s) = .next (t, P)) :
    runDecode F s = runInstrs (decodeTail t.regs.phase P) t := by
  simp only [runDecode, show exec .clear s = .next (clearRegs s) from rfl, h]

end Sys2Proof.Machine
end

