-- ==== Sys2Proof/Laws/Tree.lean ====
section
/-!
SUPPORT. What the merge loop of TREE keeps (R123 to R127, R130): `Forest` for the shape of the
arena and the working sequence, `Order` for the order in which nodes are taken; and the tree the
arena is, as a term of `CodeTree`.
-/

namespace Sys2Proof.Machine

open Sys2Proof.Safety

/-- A Code Tree as a term. -/
inductive CodeTree where
  | leaf (sym : Byte) (freq : Word32)
  | node (l r : CodeTree)

/-- The Frequency Table entries at the leaves, left to right. -/
def CodeTree.leaves : CodeTree → List FtEntry
  | .leaf sym f => [⟨sym, f⟩]
  | .node l r => l.leaves ++ r.leaves

/-- The sum of the leaves' frequencies. -/
def CodeTree.freq (t : CodeTree) : Nat := sumFt t.leaves

/-- Node `j` of the arena is the root of the tree `t`, every child having a smaller index than its
parent. -/
inductive Rep (nodes : List Node) : Nat → CodeTree → Prop where
  | leaf {j : Nat} {sym : Byte} {f : Word32} : nodes[j]? = some (.leaf sym f) → Rep nodes j (.leaf sym f)
  | node {j : Nat} {l r : NodeIx} {f : Word32} {tl tr : CodeTree} :
      nodes[j]? = some (.internal l r f) → l.toNat < j → r.toNat < j →
      Rep nodes l.toNat tl → Rep nodes r.toNat tr → Rep nodes j (.node tl tr)

/-- The arena grows at its end, so what is there stays. -/
theorem getElem?_snoc {nodes : List Node} {n m : Node} {j : Nat} (h : nodes[j]? = some m) :
    (nodes ++ [n])[j]? = some m := by
  rw [List.getElem?_append_left (List.getElem?_eq_some_iff.1 h).1, h]

theorem Rep.snoc {nodes : List Node} {j : Nat} {t : CodeTree} (n : Node) (h : Rep nodes j t) :
    Rep (nodes ++ [n]) j t := by
  induction h with
  | leaf h => exact .leaf (getElem?_snoc h)
  | node h hl hr _ _ ihl ihr => exact .node (getElem?_snoc h) hl hr ihl ihr

theorem nodeFreq_snoc {nodes : List Node} {j : Nat} (n : Node) (h : j < nodes.length) :
    nodeFreq (nodes ++ [n]) j = nodeFreq nodes j := by
  simp [nodeFreq, List.getElem?_append_left h]

theorem nodeFreq_last (nodes : List Node) (n : Node) :
    nodeFreq (nodes ++ [n]) nodes.length = n.freq.toNat := by
  simp [nodeFreq]

/-- A child in the grown arena: of an old node, or of the new one. -/
theorem childOf_snoc {nodes : List Node} {l r : NodeIx} {f : Word32} {c j : Nat} :
    ChildOf (nodes ++ [.internal l r f]) c j ↔
      ChildOf nodes c j ∨ (j = nodes.length ∧ (l.toNat = c ∨ r.toNat = c)) := by
  constructor
  · rintro ⟨l', r', f', h, hc⟩
    by_cases hj : j < nodes.length
    · rw [List.getElem?_append_left hj] at h
      exact .inl ⟨l', r', f', h, hc⟩
    · have hlt := (List.getElem?_eq_some_iff.1 h).1
      simp only [List.length_append, List.length_cons, List.length_nil] at hlt
      have e : j = nodes.length := by omega
      subst e
      simp at h
      obtain ⟨rfl, rfl, rfl⟩ := h
      exact .inr ⟨rfl, hc⟩
  · rintro (⟨l', r', f', h, hc⟩ | ⟨rfl, hc⟩)
    · exact ⟨l', r', f', getElem?_snoc h, hc⟩
    · exact ⟨l, r, f, by simp, hc⟩

theorem childOf_lt {nodes : List Node} {c j : Nat} (h : ChildOf nodes c j) : j < nodes.length := by
  obtain ⟨_, _, _, h, _⟩ := h
  exact (List.getElem?_eq_some_iff.1 h).1

/-- Insertion adds the new node to the working sequence. -/
theorem perm_insertWq (nodes : List Node) (n f : Nat) (wq : List Nat) :
    (insertWq nodes n f wq).Perm (n :: wq) := by
  unfold insertWq
  simp only
  rw [List.append_assoc, List.singleton_append]
  refine (List.perm_middle).trans ?_
  rw [List.take_append_drop]

/-- The shape of the arena and of the working sequence during the merge loop: leaves first,
internal nodes over two smaller ones with the sum of their frequencies, the working sequence the
nodes without a parent, and its trees' leaves the Frequency Table. -/
structure Forest (ft : List FtEntry) (nodes : List Node) (wq : List Nat) (T : Nat → CodeTree) : Prop where
  len : nodes.length + wq.length = 2 * ft.length
  ge : ft.length ≤ nodes.length
  leaf : ∀ (k : Nat) (e : FtEntry), ft[k]? = some e → nodes[k]? = some (.leaf e.sym e.cnt)
  internal : ∀ j : Nat, ft.length ≤ j → j < nodes.length →
    ∃ (l r : NodeIx) (f : Word32), nodes[j]? = some (.internal l r f) ∧ l ≠ r ∧ l.toNat < j ∧
      r.toNat < j ∧ f.toNat = nodeFreq nodes l.toNat + nodeFreq nodes r.toNat
  nodup : wq.Nodup
  lt : ∀ x ∈ wq, x < nodes.length
  parent : ∀ c : Nat, c < nodes.length → c ∉ wq →
    ∃ j, ChildOf nodes c j ∧ ∀ j', ChildOf nodes c j' → j' = j
  noParent : ∀ c ∈ wq, ∀ j, ¬ChildOf nodes c j
  rep : ∀ j : Nat, j < nodes.length → Rep nodes j (T j)
  freq : ∀ j : Nat, j < nodes.length → nodeFreq nodes j = (T j).freq
  leaves : (wq.flatMap fun j => (T j).leaves).Perm ft

theorem sumFt_append (a b : List FtEntry) : sumFt (a ++ b) = sumFt a + sumFt b := by simp [sumFt]

theorem sumFt_perm {a b : List FtEntry} (h : a.Perm b) : sumFt a = sumFt b :=
  (h.map _).sum_eq

theorem getElem?_leavesOf (ft : List FtEntry) (k : Nat) :
    (leavesOf ft)[k]? = ft[k]?.map fun e => Node.leaf e.sym e.cnt := by simp [leavesOf]

theorem length_leavesOf (ft : List FtEntry) : (leavesOf ft).length = ft.length := by simp [leavesOf]

/-- Before the first merge (R121, R122). -/
theorem forest_initial (ft : List FtEntry) :
    Forest ft (leavesOf ft) (initialWq ft.length)
      (fun j => match ft[j]? with | some e => .leaf e.sym e.cnt | none => .leaf 0 0) where
  len := by simp [leavesOf, initialWq]; omega
  ge := by simp [leavesOf]
  leaf k e h := by rw [getElem?_leavesOf, h]; rfl
  internal j h1 h2 := by rw [length_leavesOf] at h2; omega
  nodup := by simp [initialWq, List.nodup_range]
  lt x hx := by simpa [initialWq, length_leavesOf] using hx
  parent c hc hn := by
    rw [length_leavesOf] at hc
    simp [initialWq] at hn
    omega
  noParent c _ j hc := by
    obtain ⟨l, r, f, h, _⟩ := hc
    rw [getElem?_leavesOf] at h
    cases hj : ft[j]? <;> simp [hj] at h
  rep j hj := by
    rw [length_leavesOf] at hj
    have h := List.getElem?_eq_getElem hj
    simp only [h]
    exact .leaf (by rw [getElem?_leavesOf, h]; rfl)
  freq j hj := by
    rw [length_leavesOf] at hj
    have h := List.getElem?_eq_getElem hj
    simp [nodeFreq, getElem?_leavesOf, h, Node.freq, CodeTree.freq, CodeTree.leaves, sumFt]
  leaves := by
    have hp : (initialWq ft.length).Perm (List.range ft.length) := List.reverse_perm _
    refine (hp.flatMap_right _).trans ?_
    apply List.Perm.of_eq
    have : ∀ l : List FtEntry, (∀ (k : Nat) (e : FtEntry), l[k]? = some e → ft[k]? = some e) →
        ((List.range l.length).flatMap fun j => (match ft[j]? with
          | some e => CodeTree.leaf e.sym e.cnt | none => .leaf 0 0).leaves) = l := by
      intro l
      induction l using List.reverseRecOn with
      | nil => simp
      | append_singleton l e ih =>
        intro h
        have he : ft[l.length]? = some e := h _ _ (by simp)
        rw [List.length_append, List.length_singleton, List.range_succ, List.flatMap_append, ih]
        · simp [he, CodeTree.leaves]
        · intro k e' hk
          exact h k e' (by rw [List.getElem?_append_left (List.getElem?_eq_some_iff.1 hk).1, hk])
    exact this ft (fun _ _ h => h)

/-- One merge (R123). -/
theorem Forest.merge {ft : List FtEntry} {nodes : List Node} {a b : Nat} {rest : List Nat}
    {T : Nat → CodeTree} (h : Forest ft nodes (a :: b :: rest) T) (hk : ft.length ≤ 256)
    (hs : sumFt ft ≤ 4294967295) :
    let f := nodeFreq nodes a + nodeFreq nodes b
    Forest ft
      (nodes ++ [.internal (BitVec.ofNat 9 a) (BitVec.ofNat 9 b) (BitVec.ofNat 32 f)])
      (insertWq nodes nodes.length f rest)
      (fun j => if j = nodes.length then .node (T a) (T b) else T j) := by
  intro f
  have hlen := h.len
  simp only [List.length_cons] at hlen
  have ha : a < nodes.length := h.lt a (by simp)
  have hb : b < nodes.length := h.lt b (by simp)
  have ha' : (BitVec.ofNat 9 a).toNat = a := by simp; omega
  have hb' : (BitVec.ofNat 9 b).toNat = b := by simp; omega
  have hnd := h.nodup
  simp only [List.nodup_cons, List.mem_cons, not_or] at hnd
  have hsum : sumFt ((a :: b :: rest).flatMap fun j => (T j).leaves) = sumFt ft := sumFt_perm h.leaves
  simp only [List.flatMap_cons, sumFt_append] at hsum
  have hf : f ≤ 4294967295 := by
    show nodeFreq nodes a + nodeFreq nodes b ≤ _
    rw [h.freq a ha, h.freq b hb, CodeTree.freq, CodeTree.freq]
    omega
  have hf' : (BitVec.ofNat 32 f).toNat = f := by simp; omega
  have hp := perm_insertWq nodes nodes.length f rest
  have hrest : ∀ x ∈ rest, x < nodes.length := fun x hx => h.lt x (by simp [hx])
  have hn : nodes.length ∉ rest := fun hx => by have := hrest _ hx; omega
  refine ⟨?_, ?_, ?_, ?_, ?_, ?_, ?_, ?_, ?_, ?_, ?_⟩
  · rw [hp.length_eq]; simp; omega
  · have := h.ge; simp; omega
  · intro k e he; exact getElem?_snoc (h.leaf k e he)
  · intro j h1 h2
    simp at h2
    by_cases hj : j < nodes.length
    · obtain ⟨l, r, g, e1, e2, e3, e4, e5⟩ := h.internal j h1 hj
      exact ⟨l, r, g, getElem?_snoc e1, e2, e3, e4, by
        rw [nodeFreq_snoc _ (by omega), nodeFreq_snoc _ (by omega), e5]⟩
    · have e : j = nodes.length := by omega
      subst e
      refine ⟨_, _, _, by simp; exact ⟨rfl, rfl, rfl⟩, ?_, by omega, by omega, ?_⟩
      · intro e
        exact hnd.1.1 (by rw [← ha', ← hb', e])
      · rw [ha', hb', nodeFreq_snoc _ ha, nodeFreq_snoc _ hb, hf']
  · rw [hp.nodup_iff]; exact List.nodup_cons.2 ⟨hn, hnd.2.2⟩
  · intro x hx
    rw [hp.mem_iff] at hx
    rcases List.mem_cons.1 hx with rfl | hx
    · simp
    · have := hrest x hx; simp; omega
  · intro c hc hcn
    rw [hp.mem_iff] at hcn
    simp only [List.mem_cons, not_or] at hcn
    simp at hc
    have hc' : c < nodes.length := by omega
    simp only [childOf_snoc, ha', hb']
    by_cases hab : a = c ∨ b = c
    · refine ⟨nodes.length, .inr ⟨rfl, hab⟩, ?_⟩
      rintro j' (hj | hj)
      · exact absurd hj (h.noParent c (by rcases hab with rfl | rfl <;> simp) j')
      · exact hj.1
    · rw [not_or] at hab
      obtain ⟨j, hj, hu⟩ := h.parent c hc' (by simp [Ne.symm hab.1, Ne.symm hab.2, hcn.2])
      refine ⟨j, .inl hj, ?_⟩
      rintro j' (hj | hj)
      · exact hu j' hj
      · exact absurd hj.2 (by simp [hab])
  · intro c hc j
    rw [hp.mem_iff] at hc
    rw [childOf_snoc, ha', hb']
    rcases List.mem_cons.1 hc with rfl | hc
    · rintro (⟨l, r, g, e1, e2⟩ | hj)
      · have hj := (List.getElem?_eq_some_iff.1 e1).1
        by_cases hge : ft.length ≤ j
        · obtain ⟨l', r', g', e1', _, e3, e4, _⟩ := h.internal j hge hj
          rw [e1] at e1'
          cases e1'
          omega
        · have := h.leaf j _ (List.getElem?_eq_getElem (by omega))
          rw [e1] at this
          cases this
      · omega
    · rintro (hj | hj)
      · exact h.noParent c (by simp [hc]) j hj
      · rcases hj.2 with rfl | rfl
        · exact hnd.1.2 hc
        · exact hnd.2.1 hc
  · intro j hj
    simp at hj
    by_cases e : j = nodes.length
    · subst e
      rw [if_pos rfl]
      refine .node (by simp; exact ⟨rfl, rfl, rfl⟩) (by omega) (by omega) ?_ ?_
      · rw [ha']; exact (h.rep a ha).snoc _
      · rw [hb']; exact (h.rep b hb).snoc _
    · rw [if_neg e]
      exact (h.rep j (by omega)).snoc _
  · intro j hj
    simp at hj
    by_cases e : j = nodes.length
    · subst e
      rw [nodeFreq_last, if_pos rfl]
      show (BitVec.ofNat 32 f).toNat = _
      rw [hf', CodeTree.freq, CodeTree.leaves, sumFt_append]
      show nodeFreq nodes a + nodeFreq nodes b = _
      rw [h.freq a ha, h.freq b hb, CodeTree.freq, CodeTree.freq]
    · rw [if_neg e, nodeFreq_snoc _ (by omega)]
      exact h.freq j (by omega)
  · refine (hp.flatMap_right _).trans ?_
    have hl := h.leaves
    simp only [List.flatMap_cons] at hl ⊢
    rw [if_true, CodeTree.leaves, List.append_assoc]
    have : (rest.flatMap fun j => (if j = nodes.length then CodeTree.node (T a) (T b) else T j).leaves) =
        rest.flatMap fun j => (T j).leaves := by
      apply List.flatMap_congr
      intro x hx
      rw [if_neg (by have := hrest x hx; omega)]
    rw [this]
    exact hl

/-- The loop keeps the shape, and with fuel for the working sequence's length leaves at most one
node in it (R125). -/
theorem forest_mergeLoop {ft : List FtEntry} (hk : ft.length ≤ 256) (hs : sumFt ft ≤ 4294967295)
    (fuel : Nat) (nodes : List Node) (wq : List Nat) (T : Nat → CodeTree)
    (h : Forest ft nodes wq T) (hf : wq.length ≤ fuel) :
    (∃ T', Forest ft (mergeLoop fuel nodes wq).1 (mergeLoop fuel nodes wq).2 T') ∧
    (mergeLoop fuel nodes wq).2.length ≤ 1 := by
  induction fuel generalizing nodes wq T with
  | zero => exact ⟨⟨T, h⟩, by simp only [mergeLoop]; omega⟩
  | succ fuel ih =>
    match wq with
    | [] => exact ⟨⟨T, h⟩, by simp [mergeLoop]⟩
    | [a] => exact ⟨⟨T, h⟩, by simp [mergeLoop]⟩
    | a :: b :: rest =>
      simp only [mergeLoop]
      refine ih _ _ _ (h.merge hk hs) ?_
      rw [(perm_insertWq _ _ _ _).length_eq]
      simpa using hf

/-- The order of the merges so far: the working sequence stands in the order of taking, and each
internal node took the two first nodes of the working sequence it was made from (R124, R130). -/
structure Order (k : Nat) (nodes : List Node) (wq : List Nat) : Prop where
  sorted : wq.Pairwise (TakenBefore k nodes)
  merges : ∀ (j : Nat) (l r : NodeIx) (f : Word32), nodes[j]? = some (.internal l r f) →
    TakenBefore k nodes l.toNat r.toNat ∧
    ∀ x : Nat, x < j → x ≠ l.toNat → x ≠ r.toNat → (∀ j', j' < j → ¬ChildOf nodes x j') →
      TakenBefore k nodes r.toNat x

theorem takenBefore_snoc {k : Nat} {nodes : List Node} (n : Node) {x y : Nat} (hx : x < nodes.length)
    (hy : y < nodes.length) : TakenBefore k (nodes ++ [n]) x y ↔ TakenBefore k nodes x y := by
  simp only [TakenBefore, nodeFreq_snoc n hx, nodeFreq_snoc n hy]

/-- In a sequence sorted by frequency, as many entries as have at most frequency `f` stand at the
front. -/
theorem take_filter_le (g : Nat → Nat) (f : Nat) (wq : List Nat)
    (h : wq.Pairwise fun x y => g x ≤ g y) :
    (∀ x ∈ wq.take (wq.filter fun j => decide (g j ≤ f)).length, g x ≤ f) ∧
    (∀ x ∈ wq.drop (wq.filter fun j => decide (g j ≤ f)).length, f < g x) := by
  induction wq with
  | nil => simp
  | cons a wq ih =>
    rw [List.pairwise_cons] at h
    obtain ⟨ih1, ih2⟩ := ih h.2
    by_cases ha : g a ≤ f
    · simp only [List.filter_cons, ha, decide_true, if_true, List.length_cons, List.take_succ_cons,
        List.drop_succ_cons]
      refine ⟨?_, ih2⟩
      intro x hx
      rcases List.mem_cons.1 hx with rfl | hx
      · exact ha
      · exact ih1 x hx
    · have : wq.filter (fun j => decide (g j ≤ f)) = [] := by
        rw [List.filter_eq_nil_iff]
        intro x hx
        have := h.1 x hx
        simp
        omega
      simp only [List.filter_cons, ha, decide_false, this]
      simp
      refine ⟨by omega, fun x hx => ?_⟩
      have := h.1 x hx
      omega

/-- Before the first merge, when the Frequency Table stands in descending order (R122). -/
theorem order_initial {ft : List FtEntry} (h : ft.Pairwise fun a b => b.cnt.toNat ≤ a.cnt.toNat) :
    Order ft.length (leavesOf ft) (initialWq ft.length) where
  sorted := by
    unfold initialWq
    rw [List.pairwise_reverse]
    refine List.Pairwise.imp_of_mem ?_ List.pairwise_lt_range
    intro a b ha hb hab
    rw [List.mem_range] at ha hb
    have hle := List.pairwise_iff_getElem.1 h a b ha hb hab
    have ea := List.getElem?_eq_getElem ha
    have eb := List.getElem?_eq_getElem hb
    simp only [TakenBefore, nodeFreq, getElem?_leavesOf, ea, eb, Option.map, Node.freq, nodeAge, ha, hb,
      if_true]
    omega
  merges j l r f hj := by
    rw [getElem?_leavesOf] at hj
    cases h : ft[j]? <;> simp [h] at hj

/-- One merge (R123, R124). -/
theorem Order.merge {ft : List FtEntry} {nodes : List Node} {a b : Nat} {rest : List Nat}
    {T : Nat → CodeTree} (ho : Order ft.length nodes (a :: b :: rest))
    (h : Forest ft nodes (a :: b :: rest) T) (hk : ft.length ≤ 256) (hs : sumFt ft ≤ 4294967295) :
    let f := nodeFreq nodes a + nodeFreq nodes b
    Order ft.length
      (nodes ++ [.internal (BitVec.ofNat 9 a) (BitVec.ofNat 9 b) (BitVec.ofNat 32 f)])
      (insertWq nodes nodes.length f rest) := by
  intro f
  have hlen := h.len
  simp only [List.length_cons] at hlen
  have ha : a < nodes.length := h.lt a (by simp)
  have hb : b < nodes.length := h.lt b (by simp)
  have ha' : (BitVec.ofNat 9 a).toNat = a := by simp; omega
  have hb' : (BitVec.ofNat 9 b).toNat = b := by simp; omega
  have hsum : sumFt ((a :: b :: rest).flatMap fun j => (T j).leaves) = sumFt ft := sumFt_perm h.leaves
  simp only [List.flatMap_cons, sumFt_append] at hsum
  have hf : f ≤ 4294967295 := by
    show nodeFreq nodes a + nodeFreq nodes b ≤ _
    rw [h.freq a ha, h.freq b hb, CodeTree.freq, CodeTree.freq]
    omega
  have hf' : (BitVec.ofNat 32 f).toNat = f := by simp; omega
  have hrest : ∀ x ∈ rest, x < nodes.length := fun x hx => h.lt x (by simp [hx])
  have hs := ho.sorted
  simp only [List.pairwise_cons] at hs
  obtain ⟨hsa, hsb, hsr⟩ := hs
  have hfr : rest.Pairwise fun x y => nodeFreq nodes x ≤ nodeFreq nodes y := by
    refine hsr.imp ?_
    rintro x y (h | ⟨h, _⟩) <;> omega
  obtain ⟨h1, h2⟩ := take_filter_le (nodeFreq nodes) f rest hfr
  have hge := h.ge
  have hlast : nodeFreq (nodes ++ [.internal (BitVec.ofNat 9 a) (BitVec.ofNat 9 b) (BitVec.ofNat 32 f)])
      nodes.length = f := by rw [nodeFreq_last]; exact hf'
  have hage : nodeAge ft.length nodes.length = nodes.length := by simp [nodeAge, hge]
  have hagelt : ∀ x, x < nodes.length → nodeAge ft.length x < nodes.length := by
    intro x hx; unfold nodeAge; split <;> omega
  constructor
  · unfold insertWq
    simp only
    rw [List.append_assoc, List.singleton_append]
    have hsplit : rest.take (rest.filter fun j => decide (nodeFreq nodes j ≤ f)).length ++
        rest.drop (rest.filter fun j => decide (nodeFreq nodes j ≤ f)).length = rest :=
      List.take_append_drop ..
    have hsr' := hsr
    rw [← hsplit, List.pairwise_append] at hsr'
    obtain ⟨p1, p2, p3⟩ := hsr'
    have hmt : ∀ x ∈ rest.take (rest.filter fun j => decide (nodeFreq nodes j ≤ f)).length, x ∈ rest :=
      fun x hx => List.mem_of_mem_take hx
    have hmd : ∀ x ∈ rest.drop (rest.filter fun j => decide (nodeFreq nodes j ≤ f)).length, x ∈ rest :=
      fun x hx => List.mem_of_mem_drop hx
    rw [List.pairwise_append, List.pairwise_cons]
    refine ⟨?_, ⟨?_, ?_⟩, ?_⟩
    · exact p1.imp_of_mem fun hx hy hxy =>
        (takenBefore_snoc _ (hrest _ (hmt _ hx)) (hrest _ (hmt _ hy))).2 hxy
    · intro x hx
      refine .inl ?_
      rw [hlast, nodeFreq_snoc _ (hrest x (hmd x hx))]
      exact h2 x hx
    · exact p2.imp_of_mem fun hx hy hxy =>
        (takenBefore_snoc _ (hrest _ (hmd _ hx)) (hrest _ (hmd _ hy))).2 hxy
    · intro x hx y hy
      rcases List.mem_cons.1 hy with rfl | hy
      · have hxl := hrest x (hmt x hx)
        have := h1 x hx
        unfold TakenBefore
        rw [hlast, nodeFreq_snoc _ hxl, hage]
        have := hagelt x hxl
        omega
      · exact (takenBefore_snoc _ (hrest _ (hmt _ hx)) (hrest _ (hmd _ hy))).2 (p3 x hx y hy)
  · intro j l r g hj
    by_cases hlt : j < nodes.length
    · rw [List.getElem?_append_left hlt] at hj
      obtain ⟨m1, m2⟩ := ho.merges j l r g hj
      have hgej : ft.length ≤ j := by
        by_contra hc
        have := h.leaf j _ (List.getElem?_eq_getElem (by omega))
        rw [hj] at this
        cases this
      obtain ⟨l', r', g', e1, _, e3, e4, _⟩ := h.internal j hgej hlt
      rw [hj] at e1
      cases e1
      refine ⟨(takenBefore_snoc _ (by omega) (by omega)).2 m1, ?_⟩
      intro x hx hxl hxr hpar
      refine (takenBefore_snoc _ (by omega) (by omega)).2 (m2 x hx hxl hxr ?_)
      intro j' hj' hc
      exact hpar j' hj' (childOf_snoc.2 (.inl hc))
    · have hjl := (List.getElem?_eq_some_iff.1 hj).1
      simp at hjl
      have e : j = nodes.length := by omega
      subst e
      simp at hj
      obtain ⟨rfl, rfl, -⟩ := hj
      rw [ha', hb']
      refine ⟨(takenBefore_snoc _ ha hb).2 (hsa b (by simp)), ?_⟩
      intro x hx hxa hxb hpar
      refine (takenBefore_snoc _ hb hx).2 (hsb x ?_)
      by_contra hxr
      obtain ⟨j, hj, _⟩ := h.parent x hx (by simp [hxa, hxb, hxr])
      exact hpar j (childOf_lt hj) (childOf_snoc.2 (.inl hj))

/-- The loop keeps the order. -/
theorem order_mergeLoop {ft : List FtEntry} (hk : ft.length ≤ 256) (hs : sumFt ft ≤ 4294967295)
    (fuel : Nat) (nodes : List Node) (wq : List Nat) (T : Nat → CodeTree)
    (h : Forest ft nodes wq T) (ho : Order ft.length nodes wq) :
    Order ft.length (mergeLoop fuel nodes wq).1 (mergeLoop fuel nodes wq).2 := by
  induction fuel generalizing nodes wq T with
  | zero => exact ho
  | succ fuel ih =>
    match wq with
    | [] => exact ho
    | [a] => exact ho
    | a :: b :: rest => exact ih _ _ _ (h.merge hk hs) (ho.merge h hk hs)

/-- A child has a smaller index than its parent. -/
theorem Forest.child_lt {ft : List FtEntry} {nodes : List Node} {wq : List Nat} {T : Nat → CodeTree}
    (h : Forest ft nodes wq T) {c j : Nat} (hc : ChildOf nodes c j) : c < j := by
  obtain ⟨l, r, f, e, hc⟩ := hc
  have hj := (List.getElem?_eq_some_iff.1 e).1
  by_cases hge : ft.length ≤ j
  · obtain ⟨l', r', f', e', _, h3, h4, _⟩ := h.internal j hge hj
    rw [e] at e'
    cases e'
    omega
  · have := h.leaf j _ (List.getElem?_eq_getElem (by omega))
    rw [e] at this
    cases this

/-- The tree TREE builds (R121, R125, R126): the shape of the loop, with ROOT alone left in the
working sequence, or nothing for the empty table. -/
theorem buildTree_shape {ft : List FtEntry} (hk : ft.length ≤ 256) (hs : sumFt ft ≤ 4294967295) :
    (ft = [] → buildTree ft = ([], Config.noRoot)) ∧
    (ft ≠ [] → (buildTree ft).1.length = 2 * ft.length - 1 ∧
      (buildTree ft).2.toNat = 2 * ft.length - 2 ∧
      ∃ T, Forest ft (buildTree ft).1 [(buildTree ft).2.toNat] T) := by
  refine ⟨by rintro rfl; rfl, fun hne => ?_⟩
  have hpos : 0 < ft.length := List.length_pos_iff.2 hne
  obtain ⟨⟨T, h⟩, h1⟩ := forest_mergeLoop hk hs ft.length (leavesOf ft) (initialWq ft.length) _
    (forest_initial ft) (by simp [initialWq])
  have hbt : buildTree ft = ((mergeLoop ft.length (leavesOf ft) (initialWq ft.length)).1,
      match (mergeLoop ft.length (leavesOf ft) (initialWq ft.length)).2 with
      | j :: _ => BitVec.ofNat 9 j | [] => Config.noRoot) := rfl
  rw [hbt]
  generalize mergeLoop ft.length (leavesOf ft) (initialWq ft.length) = m at h h1
  obtain ⟨nodes, wq⟩ := m
  match wq with
  | [] => exact absurd h.leaves.symm.eq_nil hne
  | [j] =>
    have h : Forest ft nodes [j] T := h
    have hl : nodes.length + 1 = 2 * ft.length := h.len
    have hj : j = 2 * ft.length - 2 := by
      by_contra hc
      obtain ⟨p, hp, _⟩ := h.parent (2 * ft.length - 2) (by omega) (by simp; omega)
      have := h.child_lt hp
      have := childOf_lt hp
      omega
    have hjb : (BitVec.ofNat 9 j).toNat = j := by simp; omega
    simp only [hjb]
    exact ⟨by omega, by omega, T, h⟩
  | a :: b :: rest => simp at h1

/-- The order of the merges in the tree TREE builds (R123, R124, R130). -/
theorem buildTree_order {ft : List FtEntry} (hk : ft.length ≤ 256) (hs : sumFt ft ≤ 4294967295)
    (hd : ft.Pairwise fun a b => b.cnt.toNat ≤ a.cnt.toNat) :
    ∃ wq, Order ft.length (buildTree ft).1 wq :=
  ⟨_, order_mergeLoop hk hs _ _ _ _ (forest_initial ft) (order_initial hd)⟩

end Sys2Proof.Machine
end

