-- ==== Sys2Proof/Laws/Walk.lean ====
section
/-!
SUPPORT. The walk of CODEGEN (R135, R136) over an arena that is a tree: it lists the root-to-leaf
paths in left-to-right order, or stops at the first path that is too long (R140).
-/

namespace Sys2Proof.Machine

open Sys2Proof.Safety

/-- The root-to-leaf paths with their symbols, left to right: false for left, true for right. -/
def CodeTree.paths : CodeTree → List (List Bool × Byte)
  | .leaf sym _ => [([], sym)]
  | .node l r => (l.paths.map fun p => (false :: p.1, p.2)) ++ (r.paths.map fun p => (true :: p.1, p.2))

/-- The table entry of a path below a node reached with `code` after `len` branches. -/
def pathEntry (code len : Nat) (p : List Bool × Byte) : CtEntry :=
  ⟨p.2, BitVec.ofNat 32 (code * 2 ^ p.1.length + bitsValue p.1), BitVec.ofNat 8 (len + p.1.length)⟩

/-! ### Bit strings as numbers -/

theorem bitsValue_foldl (w : List Bool) (v : Nat) :
    w.foldl (fun v x => 2 * v + x.toNat) v = v * 2 ^ w.length + bitsValue w := by
  unfold bitsValue
  induction w generalizing v with
  | nil => simp
  | cons x w ih =>
    rw [List.foldl_cons, ih, List.foldl_cons, ih (2 * 0 + x.toNat), List.length_cons, pow_succ]
    ring

@[simp] theorem bitsValue_nil : bitsValue [] = 0 := rfl

theorem bitsValue_cons (x : Bool) (w : List Bool) :
    bitsValue (x :: w) = x.toNat * 2 ^ w.length + bitsValue w := by
  have := bitsValue_foldl w (2 * 0 + x.toNat)
  simpa [bitsValue] using this

theorem bitsValue_append (v w : List Bool) :
    bitsValue (v ++ w) = bitsValue v * 2 ^ w.length + bitsValue w := by
  rw [bitsValue, List.foldl_append, bitsValue_foldl]
  rfl

theorem bitsValue_lt (w : List Bool) : bitsValue w < 2 ^ w.length := by
  induction w with
  | nil => simp
  | cons x w ih =>
    rw [bitsValue_cons, List.length_cons, pow_succ]
    cases x <;> simp <;> omega

/-- A bit string of known length is its number. -/
theorem bitsValue_inj {v w : List Bool} (hl : v.length = w.length) (h : bitsValue v = bitsValue w) :
    v = w := by
  induction v generalizing w with
  | nil => exact (List.length_eq_zero_iff.1 hl.symm).symm
  | cons x v ih =>
    match w with
    | [] => simp at hl
    | y :: w =>
      simp only [List.length_cons, Nat.add_right_cancel_iff] at hl
      rw [bitsValue_cons, bitsValue_cons, hl] at h
      have h1 := bitsValue_lt v
      have h2 := bitsValue_lt w
      rw [hl] at h1
      cases x <;> cases y <;> simp at h
      · rw [ih hl h]
      · omega
      · omega
      · rw [ih hl h]

theorem length_lowBits (n v : Nat) : (lowBits n v).length = n := by simp [lowBits]

@[simp] theorem lowBits_zero (v : Nat) : lowBits 0 v = [] := rfl

theorem lowBits_succ (n v : Nat) : lowBits (n + 1) v = v.testBit n :: lowBits n v := by
  unfold lowBits
  rw [List.range_succ_eq_map, List.map_cons, List.map_map]
  congr 1
  apply List.map_congr_left
  intro k _
  simp only [Function.comp]
  congr 1
  omega

/-- The low bits of a number write the number, as far as it fits. -/
theorem bitsValue_lowBits (n v : Nat) : bitsValue (lowBits n v) = v % 2 ^ n := by
  induction n with
  | zero => simp [lowBits, Nat.mod_one]
  | succ n ih =>
    rw [lowBits_succ, bitsValue_cons, ih, length_lowBits, Nat.testBit_eq_decide_div_mod_eq,
      Nat.mod_pow_succ]
    rcases Nat.mod_two_eq_zero_or_one (v / 2 ^ n) with h | h <;> simp [h] <;> omega

/-- A bit string is the low bits of its number. -/
theorem lowBits_bitsValue (w : List Bool) : lowBits w.length (bitsValue w) = w := by
  apply bitsValue_inj (length_lowBits _ _)
  rw [bitsValue_lowBits, Nat.mod_eq_of_lt (bitsValue_lt w)]

/-! ### The walk -/

/-- The walk over a tree: its paths as entries, or the symbol of the first path that is too long
(R136, R140). -/
theorem walk_rep {nodes : List Node} {j : Nat} {t : CodeTree} (h : Rep nodes j t) :
    ∀ fuel code len : Nat, j < fuel → walk nodes fuel j code len =
      match t.paths.find? (fun p => decide (31 < len + p.1.length)) with
      | some p => .error (.tooDeep p.2)
      | none => .ok (t.paths.map (pathEntry code len)) := by
  induction h with
  | @leaf j sym f h =>
    intro fuel code len hf
    obtain ⟨fuel, rfl⟩ : ∃ k, fuel = k + 1 := ⟨fuel - 1, by omega⟩
    simp only [walk, h, CodeTree.paths, List.find?_cons, List.length_nil, Nat.add_zero, Config.maxLen]
    by_cases hl : len > 31
    · simp [hl]
    · simp [hl, pathEntry]
  | @node j l r f tl tr h hl hr _ _ ihl ihr =>
    intro fuel code len hf
    obtain ⟨fuel, rfl⟩ : ∃ k, fuel = k + 1 := ⟨fuel - 1, by omega⟩
    simp only [walk, h]
    rw [ihl fuel _ _ (by omega), ihr fuel _ _ (by omega)]
    simp only [CodeTree.paths, List.find?_append, List.find?_map]
    have hp : ∀ b : Bool, ((fun p : List Bool × Byte => decide (31 < len + p.1.length)) ∘
        fun p : List Bool × Byte => (b :: p.1, p.2)) =
        fun p => decide (31 < len + 1 + p.1.length) := by
      intro b
      funext p
      simp only [Function.comp, List.length_cons]
      congr 2
      omega
    rw [hp, hp]
    have he : ∀ (b : Bool) (c : Nat), c = 2 * code + b.toNat → ∀ p : List Bool × Byte,
        pathEntry c (len + 1) p = pathEntry code len (b :: p.1, p.2) := by
      rintro b c rfl p
      simp only [pathEntry, List.length_cons, bitsValue_cons]
      congr 2
      · ring
      · omega
    have e0 := he false (code <<< 1) (by simp [Nat.shiftLeft_eq]; ring)
    have e1 := he true ((code <<< 1) ||| 1) (by
      have : code <<< 1 ||| 1 = (code <<< 1) + 1 := by
        rw [← Nat.shiftLeft_add_eq_or_of_lt (by norm_num)]
      rw [this, Nat.shiftLeft_eq]
      simp
      ring)
    cases tl.paths.find? fun p => decide (31 < len + 1 + p.1.length) with
    | some p => simp
    | none =>
      cases tr.paths.find? fun p => decide (31 < len + 1 + p.1.length) with
      | some p => simp
      | none =>
        simp only [Option.map_none, Option.none_or, List.map_append, List.map_map]
        congr 2
        · apply List.map_congr_left; intro p _; exact e0 p
        · apply List.map_congr_left; intro p _; exact e1 p

/-- The paths are what leads to a leaf. -/
theorem leads_iff {nodes : List Node} {j : Nat} {t : CodeTree} (h : Rep nodes j t) :
    ∀ (w : List Bool) (sym : Byte), Leads nodes j w sym ↔ (w, sym) ∈ t.paths := by
  induction h with
  | @leaf j sym f h =>
    intro w s
    simp only [CodeTree.paths, List.mem_singleton, Prod.mk.injEq]
    constructor
    · intro hl
      cases hl with
      | leaf h' => rw [h] at h'; cases h'; exact ⟨rfl, rfl⟩
      | left h' => rw [h] at h'; cases h'
      | right h' => rw [h] at h'; cases h'
    · rintro ⟨rfl, rfl⟩
      exact .leaf h
  | @node j l r f tl tr h _ _ _ _ ihl ihr =>
    intro w s
    simp only [CodeTree.paths, List.mem_append, List.mem_map, Prod.mk.injEq, Prod.exists]
    constructor
    · intro hl
      cases hl with
      | leaf h' => rw [h] at h'; cases h'
      | left h' hl => rw [h] at h'; cases h'; exact .inl ⟨_, _, (ihl _ _).1 hl, rfl, rfl⟩
      | right h' hl => rw [h] at h'; cases h'; exact .inr ⟨_, _, (ihr _ _).1 hl, rfl, rfl⟩
    · rintro (⟨w', s', hm, rfl, rfl⟩ | ⟨w', s', hm, rfl, rfl⟩)
      · exact .left h ((ihl _ _).2 hm)
      · exact .right h ((ihr _ _).2 hm)

/-- Whatever a walk says is too deep is a path longer than 31, in any arena. -/
theorem leads_of_walk_tooDeep {nodes : List Node} {sym : Byte} :
    ∀ fuel j code len : Nat, walk nodes fuel j code len = .error (.tooDeep sym) →
      ∃ w, Leads nodes j w sym ∧ 31 < len + w.length := by
  intro fuel
  induction fuel with
  | zero => intro j code len h; simp [walk] at h
  | succ fuel ih =>
    intro j code len h
    simp only [walk] at h
    cases hj : (nodes[j]? : Option Node) with
    | none => simp [hj] at h
    | some n =>
      cases n with
      | leaf s f =>
        simp only [hj] at h
        by_cases hl : len > Config.maxLen
        · simp only [if_pos hl, Except.error.injEq, WalkStop.tooDeep.injEq] at h
          exact ⟨[], h ▸ .leaf hj, by simpa [Config.maxLen] using hl⟩
        · simp [hl] at h
      | internal l r f =>
        simp only [hj] at h
        cases hL : walk nodes fuel l.toNat (code <<< 1) (len + 1) with
        | error e =>
          rw [hL] at h
          cases h
          obtain ⟨w, hw, hlen⟩ := ih _ _ _ hL
          exact ⟨false :: w, .left hj hw, by simp; omega⟩
        | ok ls =>
          rw [hL] at h
          cases hR : walk nodes fuel r.toNat ((code <<< 1) ||| 1) (len + 1) with
          | error e =>
            rw [hR] at h
            cases h
            obtain ⟨w, hw, hlen⟩ := ih _ _ _ hR
            exact ⟨true :: w, .right hj hw, by simp; omega⟩
          | ok rs => simp [hR] at h

/-! ### The paths of a tree -/

/-- One path for each leaf, with its symbol. -/
theorem paths_syms (t : CodeTree) : t.paths.map (·.2) = t.leaves.map (·.sym) := by
  induction t with
  | leaf sym f => rfl
  | node l r ihl ihr =>
    simp [CodeTree.paths, CodeTree.leaves, ← ihl, ← ihr, Function.comp_def]

theorem length_paths (t : CodeTree) : t.paths.length = t.leaves.length := by
  simpa using congrArg List.length (paths_syms t)

theorem leaves_pos (t : CodeTree) : 1 ≤ t.leaves.length := by
  induction t with
  | leaf => simp [CodeTree.leaves]
  | node l r ihl ihr => simp [CodeTree.leaves]; omega

/-- A tree of n leaves is at most n - 1 deep (R140). -/
theorem length_path_lt (t : CodeTree) : ∀ p ∈ t.paths, p.1.length < t.leaves.length := by
  induction t with
  | leaf => simp [CodeTree.paths, CodeTree.leaves]
  | node l r ihl ihr =>
    intro p hp
    have h1 := leaves_pos l
    have h2 := leaves_pos r
    simp only [CodeTree.paths, CodeTree.leaves, List.mem_append, List.mem_map, List.length_append] at hp ⊢
    rcases hp with ⟨q, hq, rfl⟩ | ⟨q, hq, rfl⟩
    · have := ihl q hq; simp; omega
    · have := ihr q hq; simp; omega

/-- Left to right is the lexicographic order. -/
theorem paths_sorted (t : CodeTree) : (t.paths.map (·.1)).Pairwise (· < ·) := by
  induction t with
  | leaf => simp [CodeTree.paths]
  | node l r ihl ihr =>
    simp only [CodeTree.paths, List.map_append, List.map_map, List.pairwise_append]
    have hc : ∀ (b : Bool) (u : CodeTree), (u.paths.map (·.1)).Pairwise (· < ·) →
        (u.paths.map ((·.1) ∘ fun p : List Bool × Byte => (b :: p.1, p.2))).Pairwise (· < ·) := by
      intro b u h
      rw [List.pairwise_map] at h ⊢
      exact h.imp fun {x y} hxy => by simpa using hxy
    refine ⟨hc _ l ihl, hc _ r ihr, ?_⟩
    intro a ha b hb
    simp only [List.mem_map, Function.comp] at ha hb
    obtain ⟨p, _, rfl⟩ := ha
    obtain ⟨q, _, rfl⟩ := hb
    exact List.Lex.rel (by decide)

/-- No path is the beginning of another. -/
theorem paths_prefixFree (t : CodeTree) :
    t.paths.Pairwise fun p q => ¬p.1 <+: q.1 ∧ ¬q.1 <+: p.1 := by
  induction t with
  | leaf => simp [CodeTree.paths]
  | node l r ihl ihr =>
    simp only [CodeTree.paths, List.pairwise_append]
    refine ⟨?_, ?_, ?_⟩
    · rw [List.pairwise_map]; exact ihl.imp fun {x y} hxy => by simpa using hxy
    · rw [List.pairwise_map]; exact ihr.imp fun {x y} hxy => by simpa using hxy
    · intro a ha b hb
      simp only [List.mem_map] at ha hb
      obtain ⟨p, _, rfl⟩ := ha
      obtain ⟨q, _, rfl⟩ := hb
      simp

/-- The paths fill the code space (Kraft's equality). -/
theorem paths_kraft (t : CodeTree) : ∀ n : Nat, (∀ p ∈ t.paths, p.1.length ≤ n) →
    (t.paths.map fun p => 2 ^ (n - p.1.length)).sum = 2 ^ n := by
  induction t with
  | leaf => intro n _; simp [CodeTree.paths]
  | node l r ihl ihr =>
    intro n hn
    simp only [CodeTree.paths, List.mem_append, List.mem_map] at hn
    obtain ⟨m, rfl⟩ : ∃ m, n = m + 1 := by
      cases hp : l.paths with
      | nil => have := leaves_pos l; rw [← length_paths, hp] at this; simp at this
      | cons p ps =>
        have := hn _ (.inl ⟨p, by simp [hp], rfl⟩)
        simp at this
        exact ⟨n - 1, by omega⟩
    have hl := ihl m fun p hp => by
      have := hn _ (.inl ⟨p, hp, rfl⟩)
      simpa using this
    have hr := ihr m fun p hp => by
      have := hn _ (.inr ⟨p, hp, rfl⟩)
      simpa using this
    simp only [CodeTree.paths, List.map_append, List.map_map, List.sum_append, Function.comp_def,
      List.length_cons, Nat.add_sub_add_right]
    rw [hl, hr, pow_succ]
    ring

end Sys2Proof.Machine
end

