-- ==== Sys2Proof/Laws/CodeTable.lean ====
section
/-!
SUPPORT. The Code Table of the tree TREE builds: one entry for each path (R135 to R140), and what
follows for the codes as bit strings (R141).
-/

namespace Sys2Proof.Machine

open Sys2Proof.Safety

/-- The tree TREE builds of a table that is not empty, as a term: rooted at ROOT, its leaves the
table's entries. -/
theorem buildTree_rep {ft : List FtEntry} (hk : ft.length ≤ 256) (hs : sumFt ft ≤ 4294967295)
    (hne : ft ≠ []) :
    ∃ T : CodeTree, Rep (buildTree ft).1 (buildTree ft).2.toNat T ∧ T.leaves.Perm ft ∧
      (buildTree ft).2.toNat < (buildTree ft).1.length := by
  obtain ⟨h1, h2, T, hF⟩ := (buildTree_shape hk hs).2 hne
  have hpos : 0 < ft.length := List.length_pos_iff.2 hne
  have hlt : (buildTree ft).2.toNat < (buildTree ft).1.length := by omega
  exact ⟨_, hF.rep _ hlt, by simpa using hF.leaves, hlt⟩

/-- The code table of a tree with two leaves or more is its walk. -/
theorem codeTable_walk {k : Nat} (hk : 2 ≤ k) {nodes : List Node} {root : NodeIx} {T : CodeTree}
    (h : Rep nodes root.toNat T) (hr : root.toNat < nodes.length) :
    codeTable k nodes root = match T.paths.find? (fun p => decide (31 < p.1.length)) with
      | some p => .error (.tooDeep p.2)
      | none => .ok (T.paths.map (pathEntry 0 0)) := by
  unfold codeTable
  have hw := walk_rep h nodes.length 0 0 hr
  simp only [Nat.zero_add] at hw
  rw [if_neg (by omega), if_neg (by omega)]
  exact hw

/-- An entry of the walk from the root: its code and length write its path. -/
theorem pathEntry_root {p : List Bool × Byte} (h : p.1.length ≤ 31) :
    (pathEntry 0 0 p).sym = p.2 ∧ (pathEntry 0 0 p).code.toNat = bitsValue p.1 ∧
    (pathEntry 0 0 p).len.toNat = p.1.length ∧ codeBits (pathEntry 0 0 p) = p.1 := by
  have h1 : (pathEntry 0 0 p).code.toNat = bitsValue p.1 := by
    have := bitsValue_lt p.1
    have : 2 ^ p.1.length ≤ 2 ^ 31 := Nat.pow_le_pow_right (by norm_num) h
    simp only [pathEntry, Nat.zero_mul, Nat.zero_add, BitVec.toNat_ofNat]
    omega
  have h2 : (pathEntry 0 0 p).len.toNat = p.1.length := by
    simp only [pathEntry, Nat.zero_add, BitVec.toNat_ofNat]
    omega
  exact ⟨rfl, h1, h2, by rw [codeBits, h1, h2, lowBits_bitsValue]⟩

/-- The top bits of a code are the beginning of its bit string. -/
theorem bitsValue_prefix {v w : List Bool} (hl : v.length ≤ w.length)
    (h : bitsValue w >>> (w.length - v.length) = bitsValue v) : v <+: w := by
  have hw : w = w.take v.length ++ w.drop v.length := (List.take_append_drop ..).symm
  have hd : (w.drop v.length).length = w.length - v.length := by simp
  rw [hw, bitsValue_append, ← hw, hd, Nat.shiftRight_eq_div_pow, Nat.add_comm,
    Nat.add_mul_div_right _ _ (Nat.two_pow_pos _), Nat.div_eq_of_lt (hd ▸ bitsValue_lt _),
    Nat.zero_add] at h
  have := bitsValue_inj (by simp; omega) h
  rw [← this]
  exact List.take_prefix _ _

/-- The three kinds of table a good state can hold (R136 to R138): none, the promoted single leaf,
or the paths of a tree whose leaves are the Frequency Table, none longer than 31. -/
theorem goodTable_cases {r : Regs} (h : GoodTable r) :
    (r.ft = [] ∧ r.ct = []) ∨ (∃ e, r.ft = [e] ∧ r.ct = [⟨e.sym, 0, 1⟩]) ∨
    (2 ≤ r.ft.length ∧ ∃ T : CodeTree, Rep r.node r.root.toNat T ∧ T.leaves.Perm r.ft ∧
      (∀ p ∈ T.paths, p.1.length ≤ 31) ∧ r.ct = T.paths.map (pathEntry 0 0)) := by
  obtain ⟨h1, h2, h3, h4, h5⟩ := h
  have hs : sumFt r.ft ≤ 4294967295 := by
    have := r.total.isLt
    rw [h2, sumFt_buildFt, ← h1]
    omega
  rw [Prod.ext_iff] at h3
  obtain ⟨h3a, h3b⟩ := h3
  simp only at h3a h3b
  match hft : r.ft with
  | [] =>
    refine .inl ⟨rfl, ?_⟩
    rw [hft] at h5
    simp [codeTable] at h5
    exact h5
  | [e] =>
    refine .inr (.inl ⟨e, rfl, ?_⟩)
    have h0 : r.node[0]? = some (.leaf e.sym e.cnt) := by rw [h3a, hft]; rfl
    simp [hft, codeTable, h0] at h5
    exact h5.symm
  | a :: b :: rest =>
    right; right
    have h2le : 2 ≤ r.ft.length := by rw [hft]; simp
    obtain ⟨T, hR, hL, hlt⟩ := buildTree_rep (ft := r.ft)
      (by simp only [Config.maxTuples] at h4; omega) hs (by rw [hft]; simp)
    rw [← h3a, ← h3b] at hR
    rw [← h3a, ← h3b] at hlt
    rw [codeTable_walk h2le hR hlt] at h5
    cases hf : T.paths.find? (fun p => decide (31 < p.1.length)) with
    | some p => rw [hf] at h5; cases h5
    | none =>
      rw [hf] at h5
      simp only [Except.ok.injEq] at h5
      refine ⟨by simp, T, hR, hft ▸ hL, ?_, h5.symm⟩
      intro p hp
      have := List.find?_eq_none.1 hf p hp
      simpa using this

end Sys2Proof.Machine
end

