-- ==== Sys2Proof/Laws/Pack.lean ====
section
/-!
SUPPORT. The Bit Packer read on bit strings (R150 to R156): the loop of PACK splits the pending bits
and the code into whole bytes and the bits that stay.
-/

namespace Sys2Proof.Machine

open Sys2Proof.Safety

/-! ### Bytes of a bit string -/

theorem length_bytesOfBits (w : List Bool) : (bytesOfBits w).length = (w.length + 7) / 8 := by
  simp [bytesOfBits]

@[simp] theorem bytesOfBits_nil : bytesOfBits [] = [] := rfl

/-- Whole bytes in front stay bytes of their own. -/
theorem bytesOfBits_append {v w : List Bool} (h : v.length % 8 = 0) :
    bytesOfBits (v ++ w) = bytesOfBits v ++ bytesOfBits w := by
  obtain ⟨n, hn⟩ : ∃ n, v.length = 8 * n := ⟨v.length / 8, by omega⟩
  have h1 : ((v ++ w).length + 7) / 8 = n + (w.length + 7) / 8 := by simp; omega
  have h2 : (v.length + 7) / 8 = n := by omega
  simp only [bytesOfBits, h1, h2, List.range_add, List.map_append, List.map_map]
  congr 1
  · apply List.map_congr_left
    intro q hq
    rw [List.mem_range] at hq
    congr 2
    apply List.map_congr_left
    intro k hk
    rw [List.mem_range] at hk
    rw [List.getD_append _ _ _ _ (by omega)]
  · apply List.map_congr_left
    intro q _
    simp only [Function.comp]
    congr 2
    apply List.map_congr_left
    intro k _
    rw [List.getD_append_right _ _ _ _ (by omega)]
    congr 1
    omega

/-- The byte of up to eight bits: they stand at the top, zeros below (R152). -/
theorem bytesOfBits_short {w : List Bool} (h1 : 1 ≤ w.length) (h8 : w.length ≤ 8) :
    bytesOfBits w = [BitVec.ofNat 8 (bitsValue w * 2 ^ (8 - w.length))] := by
  have hr : (w.length + 7) / 8 = 1 := by omega
  have hb : ((List.range 8).map fun k => w.getD (8 * 0 + k) false) =
      w ++ List.replicate (8 - w.length) false := by
    apply List.ext_getElem
    · simp; omega
    · intro i h _
      simp only [List.getElem_map, List.getElem_range]
      rw [List.getElem_append]
      split
      · rw [List.getD_eq_getElem?_getD]; simp [*]
      · rw [List.getD_eq_getElem?_getD]; simp [*]
  have hz : ∀ n, bitsValue (List.replicate n false) = 0 := by
    intro n
    induction n with
    | zero => rfl
    | succ n ih => rw [List.replicate_succ, bitsValue_cons, ih]; simp
  simp only [bytesOfBits, hr, List.range_one, List.map_cons, List.map_nil, hb, bitsValue_append, hz,
    List.length_replicate, Nat.add_zero]

/-- The bits of a sequence of bytes, put into bytes again. -/
theorem lowBits_append (n m a b : Nat) (hb : b < 2 ^ m) :
    lowBits (n + m) (a * 2 ^ m + b) = lowBits n a ++ lowBits m b := by
  apply bitsValue_inj
  · simp [length_lowBits]
  · rw [bitsValue_append, bitsValue_lowBits, bitsValue_lowBits, bitsValue_lowBits, length_lowBits,
      Nat.mod_eq_of_lt hb, pow_add, Nat.mul_comm (2 ^ n)]
    have := Nat.mod_mul (a := 2 ^ m) (b := 2 ^ n) (x := a * 2 ^ m + b)
    rw [this, Nat.add_comm (a * 2 ^ m) b, Nat.add_mul_mod_self_right, Nat.mod_eq_of_lt hb,
      Nat.add_mul_div_right _ _ (Nat.two_pow_pos m), Nat.div_eq_of_lt hb, Nat.zero_add]
    ring

/-! ### PACK's loop -/

/-- The loop of PACK on the bit string of the accumulator: its whole bytes are emitted, the rest
stays (R150). -/
theorem drainBits_eq : ∀ fuel acc cnt : Nat, cnt ≤ fuel → acc < 2 ^ cnt →
    drainBits fuel acc cnt =
      (bytesOfBits ((lowBits cnt acc).take (8 * (cnt / 8))),
        bitsValue ((lowBits cnt acc).drop (8 * (cnt / 8))), cnt % 8) := by
  intro fuel
  induction fuel with
  | zero =>
    intro acc cnt hc ha
    obtain rfl : cnt = 0 := by omega
    obtain rfl : acc = 0 := by simpa using ha
    rfl
  | succ fuel ih =>
    intro acc cnt hc ha
    unfold drainBits
    by_cases h8 : 8 ≤ cnt
    · obtain ⟨m, rfl⟩ : ∃ m, cnt = 8 + m := ⟨cnt - 8, by omega⟩
      have hm : 8 + m - 8 = m := by omega
      have hq : (8 + m) / 8 = m / 8 + 1 := by omega
      have hr : (8 + m) % 8 = m % 8 := by omega
      have hlt : acc % 2 ^ m < 2 ^ m := Nat.mod_lt _ (Nat.two_pow_pos m)
      have hsplit : lowBits (8 + m) acc = lowBits 8 (acc / 2 ^ m) ++ lowBits m (acc % 2 ^ m) := by
        rw [← lowBits_append 8 m _ _ hlt]
        congr 1
        rw [Nat.mul_comm]
        exact (Nat.div_add_mod acc (2 ^ m)).symm
      have hdiv : acc / 2 ^ m < 2 ^ 8 := by
        rw [Nat.div_lt_iff_lt_mul (Nat.two_pow_pos m), ← pow_add]
        exact ha
      rw [if_pos h8, hm]
      simp only
      rw [ih _ _ (by omega) hlt, hq, hr, hsplit, Nat.mul_add, Nat.mul_one, Nat.add_comm (8 * (m / 8)) 8]
      have hl8 : (lowBits 8 (acc / 2 ^ m)).length = 8 := length_lowBits _ _
      refine Prod.ext ?_ (Prod.ext ?_ rfl)
      · show _ = bytesOfBits _
        have : (lowBits 8 (acc / 2 ^ m) ++ lowBits m (acc % 2 ^ m)).take (8 + 8 * (m / 8)) =
            lowBits 8 (acc / 2 ^ m) ++ (lowBits m (acc % 2 ^ m)).take (8 * (m / 8)) := by
          rw [List.take_append, hl8, List.take_of_length_le (by omega)]
          congr 2
          omega
        rw [this, bytesOfBits_append (by omega), bytesOfBits_short (w := lowBits 8 (acc / 2 ^ m)) (by omega) (by omega), hl8,
          bitsValue_lowBits, Nat.mod_eq_of_lt hdiv, Nat.shiftRight_eq_div_pow]
        simp
      · show _ = bitsValue _
        have : (lowBits 8 (acc / 2 ^ m) ++ lowBits m (acc % 2 ^ m)).drop (8 + 8 * (m / 8)) =
            (lowBits m (acc % 2 ^ m)).drop (8 * (m / 8)) := by
          rw [List.drop_append, hl8, List.drop_of_length_le (by omega), List.nil_append]
          congr 1
          omega
        rw [this]
    · have hq : cnt / 8 = 0 := by omega
      have hr : cnt % 8 = cnt := by omega
      rw [if_neg h8, hq, hr]
      simp [bitsValue_lowBits, Nat.mod_eq_of_lt ha]

/-- PACK's rule on bit strings, when the pending bits and the code fit their counts (R150). -/
theorem packBody_bits {b : Byte} {r : Regs} {e : CtEntry} (hl : lookupSym r.ct b = some e)
    (hr : r.bitlen.toNat + e.len.toNat ≤ Config.maxWord) (ha : r.pacc.toNat < 2 ^ r.pcnt.toNat)
    (hc : e.code.toNat < 2 ^ e.len.toNat) :
    ∃ (pacc : BitVec 7) (pcnt : BitVec 3),
      packBody b r = .done
        { r with
          pacc := pacc
          pcnt := pcnt
          bitlen := r.bitlen + BitVec.ofNat 32 e.len.toNat
          phase := .packing }
        (bytesOfBits ((lowBits r.pcnt.toNat r.pacc.toNat ++ codeBits e).take
          (8 * ((r.pcnt.toNat + e.len.toNat) / 8)))) ∧
      pcnt.toNat = (r.pcnt.toNat + e.len.toNat) % 8 ∧ pacc.toNat < 2 ^ pcnt.toNat ∧
      lowBits pcnt.toNat pacc.toNat =
        (lowBits r.pcnt.toNat r.pacc.toNat ++ codeBits e).drop
          (8 * ((r.pcnt.toNat + e.len.toNat) / 8)) := by
  obtain ⟨n, hn⟩ : ∃ n, r.pcnt.toNat = n := ⟨_, rfl⟩
  obtain ⟨m, hm⟩ : ∃ m, e.len.toNat = m := ⟨_, rfl⟩
  have hacc : (r.pacc.toNat <<< m) ||| e.code.toNat = r.pacc.toNat * 2 ^ m + e.code.toNat := by
    rw [← Nat.shiftLeft_add_eq_or_of_lt (hm ▸ hc), Nat.shiftLeft_eq]
  rw [hn] at ha
  rw [hm] at hc
  have hlt : r.pacc.toNat * 2 ^ m + e.code.toNat < 2 ^ (n + m) := by
    rw [pow_add]
    nlinarith
  have hd := drainBits_eq (n + m) _ _ le_rfl hlt
  rw [lowBits_append n m _ _ hc] at hd
  have e1 : lowBits m e.code.toNat = codeBits e := by rw [codeBits, hm]
  rw [e1] at hd
  obtain ⟨bits, hbits⟩ : ∃ bits, lowBits n r.pacc.toNat ++ codeBits e = bits := ⟨_, rfl⟩
  have hlen : (bits.drop (8 * ((n + m) / 8))).length = (n + m) % 8 := by
    rw [List.length_drop, ← hbits, List.length_append, length_lowBits, codeBits, length_lowBits, hm]
    omega
  have hv := bitsValue_lt (bits.drop (8 * ((n + m) / 8)))
  rw [hlen] at hv
  have h8 : (n + m) % 8 < 8 := Nat.mod_lt _ (by omega)
  have hpw : 2 ^ ((n + m) % 8) ≤ 2 ^ 7 := Nat.pow_le_pow_right (by omega) (by omega)
  have hpc : (BitVec.ofNat 3 ((n + m) % 8)).toNat = (n + m) % 8 := by simp
  have hpa : (BitVec.ofNat 7 (bitsValue (bits.drop (8 * ((n + m) / 8))))).toNat =
      bitsValue (bits.drop (8 * ((n + m) / 8))) := by
    simp only [BitVec.toNat_ofNat]
    omega
  rw [hbits] at hd
  rcases packBody_cases b r with ⟨h, _⟩ | ⟨e', h, h', _⟩ | ⟨e', h, h', hb⟩
  · rw [hl] at h; cases h
  · rw [hl] at h; cases h; omega
  · rw [hl] at h
    cases h
    rw [hn, hm, hacc, hd] at hb
    rw [hn, hm, hbits]
    refine ⟨_, _, hb, hpc, ?_, ?_⟩
    · rw [hpc, hpa]; exact hv
    · rw [hpc, hpa, ← hlen, lowBits_bitsValue]

/-- PACK.END's byte is the byte of the pending bits (R152). -/
theorem padByte_eq {pacc : BitVec 7} {pcnt : BitVec 3} (h : pacc.toNat < 2 ^ pcnt.toNat) :
    padByte pacc pcnt = bytesOfBits (lowBits pcnt.toNat pacc.toNat) := by
  unfold padByte
  split
  · have := pcnt.isLt
    rw [bytesOfBits_short (by simpa [length_lowBits]) (by rw [length_lowBits]; omega), length_lowBits,
      bitsValue_lowBits, Nat.mod_eq_of_lt h, Nat.shiftLeft_eq]
  · have : pcnt.toNat = 0 := by omega
    simp [this]

/-- In TABLE_READY and PACKING, PACK is its own rule. -/
theorem exec_pack {s : State} (h : s.regs.phase = .tableReady ∨ s.regs.phase = .packing) (b : Byte) :
    exec (.pack b) s = finish s (packBody b s.regs) := by
  rw [exec_legal (by simp) (by simp)]
  · rfl
  · rcases h with h | h <;> simp [h]
  · rcases h with h | h <;> simp [h, legalPhases]

/-- In TABLE_READY and PACKING, PACK.END is its own rule. -/
theorem exec_packEnd {s : State} (h : s.regs.phase = .tableReady ∨ s.regs.phase = .packing) :
    exec .packEnd s = finish s (packEndBody s.regs) := by
  rw [exec_legal (by simp) (by simp)]
  · rfl
  · rcases h with h | h <;> simp [h]
  · rcases h with h | h <;> simp [h, legalPhases]

/-- A run of PACKs keeps the pending bits behind the bytes emitted: together they are the bits it
started with and the codes packed (R156). -/
theorem run_packs (S : List Byte) (s : State) (B : List Bool)
    (hp : s.regs.phase = .tableReady ∨ s.regs.phase = .packing)
    (hct : ∀ e ∈ s.regs.ct, e.code.toNat < 2 ^ e.len.toNat)
    (hB : payloadBits s.regs.ct S = some B)
    (hr : s.regs.bitlen.toNat + B.length ≤ 4294967295)
    (ha : s.regs.pacc.toNat < 2 ^ s.regs.pcnt.toNat) :
    ∃ (t : State) (out : List Bool), runInstrs (packsOf S) s = .next t ∧
      (t.regs.phase = .tableReady ∨ t.regs.phase = .packing) ∧ t.regs.ct = s.regs.ct ∧
      t.regs.bitlen.toNat = s.regs.bitlen.toNat + B.length ∧
      t.regs.pacc.toNat < 2 ^ t.regs.pcnt.toNat ∧
      t.outQ = s.outQ ++ bytesOfBits out ∧ out.length % 8 = 0 ∧
      out ++ lowBits t.regs.pcnt.toNat t.regs.pacc.toNat =
        lowBits s.regs.pcnt.toNat s.regs.pacc.toNat ++ B := by
  induction S generalizing s B with
  | nil =>
    simp only [payloadBits, Option.some.injEq] at hB
    subst hB
    exact ⟨s, [], rfl, hp, rfl, by simp, ha, by simp, rfl, by simp⟩
  | cons b S ih =>
    simp only [payloadBits] at hB
    cases hl : lookupSym s.regs.ct b with
    | none => simp [hl] at hB
    | some e =>
      cases hB' : payloadBits s.regs.ct S with
      | none => simp [hl, hB'] at hB
      | some rest =>
        simp only [hl, hB', Option.some.injEq] at hB
        subst hB
        have hle : (codeBits e).length = e.len.toNat := by simp [codeBits, length_lowBits]
        rw [List.length_append, hle] at hr
        obtain ⟨pacc, pcnt, h1, h2, h3, h4⟩ := packBody_bits hl
          (by simp only [Config.maxWord]; omega) ha (hct e (List.mem_of_find?_eq_some hl))
        have hx := exec_pack hp b
        rw [h1, finish_done _ _ _ (by rfl)] at hx
        have hbl : (s.regs.bitlen + BitVec.ofNat 32 e.len.toNat).toNat =
            s.regs.bitlen.toNat + e.len.toNat := by
          simp
          omega
        rw [packsOf, List.map_cons, runInstrs_cons hx]
        generalize hu : completed s _ _ = u
        have u1 : u.regs.phase = .packing := by rw [← hu]; rfl
        have u2 : u.regs.ct = s.regs.ct := by rw [← hu]; rfl
        have u3 : u.regs.bitlen = s.regs.bitlen + BitVec.ofNat 32 e.len.toNat := by rw [← hu]; rfl
        have u4 : u.regs.pacc = pacc ∧ u.regs.pcnt = pcnt := by rw [← hu]; exact ⟨rfl, rfl⟩
        have u5 : u.outQ = s.outQ ++ bytesOfBits ((lowBits s.regs.pcnt.toNat s.regs.pacc.toNat ++
            codeBits e).take (8 * ((s.regs.pcnt.toNat + e.len.toNat) / 8))) := by rw [← hu]; rfl
        obtain ⟨t, out, k1, k2, k3, k4, k5, k6, k7, k8⟩ := ih u rest (.inr u1)
          (by rw [u2]; exact hct) (by rw [u2]; exact hB') (by rw [u3, hbl]; omega)
          (by rw [u4.1, u4.2]; exact h3)
        obtain ⟨bits, hbits⟩ : ∃ bits,
          lowBits s.regs.pcnt.toNat s.regs.pacc.toNat ++ codeBits e = bits := ⟨_, rfl⟩
        have hblen : bits.length = s.regs.pcnt.toNat + e.len.toNat := by
          rw [← hbits, List.length_append, length_lowBits, hle]
        rw [hbits] at u5 h4
        rw [u4.1, u4.2, h4] at k8
        refine ⟨t, bits.take (8 * ((s.regs.pcnt.toNat + e.len.toNat) / 8)) ++ out, k1, k2,
          k3.trans u2, ?_, k5, ?_, ?_, ?_⟩
        · rw [k4, u3, hbl, List.length_append, hle]; omega
        · rw [k6, u5, bytesOfBits_append, List.append_assoc]
          rw [List.length_take]
          omega
        · rw [List.length_append, List.length_take]; omega
        · rw [List.append_assoc, k8, ← List.append_assoc, List.take_append_drop, ← hbits,
            List.append_assoc]

end Sys2Proof.Machine
end

