-- ==== Sys2Proof/Laws/Unpack.lean ====
section
/-!
SUPPORT. The Bit Unpacker read on bit strings (R185 to R189): its accumulator is the bit string
since the last match.
-/

namespace Sys2Proof.Machine

open Sys2Proof.Safety

/-- In UNPACKING, UNPACK is its own rule. -/
theorem exec_unpack {s : State} (h : s.regs.phase = .unpacking) (b : Byte) :
    exec (.unpack b) s = finish s (unpackBody b s.regs) := by
  rw [exec_legal (by simp) (by simp) (by simp [h]) (by simp [h, legalPhases])]
  rfl

/-- The bits of a byte, most significant first, in both spellings (R63). -/
theorem bitsMsb_eq (b : Byte) : bitsMsb b = lowBits 8 b.toNat := by
  unfold bitsMsb lowBits
  apply List.map_congr_left
  intro k hk
  rw [List.mem_range] at hk
  simp [BitVec.getMsbD, hk, BitVec.getLsbD]

/-- The accumulator with room takes one more bit (R186). -/
theorem takeBit_acc {r : Regs} (x : Bool) (hn : r.ucnt.toNat < 32) (ha : r.uacc.toNat < 2 ^ r.ucnt.toNat) :
    ((r.uacc <<< 1) ||| (if x then 1 else 0 : Word32)).toNat = 2 * r.uacc.toNat + x.toNat ∧
    (r.ucnt + 1).toNat = r.ucnt.toNat + 1 ∧
    2 * r.uacc.toNat + x.toNat < 2 ^ (r.ucnt.toNat + 1) := by
  have hp : 2 ^ r.ucnt.toNat ≤ 2 ^ 31 := Nat.pow_le_pow_right (by omega) (by omega)
  have hs : (r.uacc <<< 1).toNat = 2 * r.uacc.toNat := by
    rw [BitVec.toNat_shiftLeft, Nat.shiftLeft_eq]
    omega
  refine ⟨?_, ?_, ?_⟩
  · rw [BitVec.toNat_or, hs]
    have h2 : 2 * r.uacc.toNat = r.uacc.toNat <<< 1 := by rw [Nat.shiftLeft_eq]; ring
    have : x.toNat < 2 ^ 1 := by cases x <;> simp
    rw [h2, Nat.shiftLeft_add_eq_or_of_lt this]
    cases x <;> rfl
  · rw [BitVec.toNat_add]
    have : (1 : BitVec 6).toNat = 1 := rfl
    omega
  · rw [pow_succ]
    cases x <;> simp <;> omega

/-- One more low bit at the end. -/
theorem lowBits_snoc (n v : Nat) (x : Bool) : lowBits (n + 1) (2 * v + x.toNat) = lowBits n v ++ [x] := by
  have h := lowBits_append n 1 v x.toNat (by cases x <;> simp)
  rw [pow_one, Nat.mul_comm] at h
  rw [h]
  congr 1
  cases x <;> rfl

/-- Matching a code exactly as matching its bit string (R187). -/
theorem matchCode_eq {ct : List CtEntry} {acc : Word32} {n : BitVec 6} {seen : List Bool}
    (hl : seen.length = n.toNat) (hv : bitsValue seen = acc.toNat) :
    matchCode ct acc n.toNat =
      ct.find? fun e => e.code.toNat == bitsValue seen && e.len.toNat == seen.length := by
  unfold matchCode
  rw [hl, hv]
  congr 1
  funext e
  congr 1
  rw [Bool.eq_iff_iff, beq_iff_eq, beq_iff_eq, BitVec.toNat_inj]

/-- The unpacker's rule is the bit string decoder on the bits up to the stop at BITLEN (R185 to
R189). -/
theorem takeBits_eq (xs : List Bool) : ∀ r : Regs, r.ucons.toNat ≤ r.bitlen.toNat →
    r.ucnt.toNat ≤ 32 → r.uacc.toNat < 2 ^ r.ucnt.toNat →
    match readBits r.ct (lowBits r.ucnt.toNat r.uacc.toNat)
      (xs.take (r.bitlen.toNat - r.ucons.toNat)) with
    | .ok (pending, out) =>
      ∃ (uacc : Word32) (ucnt : BitVec 6), takeBits xs r = .done
          { r with
            uacc := uacc
            ucnt := ucnt
            ucons := r.ucons + BitVec.ofNat 32 (xs.take (r.bitlen.toNat - r.ucons.toNat)).length } out ∧
        lowBits ucnt.toNat uacc.toNat = pending ∧ ucnt.toNat ≤ 32 ∧ uacc.toNat < 2 ^ ucnt.toNat
    | .error n => takeBits xs r = .raised .formatNocode (r.ucons + BitVec.ofNat 32 n) := by
  induction xs with
  | nil =>
    intro r _ hn ha
    simp only [List.take_nil, readBits, takeBits]
    exact ⟨r.uacc, r.ucnt, by simp, rfl, hn, ha⟩
  | cons x xs ih =>
    intro r hc hn ha
    unfold takeBits
    by_cases he : r.ucons = r.bitlen
    · have h0 : r.bitlen.toNat - r.ucons.toNat = 0 := by rw [he]; omega
      rw [if_pos he, h0, List.take_zero]
      simp only [readBits]
      exact ⟨r.uacc, r.ucnt, by simp, rfl, hn, ha⟩
    · rw [if_neg he]
      have hlt : r.ucons.toNat < r.bitlen.toNat := by
        rcases Nat.lt_or_eq_of_le hc with h | h
        · exact h
        · exact absurd (BitVec.eq_of_toNat_eq h) he
      obtain ⟨m, hm⟩ : ∃ m, r.bitlen.toNat - r.ucons.toNat = m + 1 :=
        ⟨r.bitlen.toNat - r.ucons.toNat - 1, by omega⟩
      rw [hm, List.take_succ_cons]
      simp only [readBits, length_lowBits]
      by_cases h32 : r.ucnt.toNat = 32
      · rw [if_pos (show r.ucnt.toNat = Config.uaccWidth from h32), if_pos h32]
        simp
      · rw [if_neg (show ¬r.ucnt.toNat = Config.uaccWidth from h32), if_neg h32]
        obtain ⟨t1, t2, t3⟩ := takeBit_acc x (by omega) ha
        have hsnoc := lowBits_snoc r.ucnt.toNat r.uacc.toNat x
        have hcons : (r.ucons + 1).toNat = r.ucons.toNat + 1 := by
          have := r.bitlen.isLt
          rw [BitVec.toNat_add]
          have : (1 : Word32).toNat = 1 := rfl
          omega
        have hadd : ∀ k : Nat, r.ucons + 1 + BitVec.ofNat 32 k = r.ucons + BitVec.ofNat 32 (k + 1) := by
          intro k
          rw [BitVec.ofNat_add, BitVec.add_assoc, BitVec.add_comm (BitVec.ofNat 32 k)]
          rfl
        have hmatch := matchCode_eq (ct := r.ct) (acc := (r.uacc <<< 1) ||| (if x then 1 else 0 : Word32))
          (n := r.ucnt + 1) (seen := lowBits r.ucnt.toNat r.uacc.toNat ++ [x])
          (by rw [List.length_append, length_lowBits, t2]; rfl)
          (by rw [← hsnoc, bitsValue_lowBits, Nat.mod_eq_of_lt t3, t1])
        simp only [takeBit]
        rw [hmatch]
        cases (r.ct.find? fun e => e.code.toNat == bitsValue (lowBits r.ucnt.toNat r.uacc.toNat ++ [x]) &&
            e.len.toNat == (lowBits r.ucnt.toNat r.uacc.toNat ++ [x]).length) with
        | some e =>
          have := ih { r with uacc := 0, ucnt := 0, ucons := r.ucons + 1 } (by simp only [hcons]; omega)
            (by simp) (by simp)
          simp only [hcons] at this
          rw [show r.bitlen.toNat - (r.ucons.toNat + 1) = m by omega] at this
          simp only [show lowBits (0 : BitVec 6).toNat (0 : Word32).toNat = [] from rfl] at this
          simp only
          cases hrb : readBits r.ct [] (xs.take m) with
          | error n =>
            rw [hrb] at this
            simp only at this ⊢
            rw [this, hadd]
          | ok po =>
            rw [hrb] at this
            obtain ⟨p, out⟩ := po
            obtain ⟨ua, uc, h1, h2⟩ := this
            simp only at h1 ⊢
            refine ⟨ua, uc, ?_, h2⟩
            rw [h1]
            simp only [hadd, List.length_cons, List.singleton_append]
        | none =>
          have := ih { r with uacc := (r.uacc <<< 1) ||| (if x then 1 else 0), ucnt := r.ucnt + 1, ucons := r.ucons + 1 }
            (by simp only [hcons]; omega) (by simp only [t2]; omega) (by simp only [t1, t2]; exact t3)
          simp only [hcons, t1, t2] at this
          rw [show r.bitlen.toNat - (r.ucons.toNat + 1) = m by omega, hsnoc] at this
          simp only
          cases hrb : readBits r.ct (lowBits r.ucnt.toNat r.uacc.toNat ++ [x]) (xs.take m) with
          | error n =>
            rw [hrb] at this
            simp only at this ⊢
            rw [this, hadd]
          | ok po =>
            rw [hrb] at this
            obtain ⟨p, out⟩ := po
            obtain ⟨ua, uc, h1, h2⟩ := this
            simp only at h1 ⊢
            refine ⟨ua, uc, ?_, h2⟩
            rw [h1]
            simp only [hadd, List.length_cons, List.nil_append]

end Sys2Proof.Machine
end

