-- ==== Sys2Proof/Laws/Good.lean ====
section
/-!
SUPPORT. The good states: what each command's rule does to them (R43).
-/

namespace Sys2Proof.Machine

open Sys2Proof.Safety

/-- What a stage asks of the record does not depend on the status registers. -/
theorem goodStage_status {r : Regs} {p : Phase} (h : GoodStage r p) (ph : Phase) (e : ErrorCode)
    (info : Word32) (ep : Phase) :
    GoodStage { r with phase := ph, err := e, errInfo := info, ephase := ep } p := by
  obtain ⟨_, _, _, _, _, _, _, _, _, _, _, _, _, _, _, _, _, _, _, _, _⟩ := r
  cases p <;> simp only [GoodStage, GoodTable, fresh, Regs.mk.injEq, true_and, and_true] at h ⊢ <;>
    exact h

/-- A good state of a phase other than ERROR is good for that phase. -/
theorem good_stage {s : State} (h : GoodState s) (hp : s.regs.phase ≠ .error) :
    GoodStage s.regs s.regs.phase := by
  have := h.2
  rwa [Regs.stage, if_neg hp] at this

/-- Error entry leaves a good state good: the record is frozen (R43, R227). -/
theorem good_errorEntry {s : State} (h : GoodState s) (hp : s.regs.phase ≠ .error) {e : ErrorCode}
    (he : e ≠ .noError) (info : Word32) : GoodState (errorEntry s e info) := by
  refine ⟨⟨fun hc => absurd rfl hc, fun _ => ⟨he, hp⟩⟩, ?_⟩
  show GoodStage _ (Regs.stage _)
  rw [Regs.stage, if_pos (by rfl)]
  exact goodStage_status (good_stage h hp) _ _ _ _

/-- The reset record is good. -/
theorem good_of_reset {s : State} (h : s.regs = Regs.reset) : GoodState s := by
  rw [GoodState, h]
  exact ⟨⟨fun _ => ⟨rfl, rfl, rfl⟩, fun hc => nomatch hc⟩, rfl⟩

theorem sumCnt_replicate : sumCnt Regs.reset.cnt = 0 := by
  simp only [sumCnt, counter_reset]
  generalize allSymbols = l
  induction l with
  | nil => rfl
  | cons b l ih => rw [List.map_cons, List.sum_cons, ih]; rfl

theorem sum_bump_aux (cnt : Vector Word32 256) (b : Byte) (hb : (counter cnt b).toNat + 1 < 2 ^ 32)
    (l : List Byte) (hl : l.Nodup) :
    (l.map fun c => (counter (bump cnt b) c).toNat).sum =
      (l.map fun c => (counter cnt c).toNat).sum + if b ∈ l then 1 else 0 := by
  induction l with
  | nil => simp
  | cons a l ih =>
    rw [List.nodup_cons] at hl
    rw [List.map_cons, List.map_cons, List.sum_cons, List.sum_cons, ih hl.2, counter_bump]
    by_cases h : b = a
    · subst h
      rw [if_pos rfl, if_neg hl.1, if_pos (by simp), BitVec.toNat_add]
      have : (1 : Word32).toNat = 1 := rfl
      omega
    · rw [if_neg h]
      by_cases hm : b ∈ l
      · rw [if_pos hm, if_pos (by simp [hm])]; omega
      · rw [if_neg hm, if_neg (by simp [h, hm])]; omega

theorem counter_le_sumCnt (cnt : Vector Word32 256) (b : Byte) : (counter cnt b).toNat ≤ sumCnt cnt := by
  have hm := mem_allSymbols b
  unfold sumCnt
  generalize allSymbols = l at hm ⊢
  exact List.le_sum_of_mem (List.mem_map_of_mem hm)

/-- One increment adds one to the sum of the counters, while there is room. -/
theorem sumCnt_bump (cnt : Vector Word32 256) (b : Byte) (h : sumCnt cnt + 1 ≤ 4294967295) :
    sumCnt (bump cnt b) = sumCnt cnt + 1 := by
  have := counter_le_sumCnt cnt b
  have := sum_bump_aux cnt b (by omega) allSymbols nodup_allSymbols
  rwa [if_pos (mem_allSymbols b)] at this

theorem sumCnt_foldl_bump (lanes : List Byte) : ∀ cnt : Vector Word32 256,
    sumCnt cnt + lanes.length ≤ 4294967295 → sumCnt (lanes.foldl bump cnt) = sumCnt cnt + lanes.length := by
  induction lanes with
  | nil => intro cnt _; simp
  | cons b bs ih =>
    intro cnt h
    rw [List.length_cons] at h
    have h1 := sumCnt_bump cnt b (by omega)
    rw [List.foldl_cons, ih _ (by omega), h1, List.length_cons]
    omega

/-! ### One command -/

theorem good_count {r : Regs} (h : GoodStage r r.phase) (hp : r.phase = .idle ∨ r.phase = .counting)
    {lanes : List Byte} {r' : Regs} {out : List Byte} (hd : countBody lanes r = .done r' out) :
    out = [] ∧ GoodStage r' r'.phase := by
  rcases countBody_cases lanes r with ⟨_, h'⟩ | ⟨hr, h'⟩ <;> rw [h'] at hd <;> cases hd
  refine ⟨rfl, ?_⟩
  simp only [Config.maxWord] at hr
  rcases hp with hp | hp
  · rw [hp] at h
    have h : r = fresh r := h
    have h1 : r.cnt = Regs.reset.cnt := by rw [h]; rfl
    have h2 : r.total = 0 := by rw [h]; rfl
    have h0 : sumCnt r.cnt = 0 := by rw [h1]; exact sumCnt_replicate
    rw [h2] at hr
    have hr : lanes.length ≤ 4294967295 := by simpa using hr
    refine ⟨?_, ?_⟩
    · show _ = _
      generalize lanes.foldl bump r.cnt = x
      generalize r.total + _ = y
      rw [h]; rfl
    · show (r.total + BitVec.ofNat 32 lanes.length).toNat = sumCnt (lanes.foldl bump r.cnt)
      rw [sumCnt_foldl_bump _ _ (by omega), h0, h2]
      simp
      omega
  · rw [hp] at h
    obtain ⟨h, hs⟩ := h
    refine ⟨?_, ?_⟩
    · show _ = _
      generalize lanes.foldl bump r.cnt = x
      generalize r.total + _ = y
      rw [h]; rfl
    · show (r.total + BitVec.ofNat 32 lanes.length).toNat = sumCnt (lanes.foldl bump r.cnt)
      rw [sumCnt_foldl_bump _ _ (by omega), ← hs]
      simp
      omega

theorem good_ftbuild {r : Regs} (h : GoodStage r r.phase) (hp : r.phase = .idle ∨ r.phase = .counting) :
    GoodStage { r with ft := buildFt r.cnt, phase := .ftReady } .ftReady := by
  rcases hp with hp | hp <;> rw [hp] at h
  · have h : r = fresh r := h
    refine ⟨?_, ?_, rfl⟩
    · generalize buildFt r.cnt = x
      rw [h]; rfl
    · show r.total.toNat = sumCnt r.cnt
      have h1 : r.cnt = Regs.reset.cnt := by rw [h]; rfl
      have h2 : r.total = 0 := by rw [h]; rfl
      rw [h1, h2, sumCnt_replicate]
      rfl
  · obtain ⟨h, hs⟩ := h
    refine ⟨?_, hs, rfl⟩
    generalize buildFt r.cnt = x
    rw [h]; rfl

theorem good_tree {r : Regs} (h : GoodStage r .ftReady) :
    GoodStage { r with node := (buildTree r.ft).1, root := (buildTree r.ft).2, phase := .treeReady }
      .treeReady := by
  obtain ⟨h, h1, h2⟩ := h
  refine ⟨?_, h1, h2, rfl⟩
  generalize buildTree r.ft = x
  rw [h]; rfl

theorem good_codegen {r : Regs} (h : GoodStage r .treeReady) {t : List CtEntry}
    (hl : r.ft.length ≤ Config.maxTuples) (ht : codeTable r.ft.length r.node r.root = .ok t) :
    GoodStage { r with ct := t, phase := .tableReady } .tableReady := by
  obtain ⟨h, h1, h2, h3⟩ := h
  refine ⟨?_, h1, h2, h3, hl, ht⟩
  rw [h]; rfl

/-- Every code of a good table has 1 to 31 bits and fits them (R141 (a), (b)). -/
theorem goodTable_entry {r : Regs} (hg : GoodTable r) :
    ∀ e ∈ r.ct, 1 ≤ e.len.toNat ∧ e.len.toNat ≤ 31 ∧ e.code.toNat < 2 ^ e.len.toNat := by
  intro e he
  rcases goodTable_cases hg with ⟨h1, h2⟩ | ⟨x, h1, h2⟩ | ⟨h2, T, hR, hL, hd, hct⟩
  · rw [h2] at he; simp at he
  · rw [h2] at he
    simp only [List.mem_singleton] at he
    subst he
    exact ⟨Nat.le_refl 1, by show 1 ≤ 31; omega, by show 0 < 2 ^ 1; omega⟩
  · rw [hct] at he
    obtain ⟨p, hp, rfl⟩ := List.mem_map.1 he
    obtain ⟨_, e2, e3, _⟩ := pathEntry_root (hd p hp)
    rw [e2, e3]
    refine ⟨?_, hd p hp, bitsValue_lt _⟩
    cases T with
    | leaf => have := hL.length_eq; simp [CodeTree.leaves] at this; omega
    | node l r =>
      simp only [CodeTree.paths, List.mem_append, List.mem_map] at hp
      rcases hp with ⟨_, _, rfl⟩ | ⟨_, _, rfl⟩ <;> simp

theorem good_pack {r : Regs} (h : GoodStage r r.phase) (hp : r.phase = .tableReady ∨ r.phase = .packing)
    {b : Byte} {r' : Regs} {out : List Byte} (hd : packBody b r = .done r' out) :
    GoodStage { r' with outcnt := r'.outcnt + BitVec.ofNat 32 out.length } .packing := by
  have hpk : GoodStage r .packing := by
    rcases hp with hp | hp <;> rw [hp] at h
    · obtain ⟨h1, h2⟩ := h
      have hz : r.pcnt = 0 ∧ r.pacc = 0 ∧ r.bitlen = 0 ∧ r.outcnt = 0 := by
        rw [h1]; exact ⟨rfl, rfl, rfl, rfl⟩
      refine ⟨?_, h2, ?_⟩
      · rw [h1]; rfl
      · rw [hz.1, hz.2.1, hz.2.2.1, hz.2.2.2]; decide
    · exact h
  obtain ⟨h1, h2, h3, h4, h5⟩ := hpk
  rcases packBody_cases b r with ⟨_, h'⟩ | ⟨e, _, _, h'⟩ | ⟨e, hl, hr, _⟩
  · rw [h'] at hd; cases hd
  · rw [h'] at hd; cases hd
  · obtain ⟨e1, e2, e3⟩ := goodTable_entry h2 e (List.mem_of_find?_eq_some hl)
    obtain ⟨pacc, pcnt, k1, k2, k3, k4⟩ := packBody_bits hl hr h4 e3
    rw [k1] at hd
    cases hd
    simp only [Config.maxWord] at hr
    have hb : (r.bitlen + BitVec.ofNat 32 e.len.toNat).toNat = r.bitlen.toNat + e.len.toNat := by
      simp
      omega
    have hlen : (lowBits r.pcnt.toNat r.pacc.toNat ++ codeBits e).length = r.pcnt.toNat + e.len.toNat := by
      rw [List.length_append, length_lowBits, codeBits, length_lowBits]
    have hout : (bytesOfBits ((lowBits r.pcnt.toNat r.pacc.toNat ++ codeBits e).take
        (8 * ((r.pcnt.toNat + e.len.toNat) / 8)))).length = (r.pcnt.toNat + e.len.toNat) / 8 := by
      rw [length_bytesOfBits, List.length_take, hlen]
      omega
    have hp7 := r.pcnt.isLt
    refine ⟨?_, h2, ?_, k3, ?_⟩
    · simp only
      rw [hout]
      generalize r.outcnt + _ = x
      generalize r.bitlen + _ = y
      rw [h1]; rfl
    · show pcnt.toNat = (r.bitlen + BitVec.ofNat 32 e.len.toNat).toNat % 8
      rw [hb, k2, h3]
      omega
    · show (r.outcnt + BitVec.ofNat 32 _).toNat = (r.bitlen + BitVec.ofNat 32 e.len.toNat).toNat / 8
      rw [hb, hout, BitVec.toNat_add, BitVec.toNat_ofNat]
      omega

theorem good_packEnd {r : Regs} (h : GoodStage r r.phase)
    (hp : r.phase = .tableReady ∨ r.phase = .packing) :
    GoodStage
      { r with
        pacc := 0, pcnt := 0, phase := .packDone
        outcnt := r.outcnt + BitVec.ofNat 32 (padByte r.pacc r.pcnt).length } .packDone := by
  have hpk : GoodStage r .packing := by
    rcases hp with hp | hp <;> rw [hp] at h
    · obtain ⟨h1, h2⟩ := h
      have hz : r.pcnt = 0 ∧ r.pacc = 0 ∧ r.bitlen = 0 ∧ r.outcnt = 0 := by
        rw [h1]; exact ⟨rfl, rfl, rfl, rfl⟩
      refine ⟨?_, h2, ?_⟩
      · rw [h1]; rfl
      · rw [hz.1, hz.2.1, hz.2.2.1, hz.2.2.2]; decide
    · exact h
  obtain ⟨h1, h2, h3, h4, h5⟩ := hpk
  have hl : (padByte r.pacc r.pcnt).length = (r.bitlen.toNat % 8 + 7) / 8 := by
    rw [padByte_eq h4, length_bytesOfBits, length_lowBits, h3]
  refine ⟨?_, h2, ?_⟩
  · generalize r.outcnt + _ = x
    rw [h1]; rfl
  · show (r.outcnt + BitVec.ofNat 32 _).toNat = (r.bitlen.toNat + 7) / 8
    have := r.bitlen.isLt
    rw [hl, BitVec.toNat_add, BitVec.toNat_ofNat]
    omega

theorem good_hdrWr {r : Regs} (h : GoodStage r .packDone) :
    GoodStage
      { r with
        hdrsize := BitVec.ofNat 11 (headerSize r.ct.length), phase := .encDone
        outcnt := r.outcnt + BitVec.ofNat 32 (headerBytes r.bitlen r.ct).length } .encDone := by
  obtain ⟨h1, h2, h3⟩ := h
  have hct : r.ct.length ≤ 255 := by
    obtain ⟨g1, g2, g3, g4, g5⟩ := h2
    simp only [Config.maxTuples] at g4
    rcases goodTable_cases ⟨g1, g2, g3, g4, g5⟩ with ⟨_, h2⟩ | ⟨x, _, h2⟩ | ⟨_, T, _, hL, _, hct⟩
    · rw [h2]; simp
    · rw [h2]; simp
    · rw [hct, List.length_map, length_paths, hL.length_eq]; exact g4
  have hz : (BitVec.ofNat 11 (headerSize r.ct.length)).toNat = 8 + 6 * r.ct.length := by
    simp only [headerSize, Config.hdrFix, Config.recSize, BitVec.toNat_ofNat]
    omega
  refine ⟨?_, h2, hz, ?_⟩
  · generalize r.outcnt + _ = x
    generalize BitVec.ofNat 11 _ = y
    rw [h1]; rfl
  · show (r.outcnt + BitVec.ofNat 32 _).toNat = (r.bitlen.toNat + 7) / 8 +
      (BitVec.ofNat 11 (headerSize r.ct.length)).toNat
    have := r.bitlen.isLt
    rw [hz, length_headerBytes, BitVec.toNat_add, BitVec.toNat_ofNat]
    omega

/-- What HDR_PARSE asks, with IDLE as its start at offset 0. -/
theorem good_parse_start {r : Regs} (h : GoodStage r r.phase) (hp : r.phase = .idle ∨ r.phase = .hdrParse) :
    r = { fresh r with
          bitlen := r.bitlen, hdrsize := r.hdrsize, ct := r.ct,
          hpos := r.hpos, hsym := r.hsym, hcode := r.hcode } ∧
    (r.hpos.toNat < 8 → r.hdrsize = 0) ∧
    (8 ≤ r.hpos.toNat →
      r.hpos.toNat < r.hdrsize.toNat ∧ ∃ k : Nat, k ≤ 255 ∧ r.hdrsize.toNat = 8 + 6 * k) ∧
    r.ct.length = (r.hpos.toNat - 8) / 6 := by
  rcases hp with hp | hp <;> rw [hp] at h
  · have h : r = fresh r := h
    have hz : r.hpos = 0 ∧ r.hdrsize = 0 ∧ r.ct = [] := by rw [h]; exact ⟨rfl, rfl, rfl⟩
    refine ⟨by rw [h]; rfl, fun _ => hz.2.1, fun h8 => ?_, ?_⟩
    · rw [hz.1] at h8; exact absurd (show 8 ≤ 0 from h8) (by omega)
    · rw [hz.2.2, hz.1]; rfl
  · obtain ⟨h1, _, h2, h3, h4⟩ := h
    exact ⟨h1, h2, h3, h4⟩

/-- The number of complete records before offset `p + 1`. -/
theorem records_succ {p : Nat} (h : 8 ≤ p) :
    (p + 1 - 8) / 6 = (p - 8) / 6 + if (p - 8) % 6 = 5 then 1 else 0 := by
  split <;> omega

theorem good_hdrRd {r : Regs} (h : GoodStage r r.phase) (hp : r.phase = .idle ∨ r.phase = .hdrParse)
    (b : Byte) :
    GoodStage (advanceHeader r.hpos.toNat (storeHeaderByte r.hpos.toNat b r))
      (advanceHeader r.hpos.toNat (storeHeaderByte r.hpos.toNat b r)).phase := by
  obtain ⟨h1, h2, h3, h4⟩ := good_parse_start h hp
  obtain ⟨p, hpos⟩ : ∃ p, r.hpos.toNat = p := ⟨_, rfl⟩
  rw [hpos] at h2 h3 h4
  rw [hpos]
  have hf := storeHeaderByte_frame p b r
  generalize hR : storeHeaderByte p b r = R at *
  have hfr : advanceHeader p R = { fresh (advanceHeader p R) with
      bitlen := R.bitlen, hdrsize := R.hdrsize, ct := R.ct,
      hpos := BitVec.ofNat 11 (p + 1), hsym := R.hsym, hcode := R.hcode } := by
    rw [advanceHeader, hf]
    simp only
    generalize (if 8 ≤ p + 1 ∧ p + 1 = R.hdrsize.toNat then Phase.unpacking else Phase.hdrParse) = q
    rw [h1]
    rfl
  have hp1 : p + 1 < 2048 := by
    by_cases h8 : 8 ≤ p
    · obtain ⟨_, k, _, _⟩ := h3 h8; omega
    · omega
  have hpn : (BitVec.ofNat 11 (p + 1)).toNat = p + 1 := by
    simp only [BitVec.toNat_ofNat]; omega
  -- HDRSIZE and CT of the new record
  have hsz : (p + 1 < 8 → R.hdrsize = 0) ∧
      (8 ≤ p + 1 → ∃ k : Nat, k ≤ 255 ∧ R.hdrsize.toNat = 8 + 6 * k ∧ p + 1 ≤ 8 + 6 * k) ∧
      R.ct.length = (p + 1 - 8) / 6 := by
    rcases (by omega : p < 3 ∨ (3 ≤ p ∧ p ≤ 6) ∨ p = 7 ∨ (8 ≤ p ∧ (p - 8) % 6 = 0) ∨
      (8 ≤ p ∧ (p - 8) % 6 = 5) ∨ (8 ≤ p ∧ ∃ k, k < 4 ∧ (p - 8) % 6 = k + 1) ∨
      (8 ≤ p ∧ 1 ≤ (p - 8) % 6 ∧ (p - 8) % 6 ≤ 4)) with h | h | h | h | h | h | h
    · rw [storeHeaderByte_magic h] at hR
      subst hR
      exact ⟨fun _ => h2 (by omega), fun h8 => by omega, by rw [h4]; omega⟩
    · rw [storeHeaderByte_bitlen h.1 h.2] at hR
      subst hR
      exact ⟨fun _ => h2 (by omega), fun h8 => by omega, by rw [h4]; omega⟩
    · subst h
      rw [storeHeaderByte_count] at hR
      subst hR
      refine ⟨fun h8 => by omega, fun _ => ⟨b.toNat, by have := b.isLt; omega, ?_, by omega⟩, h4⟩
      have := b.isLt
      simp only [headerSize, Config.hdrFix, Config.recSize, BitVec.toNat_ofNat]
      omega
    · rw [storeHeaderByte_sym h.1 h.2] at hR
      subst hR
      obtain ⟨k1, k, k2, k3⟩ := h3 h.1
      exact ⟨fun h8 => by omega, fun _ => ⟨k, k2, k3, by omega⟩, by rw [h4, records_succ (by omega), if_neg (by omega)]; rfl⟩
    · rw [storeHeaderByte_len h.1 h.2] at hR
      subst hR
      obtain ⟨k1, k, k2, k3⟩ := h3 h.1
      refine ⟨fun h8 => by omega, fun _ => ⟨k, k2, k3, by omega⟩, ?_⟩
      rw [records_succ h.1, if_pos h.2, ← h4]
      simp
    · obtain ⟨h8, j, hj, he⟩ := h
      rw [storeHeaderByte_code h8 he hj] at hR
      subst hR
      obtain ⟨k1, k, k2, k3⟩ := h3 h8
      exact ⟨fun h8 => by omega, fun _ => ⟨k, k2, k3, by omega⟩, by rw [h4, records_succ (by omega), if_neg (by omega)]; rfl⟩
    · rw [storeHeaderByte_code (k := (p - 8) % 6 - 1) h.1 (by omega) (by omega)] at hR
      subst hR
      obtain ⟨k1, k, k2, k3⟩ := h3 h.1
      exact ⟨fun h8 => by omega, fun _ => ⟨k, k2, k3, by omega⟩, by rw [h4, records_succ (by omega), if_neg (by omega)]; rfl⟩
  obtain ⟨z1, z2, z3⟩ := hsz
  by_cases hc : 8 ≤ p + 1 ∧ p + 1 = R.hdrsize.toNat
  · have hph : (advanceHeader p R).phase = .unpacking := by simp only [advanceHeader, if_pos hc]
    rw [hph]
    obtain ⟨k, k1, k2, k3⟩ := z2 hc.1
    have hu : R.ucons = 0 ∧ R.ucnt = 0 ∧ R.uacc = 0 ∧ R.outcnt = 0 := by
      rw [hf, h1]; exact ⟨rfl, rfl, rfl, rfl⟩
    refine ⟨?_, ?_, ?_, ?_, ?_, ?_, ?_, ?_⟩
    · show advanceHeader p R = _
      rw [hfr]
      simp only [advanceHeader, hu]
      rfl
    · show R.ct.length ≤ Config.maxTuples
      simp only [Config.maxTuples]; omega
    · show BitVec.ofNat 11 (p + 1) = R.hdrsize
      apply BitVec.eq_of_toNat_eq; rw [hpn]; exact hc.2
    · show R.hdrsize.toNat = 8 + 6 * R.ct.length
      omega
    · show R.ucons.toNat ≤ R.bitlen.toNat
      rw [hu.1]; simp
    · show R.ucnt.toNat ≤ 32
      rw [hu.2.1]; simp
    · show R.uacc.toNat < 2 ^ R.ucnt.toNat
      rw [hu.2.1, hu.2.2.1]; simp
    · show R.outcnt.toNat ≤ R.ucons.toNat
      rw [hu.1, hu.2.2.2]
  · have hph : (advanceHeader p R).phase = .hdrParse := by simp only [advanceHeader, if_neg hc]
    rw [hph]
    refine ⟨hfr, ?_, ?_, ?_, ?_⟩
    · show 1 ≤ (BitVec.ofNat 11 (p + 1)).toNat; omega
    · show (BitVec.ofNat 11 (p + 1)).toNat < 8 → R.hdrsize = 0
      rw [hpn]; exact z1
    · show 8 ≤ (BitVec.ofNat 11 (p + 1)).toNat → _
      rw [hpn]
      intro h8
      obtain ⟨k, k1, k2, k3⟩ := z2 h8
      refine ⟨?_, k, k1, k2⟩
      show (BitVec.ofNat 11 (p + 1)).toNat < R.hdrsize.toNat
      rw [hpn]
      have : p + 1 ≠ R.hdrsize.toNat := fun e => hc ⟨h8, e⟩
      omega
    · show R.ct.length = ((BitVec.ofNat 11 (p + 1)).toNat - 8) / 6
      rw [hpn]; exact z3

/-- UNPACK keeps the bounds of its registers, and each symbol costs a bit at least. -/
theorem takeBits_bounds (xs : List Bool) : ∀ (r r' : Regs) (out : List Byte),
    takeBits xs r = .done r' out → r.ucons.toNat ≤ r.bitlen.toNat → r.ucnt.toNat ≤ 32 →
    r.uacc.toNat < 2 ^ r.ucnt.toNat →
    r'.ucons.toNat ≤ r'.bitlen.toNat ∧ r'.ucnt.toNat ≤ 32 ∧ r'.uacc.toNat < 2 ^ r'.ucnt.toNat ∧
    r.ucons.toNat + out.length ≤ r'.ucons.toNat := by
  induction xs with
  | nil => intro r r' out h h1 h2 h3; cases h; exact ⟨h1, h2, h3, by simp⟩
  | cons x xs ih =>
    intro r r' out h h1 h2 h3
    unfold takeBits at h
    split at h
    · cases h; exact ⟨h1, h2, h3, by simp⟩
    · rename_i he
      split at h
      · cases h
      · rename_i h32
        have h32 : ¬r.ucnt.toNat = 32 := h32
        obtain ⟨t1, t2, t3⟩ := takeBit_acc x (by omega) h3
        have hcons : (r.ucons + 1).toNat = r.ucons.toNat + 1 := by
          have := r.bitlen.isLt
          have : r.ucons.toNat ≠ r.bitlen.toNat := fun e => he (BitVec.eq_of_toNat_eq e)
          rw [BitVec.toNat_add]
          have : (1 : Word32).toNat = 1 := rfl
          omega
        have hlt : r.ucons.toNat < r.bitlen.toNat := by
          have : r.ucons.toNat ≠ r.bitlen.toNat := fun e => he (BitVec.eq_of_toNat_eq e)
          omega
        simp only at h
        cases ht : takeBits xs (takeBit x r).1 with
        | raised e info => rw [ht] at h; cases h
        | stuck f => rw [ht] at h; cases h
        | done r2 out2 =>
          rw [ht] at h
          cases h
          have hb : (takeBit x r).1.ucons = r.ucons + 1 ∧ (takeBit x r).1.bitlen = r.bitlen := by
            rw [takeBit_frame]; exact ⟨rfl, rfl⟩
          have hout : (takeBit x r).2.length ≤ 1 := by
            unfold takeBit; simp only; split <;> simp
          have hua : (takeBit x r).1.ucnt.toNat ≤ 32 ∧
              (takeBit x r).1.uacc.toNat < 2 ^ (takeBit x r).1.ucnt.toNat := by
            unfold takeBit
            simp only
            split
            · simp
            · simp only [t1, t2]; exact ⟨by omega, t3⟩
          obtain ⟨i1, i2, i3, i4⟩ := ih _ _ _ ht (by rw [hb.1, hb.2, hcons]; omega) hua.1 hua.2
          refine ⟨i1, i2, i3, ?_⟩
          rw [hb.1, hcons] at i4
          rw [List.length_append]
          omega

theorem good_unpack {r : Regs} (h : GoodStage r .unpacking) {b : Byte} {r' : Regs} {out : List Byte}
    (hd : unpackBody b r = .done r' out) :
    GoodStage { r' with outcnt := r'.outcnt + BitVec.ofNat 32 out.length } .unpacking := by
  obtain ⟨h1, h2, h3, h4, h5, h6, h7, h8⟩ := h
  obtain ⟨k1, k2, k3, k4⟩ := takeBits_bounds _ _ _ _ hd h5 h6 h7
  have hf := takeBits_frame hd
  have hlt := r'.ucons.isLt
  refine ⟨?_, ?_, ?_, ?_, k1, k2, k3, ?_⟩
  · simp only
    generalize r'.outcnt + _ = x
    rw [hf]
    simp only
    generalize r'.uacc = a
    generalize r'.ucnt = b
    generalize r'.ucons = c
    rw [h1]
    rfl
  · rw [hf]; exact h2
  · rw [hf]; exact h3
  · rw [hf]; exact h4
  · have : r'.outcnt = r.outcnt := by rw [hf]
    show (r'.outcnt + BitVec.ofNat 32 out.length).toNat ≤ r'.ucons.toNat
    rw [this, BitVec.toNat_add, BitVec.toNat_ofNat]
    omega

theorem good_eof {r : Regs} (h : GoodStage r .unpacking) (hb : r.bitlen.toNat ≤ r.ucons.toNat) :
    GoodStage { r with phase := .decDone } .decDone := by
  obtain ⟨h1, h2, h3, h4, h5, h6, h7, h8⟩ := h
  refine ⟨?_, h2, h3, h4, ?_, h6, h7, h8⟩
  · rw [h1]; rfl
  · exact BitVec.eq_of_toNat_eq (Nat.le_antisymm h5 hb)

/-- Whatever command completes in a good record, the record it leaves, its bytes counted, is good. -/
theorem bodyOf_good {i : Instr} {r r' : Regs} {out : List Byte} (h : GoodStage r r.phase)
    (hn : i ≠ .nop) (hc : i ≠ .clear) (hl : r.phase ∈ legalPhases i)
    (hd : bodyOf i r = .done r' out) :
    GoodStage { r' with outcnt := r'.outcnt + BitVec.ofNat 32 out.length } r'.phase := by
  have hph := (bodyOf_done hd).2.2.2.2.2.2.2.2.2.2.2.2.2 hn hc hl
  have cnt : ∀ lanes, r.phase = .idle ∨ r.phase = .counting → countBody lanes r = .done r' out →
      GoodStage { r' with outcnt := r'.outcnt + BitVec.ofNat 32 out.length } r'.phase := by
    intro lanes hp hd
    obtain ⟨rfl, hg⟩ := good_count h hp hd
    simpa using hg
  cases i
  case nop => exact absurd rfl hn
  case clear => exact absurd rfl hc
  all_goals simp only [legalPhases, List.mem_cons, List.not_mem_nil, or_false, bodyOf] at hl hd
  all_goals simp only [targetPhases, List.mem_cons, List.not_mem_nil, or_false] at hph
  case count1 => exact cnt _ hl hd
  case count2 => exact cnt _ hl hd
  case count3 => exact cnt _ hl hd
  case count4 => exact cnt _ hl hd
  case ftbuild => cases hd; simpa using good_ftbuild h hl
  case tree => cases hd; rw [hl] at h; simpa using good_tree h
  case codegen =>
    rw [hl] at h
    rcases codegenBody_cases r with ⟨_, h'⟩ | ⟨h1, ⟨t, h2, h'⟩ | ⟨sym, _, h'⟩ | ⟨_, h'⟩⟩ <;>
      rw [h'] at hd <;> cases hd
    simpa using good_codegen h h1 h2
  case pack b =>
    have := good_pack h hl hd
    rwa [← hph] at this
  case packEnd => cases hd; exact good_packEnd h hl
  case hdrWr => cases hd; rw [hl] at h; exact good_hdrWr (r := r) h
  case hdrRd b =>
    rcases hdrRdBody_cases b r with ⟨_, _, h'⟩ | ⟨_, h'⟩ <;> rw [h'] at hd <;> cases hd
    simpa using good_hdrRd h hl b
  case unpack b =>
    rw [hl] at h
    have := good_unpack h hd
    rwa [← hph] at this
  case eof =>
    rcases eofBody_cases r with ⟨_, h'⟩ | ⟨_, _, _, h'⟩ | ⟨h1, h2, h3, h'⟩ <;> rw [h'] at hd <;> cases hd
    have hu : r.phase = .unpacking := by
      rcases hl with hl | hl | hl
      · exact absurd hl h1
      · exact absurd hl h2
      · exact hl
    rw [hu] at h
    simpa using good_eof h h3

/-- A command that completes or raises an error leads from a good state to a good state. -/
theorem exec_good {i : Instr} {s t : State} (h : GoodState s) (hx : exec i s = .next t) :
    GoodState t := by
  rcases exec_cases hx with ⟨rfl, rfl⟩ | ⟨_, _, rfl⟩ | ⟨he, _, rfl⟩ |
    ⟨hn, hc, he, hl, ⟨e, info, hb, rfl⟩ | ⟨r, out, hb, rfl⟩⟩
  · exact good_of_reset rfl
  · exact h
  · exact good_errorEntry h he (by decide) _
  · exact good_errorEntry h he (bodyOf_raised hb).1 _
  · have hg := bodyOf_good (good_stage h he) hn hc hl hb
    have hd := bodyOf_done hb
    have hph := hd.2.2.2.2.2.2.2.2.2.2.2.2.2 hn hc hl
    have hne : r.phase ≠ .error := by
      intro e
      rw [e] at hph
      cases i <;> simp [targetPhases] at hph
      exact hn rfl
    refine ⟨⟨fun _ => ?_, fun e => absurd e hne⟩, ?_⟩
    · have := h.1.1 he
      show r.err = _ ∧ r.errInfo = _ ∧ r.ephase = _
      rw [hd.2.1, hd.2.2.1, hd.2.2.2.1]
      exact this
    · show GoodStage _ (Regs.stage _)
      rw [Regs.stage, if_neg (by exact hne)]
      exact hg

/-- So does a list of commands. -/
theorem run_good {cs : List Instr} {s t : State} (h : GoodState s) (hr : runInstrs cs s = .next t) :
    GoodState t := by
  induction cs generalizing s with
  | nil => cases hr; exact h
  | cons i cs ih =>
    simp only [runInstrs] at hr
    split at hr
    · exact ih (exec_good h ‹_›) hr
    · cases hr
    · cases hr

/-- In a good record CODEGEN always finds a tree (R127). -/
theorem codegenBody_not_stuck {r : Regs} (h : GoodStage r .treeReady) (f : Fault) :
    codegenBody r ≠ .stuck f := by
  intro hf
  obtain ⟨h1, h2, h3, h4⟩ := h
  rw [Prod.ext_iff] at h4
  simp only at h4
  have hs : sumFt r.ft ≤ 4294967295 := by
    have := r.total.isLt
    rw [h3, sumFt_buildFt, ← h2]
    omega
  have hk : r.ft.length ≤ 256 := by rw [h3]; exact length_buildFt_le _
  rcases codegenBody_cases r with ⟨_, h'⟩ | ⟨_, ⟨t, _, h'⟩ | ⟨sym, _, h'⟩ | ⟨hct, h'⟩⟩
  · rw [h'] at hf; cases hf
  · rw [h'] at hf; cases hf
  · rw [h'] at hf; cases hf
  · by_cases h0 : r.ft.length = 0
    · simp [codeTable, h0] at hct
    by_cases h1 : r.ft.length = 1
    · match hft : r.ft, h1 with
      | [e], _ =>
        have h00 : r.node[0]? = some (.leaf e.sym e.cnt) := by rw [h4.1, hft]; rfl
        simp [codeTable, hft, h00] at hct
    · obtain ⟨T, hR, hL, hlt⟩ := buildTree_rep hk hs (by intro h; simp [h] at h0)
      rw [← h4.1, ← h4.2] at hR hlt
      rw [codeTable_walk (by omega) hR hlt] at hct
      split at hct <;> cases hct

end Sys2Proof.Machine
end

