-- ==== Sys2Proof/Laws/PerInstr.lean ====
section
/-!
SUPPORT. A statement for all commands, one lemma a constructor: the word of a command is legal
(spec/30_encoding.md rules R81 to R83, R86).
-/

namespace Sys2Proof.Laws.LegalEncoding

open Sys2Proof Sys2Proof.Machine

/-- The word of the command has a defined opcode and every reserved bit zero (R86). -/
def Statement : Instr → Prop := fun i => wordLegal (encode i) = true

/-- The two columns of the opcode map agree (R85). -/
theorem formatOf_opcode (m : Mnemonic) : formatOf m.opcode = some m.format := by
  cases m <;> decide

theorem nop : Statement .nop := by rfl

theorem clear : Statement .clear := by rfl

/-- A word of a lane command is legal when the lanes from its count on are zero. -/
theorem of_lanes {n : Nat} {op : Byte} {arg : Word32} (hf : formatOf op = some (.lanes n))
    (h : ∀ k, k < 4 → n ≤ k → laneOf arg k = 0) : wordLegal (wordOf arg op) = true := by
  simp [wordLegal, hf, Format.reservedZero, reservedZeroP_iff]
  exact h

theorem count1 (b0 : Byte) : Statement (.count1 b0) := by
  refine of_lanes (n := 1) (formatOf_opcode .count1) fun k h4 hn => ?_
  obtain rfl | rfl | rfl : k = 1 ∨ k = 2 ∨ k = 3 := by omega
  all_goals simp [Instr.arg, laneOf_argP]

theorem count2 (b0 b1 : Byte) : Statement (.count2 b0 b1) := by
  refine of_lanes (n := 2) (formatOf_opcode .count2) fun k h4 hn => ?_
  obtain rfl | rfl : k = 2 ∨ k = 3 := by omega
  all_goals simp [Instr.arg, laneOf_argP]

theorem count3 (b0 b1 b2 : Byte) : Statement (.count3 b0 b1 b2) := by
  refine of_lanes (n := 3) (formatOf_opcode .count3) fun k h4 hn => ?_
  obtain rfl : k = 3 := by omega
  simp [Instr.arg, laneOf_argP]

theorem count4 (b0 b1 b2 b3 : Byte) : Statement (.count4 b0 b1 b2 b3) :=
  of_lanes (n := 4) (formatOf_opcode .count4) fun k h4 hn => by omega

theorem ftbuild : Statement .ftbuild := by rfl

theorem tree : Statement .tree := by rfl

theorem codegen : Statement .codegen := by rfl

/-- A word with one operand byte is legal when the argument is that byte. -/
theorem of_byte {op : Byte} {b : Byte} (hf : formatOf op = some .oneByte) :
    wordLegal (wordOf (argS b) op) = true := by
  simp [wordLegal, hf, Format.reservedZero, reservedZeroS_iff]

theorem pack (b : Byte) : Statement (.pack b) := of_byte (formatOf_opcode .pack)

theorem packEnd : Statement .packEnd := by rfl

theorem hdrWr : Statement .hdrWr := by rfl

theorem hdrRd (b : Byte) : Statement (.hdrRd b) := of_byte (formatOf_opcode .hdrRd)

theorem unpack (b : Byte) : Statement (.unpack b) := of_byte (formatOf_opcode .unpack)

theorem eof : Statement .eof := by rfl

end Sys2Proof.Laws.LegalEncoding
end

