-- ==== Sys2Proof/Laws/RoundTrip.lean ====
section
/-!
SUPPORT. The payload read back: a prefix-free table decodes the codes it was packed with (R156,
R186, R194), and a run of UNPACKs is the bit string decoder on the bytes' bits.
-/

namespace Sys2Proof.Machine

open Sys2Proof.Safety

/-! ### The bit string decoder -/

/-- Bits read in two portions. -/
theorem readBits_append (ct : List CtEntry) (xs ys : List Bool) : ∀ pending : List Bool,
    readBits ct pending (xs ++ ys) =
      match readBits ct pending xs with
      | .error n => .error n
      | .ok (p, out) =>
        match readBits ct p ys with
        | .error n => .error (n + xs.length)
        | .ok (p', out') => .ok (p', out ++ out') := by
  induction xs with
  | nil =>
    intro pending
    simp only [List.nil_append, readBits, List.length_nil, Nat.add_zero]
    cases readBits ct pending ys with
    | error n => rfl
    | ok po => rfl
  | cons x xs ih =>
    intro pending
    simp only [List.cons_append, readBits]
    by_cases h : pending.length = 32
    · rw [if_pos h, if_pos h]
    · rw [if_neg h, if_neg h]
      cases (ct.find? fun e => e.code.toNat == bitsValue (pending ++ [x]) &&
          e.len.toNat == (pending ++ [x]).length) with
      | some e =>
        simp only [ih]
        cases readBits ct [] xs with
        | error n => rfl
        | ok po =>
          obtain ⟨p, out⟩ := po
          simp only
          cases readBits ct p ys with
          | error n => simp only [List.length_cons]; rfl
          | ok po => rfl
      | none =>
        simp only [ih]
        cases readBits ct (pending ++ [x]) xs with
        | error n => rfl
        | ok po =>
          obtain ⟨p, out⟩ := po
          simp only
          cases readBits ct p ys with
          | error n => simp only [List.length_cons]; rfl
          | ok po => rfl

/-- A table whose codes can be read back: each fits its length of 1 to 31 bits, and an entry whose
bits are the beginning of another's is that entry. -/
def Decodable (ct : List CtEntry) : Prop :=
  (∀ e ∈ ct, 1 ≤ e.len.toNat ∧ e.len.toNat ≤ 31 ∧ e.code.toNat < 2 ^ e.len.toNat) ∧
  ∀ a ∈ ct, ∀ b ∈ ct, codeBits a <+: codeBits b → a = b

theorem length_codeBits (e : CtEntry) : (codeBits e).length = e.len.toNat := by
  rw [codeBits, length_lowBits]

/-- An entry matches a bit string exactly when the string is its code. -/
theorem match_iff {e : CtEntry} (h : e.code.toNat < 2 ^ e.len.toNat) (w : List Bool) :
    (e.code.toNat == bitsValue w && e.len.toNat == w.length) = true ↔ codeBits e = w := by
  rw [Bool.and_eq_true, beq_iff_eq, beq_iff_eq]
  constructor
  · rintro ⟨h1, h2⟩
    rw [codeBits, h1, h2, lowBits_bitsValue]
  · rintro rfl
    rw [length_codeBits, codeBits, bitsValue_lowBits, Nat.mod_eq_of_lt h]
    exact ⟨rfl, rfl⟩

/-- The code of an entry, read from a proper beginning of it, gives the entry's symbol. -/
theorem readBits_code {ct : List CtEntry} (hd : Decodable ct) {e : CtEntry} (he : e ∈ ct) (xs : List Bool) :
    ∀ pending : List Bool, xs ≠ [] → pending ++ xs = codeBits e →
      readBits ct pending xs = .ok ([], [e.sym]) := by
  induction xs with
  | nil => intro _ h; exact absurd rfl h
  | cons x xs ih =>
    intro pending _ hw
    have hlen : pending.length + (xs.length + 1) = e.len.toNat := by
      rw [← length_codeBits, ← hw]; simp
    have hb := (hd.1 e he)
    have hpre : pending ++ [x] <+: codeBits e := ⟨xs, by rw [← hw]; simp⟩
    simp only [readBits]
    rw [if_neg (by omega)]
    by_cases hx : xs = []
    · subst hx
      have hf : (ct.find? fun e' => e'.code.toNat == bitsValue (pending ++ [x]) &&
          e'.len.toNat == (pending ++ [x]).length) = some e := by
        obtain ⟨a, ha⟩ : ∃ a, (ct.find? fun e' => e'.code.toNat == bitsValue (pending ++ [x]) &&
            e'.len.toNat == (pending ++ [x]).length) = some a := by
          rw [← Option.isSome_iff_exists, List.find?_isSome]
          exact ⟨e, he, (match_iff hb.2.2 _).2 hw.symm⟩
        have hm := List.mem_of_find?_eq_some ha
        have := (match_iff (hd.1 a hm).2.2 _).1 (List.find?_some (p := fun e' : CtEntry =>
          e'.code.toNat == bitsValue (pending ++ [x]) && e'.len.toNat == (pending ++ [x]).length) ha)
        rw [ha, hd.2 a hm e he (by rw [this, hw])]
      rw [hf]
      rfl
    · have hf : (ct.find? fun e' => e'.code.toNat == bitsValue (pending ++ [x]) &&
          e'.len.toNat == (pending ++ [x]).length) = none := by
        rw [List.find?_eq_none]
        intro a ha hm
        have := (match_iff (hd.1 a ha).2.2 _).1 hm
        have hae := hd.2 a ha e he (by rw [this]; exact hpre)
        subst hae
        have hl := congrArg List.length this
        have hx1 : 1 ≤ xs.length := List.length_pos_iff.2 hx
        rw [length_codeBits, List.length_append, List.length_singleton] at hl
        omega
      rw [hf]
      simp only
      rw [ih (pending ++ [x]) hx (by rw [← hw, List.append_assoc, List.singleton_append])]

/-- The bits packed for a sequence decode to the sequence (R141 (c), R194). -/
theorem readBits_payload {ct : List CtEntry} (hd : Decodable ct) (S : List Byte) :
    ∀ B : List Bool, payloadBits ct S = some B → readBits ct [] B = .ok ([], S) := by
  induction S with
  | nil => intro B h; simp only [payloadBits, Option.some.injEq] at h; subst h; rfl
  | cons b S ih =>
    intro B h
    simp only [payloadBits] at h
    cases hl : lookupSym ct b with
    | none => simp [hl] at h
    | some e =>
      cases hB : payloadBits ct S with
      | none => simp [hl, hB] at h
      | some rest =>
        simp only [hl, hB, Option.some.injEq] at h
        subst h
        have he := List.mem_of_find?_eq_some hl
        have hsym : e.sym = b := by
          have := List.find?_some hl
          simpa using this
        have hne : codeBits e ≠ [] := by
          intro h0
          have := congrArg List.length h0
          rw [length_codeBits] at this
          have := (hd.1 e he).1
          simp at *
          omega
        rw [readBits_append, readBits_code hd he (codeBits e) [] hne rfl]
        simp only
        rw [ih rest hB]
        simp [hsym]

/-! ### Bytes and bits -/

theorem length_bitsOfBytes (P : List Byte) : (bitsOfBytes P).length = 8 * P.length := by
  induction P with
  | nil => rfl
  | cons b P ih =>
    rw [bitsOfBytes, List.flatMap_cons, List.length_append, length_lowBits, List.length_cons]
    rw [bitsOfBytes] at ih
    rw [ih]
    ring

/-- The bits of the bytes of a bit string begin with it. -/
theorem take_bitsOfBytes (B : List Bool) : (bitsOfBytes (bytesOfBits B)).take B.length = B := by
  induction hn : B.length using Nat.strong_induction_on generalizing B with
  | _ n ih =>
    subst hn
    by_cases h0 : B = []
    · subst h0; rfl
    have hpos : 1 ≤ B.length := List.length_pos_iff.2 h0
    by_cases h8 : B.length ≤ 8
    · rw [bytesOfBits_short hpos h8]
      have hlt := bitsValue_lt B
      have hlt' : bitsValue B * 2 ^ (8 - B.length) < 2 ^ 8 := by
        calc bitsValue B * 2 ^ (8 - B.length) < 2 ^ B.length * 2 ^ (8 - B.length) :=
              Nat.mul_lt_mul_of_pos_right hlt (Nat.two_pow_pos _)
          _ = 2 ^ 8 := by rw [← pow_add]; congr 1; omega
      have hbits := lowBits_append B.length (8 - B.length) (bitsValue B) 0 (Nat.two_pow_pos _)
      rw [show B.length + (8 - B.length) = 8 by omega, Nat.add_zero, lowBits_bitsValue] at hbits
      simp only [bitsOfBytes, List.flatMap_cons, List.flatMap_nil, List.append_nil, BitVec.toNat_ofNat,
        Nat.mod_eq_of_lt hlt', hbits]
      exact List.take_left
    · have hsplit : B = B.take 8 ++ B.drop 8 := (List.take_append_drop ..).symm
      have hl8 : (B.take 8).length = 8 := by rw [List.length_take]; omega
      have h1 := ih (B.take 8).length (by omega) _ rfl
      have h2 := ih (B.drop 8).length (by rw [List.length_drop]; omega) _ rfl
      have hb8 : (bitsOfBytes (bytesOfBits (B.take 8))).length = 8 := by
        rw [length_bitsOfBytes, length_bytesOfBits, hl8]
      rw [hl8] at h1
      conv_lhs => rw [hsplit]
      rw [bytesOfBits_append (by omega), bitsOfBytes, List.flatMap_append, List.length_append, hl8,
        List.take_append, ← bitsOfBytes, ← bitsOfBytes, hb8, Nat.add_sub_cancel_left, h2,
        List.take_of_length_le (by omega)]
      rw [List.take_of_length_le (by omega)] at h1
      rw [h1, ← hsplit]

/-! ### A run of UNPACKs -/

/-- A run of UNPACKs whose bits decode without error: the symbols are emitted, the bits since the
last match stay in the accumulator (R185 to R188). -/
theorem run_unpacks (P : List Byte) : ∀ (s : State) (pending : List Bool) (out : List Byte),
    s.regs.phase = .unpacking → s.regs.ucons.toNat ≤ s.regs.bitlen.toNat → s.regs.ucnt.toNat ≤ 32 →
    s.regs.uacc.toNat < 2 ^ s.regs.ucnt.toNat →
    readBits s.regs.ct (lowBits s.regs.ucnt.toNat s.regs.uacc.toNat)
      ((bitsOfBytes P).take (s.regs.bitlen.toNat - s.regs.ucons.toNat)) = .ok (pending, out) →
    ∃ t, runInstrs (unpacksOf P) s = .next t ∧ t.regs.phase = .unpacking ∧
      t.regs.bitlen = s.regs.bitlen ∧ t.outQ = s.outQ ++ out ∧
      lowBits t.regs.ucnt.toNat t.regs.uacc.toNat = pending ∧
      t.regs.ucons.toNat =
        s.regs.ucons.toNat + min (8 * P.length) (s.regs.bitlen.toNat - s.regs.ucons.toNat) := by
  induction P with
  | nil =>
    intro s pending out hp _ _ _ hr
    simp only [bitsOfBytes, List.flatMap_nil, List.take_nil, readBits, Except.ok.injEq, Prod.mk.injEq] at hr
    exact ⟨s, rfl, hp, rfl, by simp [← hr.2], hr.1, by simp⟩
  | cons b P ih =>
    intro s pending out hp hc hn ha hr
    obtain ⟨m, hm⟩ : ∃ m, s.regs.bitlen.toNat - s.regs.ucons.toNat = m := ⟨_, rfl⟩
    have hsplit : (bitsOfBytes (b :: P)).take m =
        (lowBits 8 b.toNat).take m ++ (bitsOfBytes P).take (m - 8) := by
      rw [bitsOfBytes, List.flatMap_cons, List.take_append, length_lowBits]
      rfl
    rw [hm, hsplit, readBits_append] at hr
    have hstep := takeBits_eq (bitsMsb b) s.regs hc hn ha
    rw [bitsMsb_eq, hm] at hstep
    have hx := exec_unpack hp b
    rw [unpackBody, bitsMsb_eq] at hx
    cases hr1 : readBits s.regs.ct (lowBits s.regs.ucnt.toNat s.regs.uacc.toNat)
        ((lowBits 8 b.toNat).take m) with
    | error n => rw [hr1] at hr; cases hr
    | ok po =>
      obtain ⟨p1, out1⟩ := po
      rw [hr1] at hr hstep
      simp only at hr hstep
      cases hr2 : readBits s.regs.ct p1 ((bitsOfBytes P).take (m - 8)) with
      | error n => rw [hr2] at hr; cases hr
      | ok po2 =>
        obtain ⟨p2, out2⟩ := po2
        rw [hr2] at hr
        simp only [Except.ok.injEq, Prod.mk.injEq] at hr
        obtain ⟨rfl, rfl⟩ := hr
        obtain ⟨ua, uc, k1, k2, k3, k4⟩ := hstep
        rw [k1, finish_done _ _ _ (by rfl)] at hx
        have hl8 : ((lowBits 8 b.toNat).take m).length = min m 8 := by
          rw [List.length_take, length_lowBits]
        rw [hl8] at hx
        rw [unpacksOf, List.map_cons, runInstrs_cons hx]
        generalize hu : completed s _ _ = u
        have hbl := s.regs.bitlen.isLt
        have u1 : u.regs.phase = .unpacking := by rw [← hu]; exact hp
        have u2 : u.regs.ct = s.regs.ct := by rw [← hu]; rfl
        have u3 : u.regs.bitlen = s.regs.bitlen := by rw [← hu]; rfl
        have u4 : u.regs.uacc = ua ∧ u.regs.ucnt = uc := by rw [← hu]; exact ⟨rfl, rfl⟩
        have u5 : u.outQ = s.outQ ++ out1 := by rw [← hu]; rfl
        have u6 : u.regs.ucons.toNat = s.regs.ucons.toNat + min m 8 := by
          rw [← hu]
          show (s.regs.ucons + BitVec.ofNat 32 (min m 8)).toNat = _
          rw [BitVec.toNat_add, BitVec.toNat_ofNat]
          omega
        obtain ⟨t, t1, t2, t3, t4, t5, t6⟩ := ih u p2 out2 u1 (by rw [u3, u6]; omega)
          (by rw [u4.2]; exact k3) (by rw [u4.1, u4.2]; exact k4) (by
            rw [u2, u4.1, u4.2, k2, u3, u6]
            rw [show s.regs.bitlen.toNat - (s.regs.ucons.toNat + min m 8) = m - 8 by omega]
            exact hr2)
        refine ⟨t, t1, t2, t3.trans u3, ?_, t5, ?_⟩
        · rw [t4, u5, List.append_assoc]
        · rw [t6, u3, u6, List.length_cons]
          omega

/-- The table of a good state can be read back (R141). -/
theorem goodTable_decodable {r : Regs} (hg : GoodTable r) : Decodable r.ct := by
  refine ⟨goodTable_entry hg, ?_⟩
  intro a ha b hb hpre
  rcases goodTable_cases hg with ⟨h1, h2⟩ | ⟨x, h1, h2⟩ | ⟨h2, T, hR, hL, hd, hct⟩
  · rw [h2] at ha; simp at ha
  · rw [h2] at ha hb
    simp only [List.mem_singleton] at ha hb
    rw [ha, hb]
  · rw [hct] at ha hb
    obtain ⟨p, hp, rfl⟩ := List.mem_map.1 ha
    obtain ⟨q, hq, rfl⟩ := List.mem_map.1 hb
    rw [(pathEntry_root (hd p hp)).2.2.2, (pathEntry_root (hd q hq)).2.2.2] at hpre
    obtain ⟨i, hi, ei⟩ := List.getElem_of_mem hp
    obtain ⟨j, hj, ej⟩ := List.getElem_of_mem hq
    have hpf := List.pairwise_iff_getElem.1 (paths_prefixFree T)
    rcases Nat.lt_trichotomy i j with h | h | h
    · have := (hpf i j hi hj h).1; rw [ei, ej] at this; exact absurd hpre this
    · subst h; rw [← ei, ← ej]
    · have := (hpf j i hj hi h).2; rw [ei, ej] at this; exact absurd hpre this

end Sys2Proof.Machine
end

