-- ==== Sys2Proof/Laws/Taken.lean ====
section
/-!
SUPPORT. In the tree TREE builds a node taken earlier lies no higher than one taken later: the
parents of the nodes are taken in the order of the nodes.
-/

namespace Sys2Proof.Machine

open Sys2Proof.Safety

/-- Node `x` lies `d` branches below `root`. -/
inductive DepthOf (nodes : List Node) (root : Nat) : Nat → Nat → Prop where
  | root : DepthOf nodes root root 0
  | child {c j d : Nat} : ChildOf nodes c j → DepthOf nodes root j d → DepthOf nodes root c (d + 1)

/-- A path to a leaf reaches a leaf node at its length. -/
theorem depthOf_leads {nodes : List Node} {root j : Nat} {w : List Bool} {sym : Byte}
    (h : Leads nodes j w sym) : ∀ d : Nat, DepthOf nodes root j d →
      ∃ (x : Nat) (f : Word32), nodes[x]? = some (.leaf sym f) ∧ DepthOf nodes root x (d + w.length) := by
  induction h with
  | leaf h => intro d hd; exact ⟨_, _, h, hd⟩
  | left h _ ih =>
    intro d hd
    obtain ⟨x, f, h1, h2⟩ := ih (d + 1) (.child ⟨_, _, _, h, .inl rfl⟩ hd)
    exact ⟨x, f, h1, by rw [List.length_cons]; convert h2 using 1; omega⟩
  | right h _ ih =>
    intro d hd
    obtain ⟨x, f, h1, h2⟩ := ih (d + 1) (.child ⟨_, _, _, h, .inr rfl⟩ hd)
    exact ⟨x, f, h1, by rw [List.length_cons]; convert h2 using 1; omega⟩

variable {ft : List FtEntry} {nodes : List Node} {root : Nat} {T : Nat → CodeTree} {wq : List Nat}

/-- A parent is an internal node over its two children. -/
theorem Forest.parent_internal (h : Forest ft nodes [root] T) {c j : Nat} (hc : ChildOf nodes c j) :
    ft.length ≤ j ∧ j < nodes.length ∧ c < j ∧ nodeFreq nodes c ≤ nodeFreq nodes j := by
  have hlt := h.child_lt hc
  have hjn := childOf_lt hc
  obtain ⟨l, r, f, e, hc⟩ := hc
  have hge : ft.length ≤ j := by
    by_contra hlt'
    have := h.leaf j _ (List.getElem?_eq_getElem (by omega))
    rw [e] at this
    cases this
  obtain ⟨l', r', f', e', _, _, _, hf⟩ := h.internal j hge hjn
  rw [e] at e'
  cases e'
  refine ⟨hge, hjn, hlt, ?_⟩
  have : nodeFreq nodes j = f.toNat := by simp [nodeFreq, e, Node.freq]
  rcases hc with rfl | rfl <;> omega

/-- A node has one parent. -/
theorem Forest.parent_unique (h : Forest ft nodes [root] T) {c j j' : Nat} (hc : ChildOf nodes c j)
    (hc' : ChildOf nodes c j') : j = j' := by
  by_cases hr : c = root
  · exact absurd hc (h.noParent c (by simp [hr]) j)
  · have := (h.parent_internal hc)
    obtain ⟨k, _, hk⟩ := h.parent c (by omega) (by simpa using hr)
    rw [hk j hc, hk j' hc']

/-- Internal nodes are created in the order of their frequencies. -/
theorem freq_mono (h : Forest ft nodes [root] T) (ho : Order ft.length nodes wq) :
    ∀ j' j : Nat, ft.length ≤ j → j ≤ j' → j' < nodes.length →
      nodeFreq nodes j ≤ nodeFreq nodes j' := by
  intro j'
  induction j' using Nat.strong_induction_on with
  | _ j' ih =>
    intro j hj hjj hj'
    by_cases he : j = j'
    · rw [he]
    obtain ⟨l', r', f', e', hne', hl', hr', hf'⟩ := h.internal j' (by omega) hj'
    have hF' : nodeFreq nodes j' = f'.toNat := by simp [nodeFreq, e', Node.freq]
    by_cases h1 : j ≤ l'.toNat
    · have := ih l'.toNat hl' j hj h1 (by omega)
      omega
    by_cases h2 : j ≤ r'.toNat
    · have := ih r'.toNat hr' j hj h2 (by omega)
      omega
    obtain ⟨l, r, f, e, hne, hl, hr, hf⟩ := h.internal j hj (by omega)
    have hF : nodeFreq nodes j = f.toNat := by simp [nodeFreq, e, Node.freq]
    obtain ⟨m1, m2⟩ := ho.merges j l r f e
    have key : ∀ c, ChildOf nodes c j' → c < j → nodeFreq nodes r.toNat ≤ nodeFreq nodes c := by
      intro c hc hcj
      have : TakenBefore ft.length nodes r.toNat c := by
        refine m2 c hcj ?_ ?_ ?_
        · rintro rfl; exact he (h.parent_unique ⟨_, _, _, e, .inl rfl⟩ hc)
        · rintro rfl; exact he (h.parent_unique ⟨_, _, _, e, .inr rfl⟩ hc)
        · intro k hk hck
          have := h.parent_unique hck hc
          omega
      rcases this with h | ⟨h, _⟩ <;> omega
    have k1 := key _ ⟨_, _, _, e', .inl rfl⟩ (by omega)
    have k2 := key _ ⟨_, _, _, e', .inr rfl⟩ (by omega)
    have k3 : nodeFreq nodes l.toNat ≤ nodeFreq nodes r.toNat := by
      rcases m1 with h | ⟨h, _⟩ <;> omega
    omega

/-- A node whose parent was created at or before internal node `x` is not taken after `x`. -/
theorem not_takenBefore_of_parent_le (h : Forest ft nodes [root] T) (ho : Order ft.length nodes wq)
    {x y p : Nat} (hp : ChildOf nodes y p) (hpx : p ≤ x) (hx : x < nodes.length) :
    ¬TakenBefore ft.length nodes x y := by
  obtain ⟨h1, h2, h3, h4⟩ := h.parent_internal hp
  have := freq_mono h ho x p h1 hpx hx
  have ha : nodeAge ft.length x = x := by unfold nodeAge; rw [if_neg (by omega)]
  have hb : nodeAge ft.length y < x := by unfold nodeAge; split <;> omega
  unfold TakenBefore
  omega

/-- Nodes taken in order have parents in order. -/
theorem parent_le (h : Forest ft nodes [root] T) (ho : Order ft.length nodes wq) {x y px py : Nat}
    (hx : ChildOf nodes x px) (hy : ChildOf nodes y py) (ht : TakenBefore ft.length nodes x y) :
    px ≤ py := by
  by_contra hc
  obtain ⟨x1, x2, x3, x4⟩ := h.parent_internal hx
  by_cases hxp : x < py
  · obtain ⟨l, r, f, e, hc'⟩ := id hy
    obtain ⟨m1, m2⟩ := ho.merges py l r f e
    have hxl : ∀ {a : Nat}, ChildOf nodes a py → x ≠ a := by
      rintro a ha rfl
      have := h.parent_unique hx ha
      omega
    have hr : TakenBefore ft.length nodes r.toNat x := by
      refine m2 x hxp (hxl ⟨_, _, _, e, .inl rfl⟩) (hxl ⟨_, _, _, e, .inr rfl⟩) ?_
      intro k hk hck
      have := h.parent_unique hck hx
      omega
    unfold TakenBefore at *
    rcases hc' with rfl | rfl <;> omega
  · exact not_takenBefore_of_parent_le h ho hy (by omega) (by omega) ht

/-- A node taken earlier, or the node itself, lies no higher (R141 (e)). -/
theorem depth_le (h : Forest ft nodes [root] T) (ho : Order ft.length nodes wq)
    (hroot : root + 1 = nodes.length) :
    ∀ (n x y d e : Nat), nodes.length - x ≤ n → DepthOf nodes root x d → DepthOf nodes root y e →
      x = y ∨ TakenBefore ft.length nodes x y → e ≤ d := by
  intro n
  induction n with
  | zero =>
    intro x y d e hn hx hy ht
    cases hx with
    | root => omega
    | child hc _ => have := h.parent_internal hc; omega
  | succ n ih =>
    intro x y d e hn hx hy ht
    cases hy with
    | root => omega
    | @child _ py e' hcy hdy =>
      cases hx with
      | root =>
        rcases ht with rfl | ht
        · exact absurd hcy (h.noParent root (by simp) py)
        · have := h.parent_internal hcy
          exact absurd ht (not_takenBefore_of_parent_le h ho hcy (by omega) (by omega))
      | @child _ px d' hcx hdx =>
        have hxlt := h.parent_internal hcx
        have hylt := h.parent_internal hcy
        have hle : px ≤ py := by
          rcases ht with rfl | ht
          · rw [h.parent_unique hcx hcy]
          · exact parent_le h ho hcx hcy ht
        have : e' ≤ d' := by
          refine ih px py d' e' (by omega) hdx hdy ?_
          by_cases heq : px = py
          · exact .inl heq
          · right
            have := freq_mono h ho py px hxlt.1 hle hylt.2.1
            have ha : nodeAge ft.length px = px := by unfold nodeAge; rw [if_neg (by omega)]
            have hb : nodeAge ft.length py = py := by unfold nodeAge; rw [if_neg (by omega)]
            unfold TakenBefore
            omega
        omega

end Sys2Proof.Machine
end

