-- ==== Sys2Proof/Tests/Slice0.lean ====
section
/-!
SUPPORT. The tests of this model. Expected values are those of spec/95_test_vectors.md (V…, P…) and
of the examples in the rules; nothing here is the model's own answer.
-/

namespace Sys2Proof.Tests

open Sys2Proof Sys2Proof.Machine Sys2Proof.Safety

/-! ### Helpers -/

/-- The state of a next outcome; the reset state for a stop, which `isNext` tells apart. -/
def stateOf : Host.Outcome State Fault Refusal → State
  | .next t => t
  | .fault _ => State.reset
  | .refused _ => State.reset

/-- The outcome is a next state. -/
def isNext : Host.Outcome State Fault Refusal → Bool
  | .next _ => true
  | .fault _ => false
  | .refused _ => false

theorem eq_next {o : Host.Outcome State Fault Refusal} (h : isNext o = true) : o = .next (stateOf o) := by
  cases o with
  | next t => rfl
  | fault f => cases h
  | refused r => cases h

/-- The reset state with another record. -/
def holding (r : Regs) : State := { State.reset with regs := r }

/-- P1's counters: those of the input AAABBC. -/
def cntP1 : Vector Word32 256 :=
  [0x42#8, 0x43#8].foldl bump ([0x41#8, 0x41#8, 0x41#8, 0x42#8].foldl bump Regs.reset.cnt)

/-- P1 after its COUNTs. -/
def counted : Regs := { Regs.reset with phase := .counting, cnt := cntP1, total := 6 }

/-- P1 after FTBUILD (V17). -/
def ftReady : Regs :=
  { counted with phase := .ftReady, ft := [⟨0x41, 3⟩, ⟨0x42, 2⟩, ⟨0x43, 1⟩] }

/-- P1 after TREE (V20). -/
def treeReady : Regs :=
  { ftReady with
    phase := .treeReady
    node := [.leaf 0x41 3, .leaf 0x42 2, .leaf 0x43 1, .internal 2 1 3, .internal 0 3 6]
    root := 4 }

/-- P1's Code Table (V30). -/
def tableP1 : List CtEntry := [⟨0x41, 0, 1⟩, ⟨0x43, 2, 2⟩, ⟨0x42, 3, 2⟩]

/-- P1 after CODEGEN. -/
def tableReady : Regs := { treeReady with phase := .tableReady, ct := tableP1 }

/-- P1 before its last PACK (step 11). -/
def packing : Regs := { tableReady with phase := .packing, bitlen := 7, pacc := 15, pcnt := 7 }

/-- P1 after its last PACK (step 12), its first byte emitted. -/
def packed : Regs := { packing with bitlen := 9, pacc := 0, pcnt := 1, outcnt := 1 }

/-- P1 after PACK.END. -/
def packDone : Regs := { packed with phase := .packDone, pcnt := 0, outcnt := 2 }

/-- P1's header (V60). -/
def headerP1 : List Byte :=
  [0x51, 0x50, 0x4B, 0x09, 0x00, 0x00, 0x00, 0x03, 0x41, 0x00, 0x00, 0x00, 0x00, 0x01] ++
  [0x43, 0x02, 0x00, 0x00, 0x00, 0x02, 0x42, 0x03, 0x00, 0x00, 0x00, 0x02]

/-- P2 after the header (step 27). -/
def unpacking : Regs :=
  { Regs.reset with
    phase := .unpacking, ct := tableP1, bitlen := 9, hdrsize := 26, hpos := 26, hsym := 0x42, hcode := 3 }

/-- P2 at its end. -/
def decDone : Regs := { unpacking with phase := .decDone, ucons := 9, outcnt := 6 }

/-- V83: a PACK out of sequence. -/
def failed : Regs :=
  { Regs.reset with phase := .error, err := .sequence, errInfo := 0x40 }

/-- A record in UNPACKING with a table and a bit count. -/
def unpackingWith (ct : List CtEntry) (bitlen : Word32) : Regs :=
  { Regs.reset with phase := .unpacking, ct := ct, bitlen := bitlen }

/-- The state after a command, its stream and some of its record. -/
def runOn (i : Instr) (s : State) : Option State :=
  match exec i s with
  | .next t => some t
  | .fault _ => none
  | .refused _ => none

/-! ### Well-formedness: each check refuses an ill-formed term -/

/-- An opcode outside R85 (V80), a format N word with an argument bit (V81), a format S word with a
bit above its byte (V79), a format P word with a reserved lane (V19d): none is legal, and the word
with the bit cleared is. -/
theorem test_ill_formed_words :
    wordLegal 0x000000007F#40 = false ∧ wordLegal 0x0000000100#40 = false ∧
    wordLegal 0x0000010060#40 = false ∧ wordLegal 0x0041414111#40 = false ∧
    wordLegal 0x0000000000#40 = true ∧ wordLegal 0x0000000060#40 = true ∧
    wordLegal 0x0000414111#40 = true := by decide

/-- An operand above 255, a missing operand, one operand too many (R89). -/
theorem test_ill_formed_lines :
    SourceLine.wellFormed ⟨.pack, [256]⟩ = false ∧ SourceLine.wellFormed ⟨.count2, [1]⟩ = false ∧
    SourceLine.wellFormed ⟨.nop, [0]⟩ = false ∧ SourceLine.wellFormed ⟨.pack, [255]⟩ = true ∧
    SourceLine.assemble ⟨.pack, [256]⟩ = none ∧
    SourceLine.assemble ⟨.count2, [0x41, 0x42]⟩ = some (.count2 0x41 0x42) := by decide

/-! ### Decoding: a word of every constructor, written from R80 to R85 -/

/-- Formats N and S: `op` in bits 7:0, the byte in bits 15:8. -/
theorem test_decode_plain :
    decode 0x0000000000#40 = .ok .nop ∧ decode 0x0000000001#40 = .ok .clear ∧
    decode 0x0000000014#40 = .ok .ftbuild ∧ decode 0x0000000020#40 = .ok .tree ∧
    decode 0x0000000030#40 = .ok .codegen ∧ decode 0x0000004140#40 = .ok (.pack 0x41) ∧
    decode 0x0000000041#40 = .ok .packEnd ∧ decode 0x0000000050#40 = .ok .hdrWr ∧
    decode 0x0000005151#40 = .ok (.hdrRd 0x51) ∧ decode 0x0000001F60#40 = .ok (.unpack 0x1F) ∧
    decode 0x0000000061#40 = .ok .eof := by decide

/-- Format P: lane 0 in bits 15:8, lane 1 in 23:16, lane 2 in 31:24, lane 3 in 39:32. -/
theorem test_decode_lanes :
    decode 0x0000004110#40 = .ok (.count1 0x41) ∧ decode 0x0000424111#40 = .ok (.count2 0x41 0x42) ∧
    decode 0x0061726212#40 = .ok (.count3 0x62 0x72 0x61) ∧
    decode 0x4241414113#40 = .ok (.count4 0x41 0x41 0x41 0x42) ∧
    decode 0xFF00FF0013#40 = .ok (.count4 0x00 0xFF 0x00 0xFF) := by decide

/-- The opcode map bit by bit: HDR.RD 0x51 is 0101 0001 (byte) over 0101 0001 (op). -/
theorem test_decode_table_word :
    decodeTableWord 40 0b0000000000000000000000000101000101010001 = some (.hdrRd 0x51) ∧
    decodeTableWord 40 0b0000000000000000000000010101000101010001 = none ∧
    decodeTableWord 40 0b0100001001000001010000010100000100010011 =
      some (.count4 0x41 0x41 0x41 0x42) := by decide

/-! ### P1 and P2, command by command -/

theorem runP1_counts :
    runInstrs [.count4 0x41 0x41 0x41 0x42, .count2 0x42 0x43] State.reset = .next (holding counted) := by
  rfl

/-- V13. -/
theorem test_count_lanes :
    counter cntP1 0x41 = 3 ∧ counter cntP1 0x42 = 2 ∧ counter cntP1 0x43 = 1 ∧ counter cntP1 0x44 = 0 := by
  decide +kernel

/-- V17. -/
theorem test_ftbuild : buildFt cntP1 = ftReady.ft := by decide +kernel

theorem stepP1_ftbuild : exec .ftbuild (holding counted) = .next (holding ftReady) := by
  have h := runCommand_legal (op := 0x14) (body := ftbuildBody) (s := holding counted)
    (legal := [.idle, .counting]) (by decide) (by decide)
  have hf := finish_done_nil (holding counted) { counted with ft := buildFt cntP1, phase := .ftReady } rfl
  refine (h.trans hf).trans ?_
  rw [test_ftbuild]
  rfl

/-- V20. -/
theorem test_tree : exec .tree (holding ftReady) = .next (holding treeReady) := by rfl

/-- V30. -/
theorem test_codegen : exec .codegen (holding treeReady) = .next (holding tableReady) := by rfl

/-- P1, steps 7 to 11. -/
theorem test_packs :
    runInstrs (packsOf [0x41, 0x41, 0x41, 0x42, 0x42]) (holding tableReady) = .next (holding packing) := by
  rfl

/-- P1, step 12: seven bits 0001111 are pending and C = 10 completes the byte 1F. -/
theorem test_pack :
    exec (.pack 0x43) (holding packing) = .next { holding packed with outQ := [0x1F] } := by rfl

/-- V51: the one pending bit is padded to a byte. -/
theorem test_packEnd :
    exec .packEnd { holding packed with outQ := [0x1F] } =
      .next { holding packDone with outQ := [0x1F, 0x00] } := by rfl

/-- V60, P1's end: 28 bytes. -/
theorem test_hdrWr :
    exec .hdrWr { holding packDone with outQ := [0x1F, 0x00] } =
      .next
        { holding { packDone with phase := .encDone, hdrsize := 26, outcnt := 28 } with
          outQ := [0x1F, 0x00] ++ headerP1 } := by rfl

/-- P2, steps 2 to 27. -/
theorem test_hdrRd : runInstrs (hdrsOf headerP1) State.reset = .next (holding unpacking) := by rfl

/-- P2, steps 28 and 29. -/
theorem test_unpack :
    runInstrs [.unpack 0x1F, .unpack 0x00] (holding unpacking) =
      .next
        { holding { unpacking with ucons := 9, outcnt := 6 } with
          outQ := [0x41, 0x41, 0x41, 0x42, 0x42, 0x43] } := by rfl

/-- P2, step 30. -/
theorem test_eof :
    exec .eof (holding { unpacking with ucons := 9, outcnt := 6 }) = .next (holding decDone) := by rfl

/-- P2 whole, from ERROR: DECODE of P1's file. -/
theorem test_decode :
    runDecode (headerP1 ++ [0x1F, 0x00]) (holding failed) =
      .next { holding decDone with outQ := [0x41, 0x41, 0x41, 0x42, 0x42, 0x43] } := by rfl

/-- R90, R168: after a wrong magic byte DECODE gives HDR.RD no more bytes. -/
theorem test_feedHeader_magic :
    feedHeader [0x51, 0x51, 0x4B] State.reset =
      .next (errorEntry (holding { Regs.reset with phase := .hdrParse, hpos := 1 }) .formatMagic 1,
        [0x4B]) := by rfl

theorem good_reset : GoodState State.reset := good_of_reset rfl

theorem good_counted : GoodState (holding counted) := run_good good_reset runP1_counts

theorem good_ftReady : GoodState (holding ftReady) := exec_good good_counted stepP1_ftbuild

theorem good_treeReady : GoodState (holding treeReady) := exec_good good_ftReady test_tree

theorem good_tableReady : GoodState (holding tableReady) := exec_good good_treeReady test_codegen

theorem good_packing : GoodState (holding packing) := run_good good_tableReady test_packs

theorem good_unpacking : GoodState (holding unpacking) := run_good good_reset test_hdrRd

/-! ### One more step where a bug would show -/

/-- V82: NOP changes nothing. -/
theorem test_nop : exec .nop (holding ftReady) = .next (holding ftReady) := by rfl

/-- V81: with an argument it is illegal. -/
theorem test_nop_argument :
    issueWord 0x0000000100#40 State.reset =
      .next (holding { Regs.reset with phase := .error, err := .illegalCmd }) := by rfl

/-- V87: CLEAR gives the reset record and keeps the stream. -/
theorem test_clear :
    exec .clear { holding packDone with outQ := [0x1F, 0x00] } =
      .next { State.reset with outQ := [0x1F, 0x00] } := by rfl

/-- V10. -/
theorem test_count1 :
    (runOn (.count1 0x41) State.reset).map
      (fun t => (counter t.regs.cnt 0x41, t.regs.total, t.regs.status)) = some (1, 1, 0x001) := by decide

/-- V11. -/
theorem test_count2 :
    (runOn (.count2 0x41 0x42) State.reset).map
      (fun t => (counter t.regs.cnt 0x41, counter t.regs.cnt 0x42, t.regs.total)) =
      some (1, 1, 2) := by decide

/-- V19b: three more fit exactly. -/
theorem test_count3_fits :
    (runOn (.count3 0x41 0x41 0x41)
        (holding { Regs.reset with
          phase := .counting, total := 4294967292, cnt := Regs.reset.cnt.set 0x41 4294967292 })).map
      (fun t => (counter t.regs.cnt 0x41, t.regs.total, t.regs.status)) =
      some (4294967295, 4294967295, 0x001) := by decide +kernel

/-- V19c: three more do not. -/
theorem test_count3_overflows :
    (runOn (.count3 0x41 0x42 0x43)
        (holding { Regs.reset with phase := .counting, total := 4294967293 })).map
      (fun t => (t.regs.err.code, t.regs.errInfo, t.regs.status, t.regs.total)) =
      some (0x21, 4294967293, 0x11F, 4294967293) := by decide +kernel

/-- V15: symbol 0x00 in a used lane is counted. -/
theorem test_count4 :
    (runOn (.count4 0x00 0xFF 0x00 0xFF) State.reset).map
      (fun t => (counter t.regs.cnt 0x00, counter t.regs.cnt 0xFF, t.regs.total)) =
      some (2, 2, 4) := by decide

/-- V19: R106's order on the ascending list of the symbols, ties by ascending symbol. -/
theorem test_ftbuild_ties :
    sortFt [⟨0x61, 5⟩, ⟨0x62, 2⟩, ⟨0x63, 1⟩, ⟨0x64, 1⟩, ⟨0x72, 2⟩] =
      [⟨0x61, 5⟩, ⟨0x62, 2⟩, ⟨0x72, 2⟩, ⟨0x63, 1⟩, ⟨0x64, 1⟩] := by decide

/-- V21: all ties. -/
theorem test_tree_ties :
    buildTree [⟨0x61, 1⟩, ⟨0x62, 1⟩, ⟨0x63, 1⟩, ⟨0x64, 1⟩] =
      ([.leaf 0x61 1, .leaf 0x62 1, .leaf 0x63 1, .leaf 0x64 1, .internal 3 2 2, .internal 1 0 2,
        .internal 4 5 4], 6) := by decide +kernel

/-- V32: a single leaf is promoted to a 1-bit code. -/
theorem test_codegen_single : codeTable 1 [.leaf 0x5A 4] 0 = .ok [⟨0x5A, 0, 1⟩] := by rfl

/-- P4, step 2: the second magic byte is wrong. -/
theorem test_hdrRd_magic :
    (runOn (.hdrRd 0x51) (holding { Regs.reset with phase := .hdrParse, hpos := 1 })).map
      (fun t => (t.regs.err.code, t.regs.errInfo, t.regs.status, t.regs.hpos)) =
      some (0x10, 1, 0x18F, 1) := by decide +kernel

/-- V76: the length is compared exactly, so the entries of length 33 and 0 never match. -/
theorem test_unpack_length :
    (runOn (.unpack 0xC0)
        (holding (unpackingWith [⟨0x41, 0, 0⟩, ⟨0x42, 1, 33⟩, ⟨0x43, 1, 1⟩] 2))).map
      (fun t => (t.outQ, t.regs.ucons)) = some ([0x43, 0x43], 2) := by decide +kernel

/-- V65, V72: the two truncation errors. -/
theorem test_eof_truncated :
    (runOn .eof (holding { Regs.reset with phase := .hdrParse, hpos := 20 })).map
      (fun t => (t.regs.err.code, t.regs.errInfo, t.regs.status)) = some (0x11, 20, 0x18F) ∧
    (runOn .eof (holding { unpacking with ucons := 8 })).map
      (fun t => (t.regs.err.code, t.regs.errInfo, t.regs.status)) = some (0x12, 8, 0x19F) := by
  decide +kernel

/-- V20's NODE_INFO values, the ID, and a window past its count (R38 to R41). -/
theorem test_csr :
    csrRead treeReady 0xA03 = 0x00000405 ∧ csrRead treeReady 0xA04 = 0x00000C01 ∧
    csrRead treeReady 0xA00 = 0x00000082 ∧ csrRead treeReady 0x804 = 6 ∧
    csrRead treeReady 0xA05 = 0 ∧ csrRead Regs.reset 0x000 = 0x51504B01 ∧
    csrRead Regs.reset 0x007 = 0x1FF := by decide +kernel

/-- The host's interface: a word placed for the next step runs. -/
theorem test_withFetchWord :
    (stateOf (step (State.reset.withFetchWord 40 0x4241414113))).regs.total = 4 := by decide

/-! ### Witnesses: for each statement with hypotheses, a state and operands that meet them -/

/-- A state out of ERROR in which the command raises the error, the hypotheses of
`ErrorCausesAndInformation`. -/
def Raises (i : Instr) (s : State) (e : ErrorCode) : Prop :=
  s.regs.ft.length ≤ 256 ∧ s.regs.phase ≠ .error ∧
  ∃ t, exec i s = .next t ∧ t.regs.phase = .error ∧ t.regs.err = e

/-- The state waiting for the host's actions `h`. -/
def hosted (r : Regs) (h : List HostAction) : State := { holding r with host := h }

theorem test_witness_AcceptedWordIsTheEncodingOfItsCommand :
    decode 0x0000004140#40 = .ok (.pack 0x41) := by decide

/-- A legal word with the row that matches it, and an illegal one that none matches. -/
theorem test_witness_LegalWordsAreTheOpcodeTables :
    decode 0x0000424111#40 = .ok (.count2 0x41 0x42) ∧
    (⟨.count2, 0x0000000011, 0xFFFF0000FF⟩ : OpcodeRow) ∈ opcodeTable ∧
    (⟨.count2, 0x0000000011, 0xFFFF0000FF⟩ : OpcodeRow).matchesWord 0x0000424111#40 = true ∧
    wordLegal 0x0041414111#40 = false ∧
    (∀ row ∈ opcodeTable, row.matchesWord 0x0041414111#40 = false) := by decide

/-- One state and word for each branch of R91. -/
theorem test_witness_IssuedWordIsTreatedInTheOrderOfChecks :
    (opOf 0x01#40 = 0x01 ∧ argOf 0x01#40 = 0) ∧
    (¬(opOf 0x20#40 = 0x01 ∧ argOf 0x20#40 = 0) ∧ failed.phase = .error) ∧
    (¬(opOf 0x101#40 = 0x01 ∧ argOf 0x101#40 = 0) ∧ Regs.reset.phase ≠ .error ∧
      wordLegal 0x101#40 = false) ∧
    (wordLegal 0x00#40 = true ∧ opOf 0x00#40 = 0x00) ∧
    (wordLegal 0x20#40 = true ∧ opOf 0x20#40 ≠ 0x00 ∧ Regs.reset.phase ∉ legalPhases .tree ∧
      ftReady.phase ∈ legalPhases .tree) := by decide

/-- A word that decodes, and one that does not, in a phase other than ERROR and in ERROR. -/
theorem test_witness_StepRunsTheDecodedCommand :
    (∀ r w, (hosted r [.command w]).busy = false ∧
      (hosted r [.command w]).host = .command w :: []) ∧
    decode 0x4110#40 = .ok (.count1 0x41) ∧
    decode 0x7F#40 = .error (.undefinedOpcode 0x7F) ∧
    (hosted failed [.command 0x7F]).regs.phase = .error ∧
    (hosted Regs.reset [.command 0x7F]).regs.phase ≠ .error := by
  refine ⟨fun r w => ⟨by simp [State.busy, hosted, holding, State.reset], rfl⟩, by decide⟩

/-- A stream longer than the FIFO, whatever OUTQ_DEPTH is. -/
def flooded (h : List HostAction) : State :=
  { hosted packDone h with outQ := List.replicate (Config.outqDepth + 1) 0 }

theorem test_witness_BusyCoreWaitsForTheHostToTakeBytes :
    (∀ h, (flooded h).busy = true) ∧
    (∀ a ∈ (flooded [.command 0, .readCsr 0]).host, a.needsIdle = true) ∧
    (flooded [.command 0, .takeByte]).host = [.command 0] ++ .takeByte :: [] ∧
    (flooded [.readCsr 0, .assertReset]).host = [.readCsr 0] ++ .assertReset :: [] := by
  refine ⟨fun h => by simp [State.busy, flooded], by decide, rfl, rfl⟩

theorem test_witness_HostActionsOnAnIdleCore :
    (∀ h, ({ hosted packDone h with outQ := [0x1F] } : State).busy = false) ∧
    ({ hosted packDone [.takeByte] with outQ := [0x1F] } : State).outQ = 0x1F :: [] := by
  refine ⟨fun h => by simp [State.busy, Config.outqDepth], rfl⟩

theorem test_witness_OutputStreamIsFirstInFirstOut :
    (∃ t, step (hosted Regs.reset []) = .next t ∧ nextAction (hosted Regs.reset []) = none) ∧
    ∃ t, step (hosted Regs.reset [.assertReset]) = .next t ∧
      nextAction (hosted Regs.reset [.assertReset]) = some (.assertReset, []) :=
  ⟨⟨_, rfl, rfl⟩, _, rfl, rfl⟩

theorem test_witness_ResetAndClearGiveTheResetValues :
    ∃ t, exec .clear (holding ftReady) = .next t ∧ Regs.reset = t.regs := ⟨_, rfl, rfl⟩

theorem test_witness_ClearRestartsTheCallAndKeepsTheStream :
    ((1#32 ≠ 0) ∧ (holding ftReady).regs.phase ≠ .error ∧ (holding failed).regs.phase = .error) ∧
    ∃ t, (holding decDone).regs.phase ∈ [Phase.encDone, .decDone, .error] ∧ Instr.tree ≠ .clear ∧
      exec .tree (holding decDone) = .next t := ⟨by decide, _, by decide, by decide, rfl⟩

theorem test_witness_NopChangesNothing :
    (0x80000000#32 ≠ 0) ∧ (holding ftReady).regs.phase ≠ .error ∧
    (holding failed).regs.phase = .error := by decide

theorem test_witness_ErrorsArePrecise :
    ∃ t, issueWord 0x7F#40 (holding ftReady) = .next t ∧ (holding ftReady).regs.phase ≠ .error ∧
      t.regs.phase = .error := ⟨_, rfl, by decide, rfl⟩

theorem test_witness_OnlyClearOrResetLeavesError :
    (holding failed).regs.phase = .error ∧ 0x0000000101#40 ≠ 0x0000000001#40 ∧
    ∀ a ∈ [HostAction.command 0x01, .command 0x4110, .takeByte, .assertReset],
      (hosted failed [a]).regs.phase = .error ∧ isNext (step (hosted failed [a])) = true := by decide

/-- Every error a decoded command can raise is raised somewhere (R211). The tree of the CAP_CODELEN
case is a chain of 32 internal nodes over one leaf. -/
theorem test_witness_ErrorCausesAndInformation :
    Raises .tree State.reset .sequence ∧
    Raises (.hdrRd 0x4C) (holding { Regs.reset with phase := .hdrParse, hpos := 2 }) .formatMagic ∧
    Raises .eof State.reset .formatTruncHeader ∧
    Raises .eof (holding unpacking) .formatTruncPayload ∧
    Raises (.unpack 0x00) (holding { unpackingWith [⟨0x58, 1, 1⟩] 40 with ucnt := 32, ucons := 32 })
      .formatNocode ∧
    Raises .codegen
      (holding { Regs.reset with phase := .treeReady, ft := List.replicate 256 ⟨0, 1⟩ }) .capAlphabet ∧
    Raises (.count3 0x41 0x42 0x43)
      (holding { Regs.reset with phase := .counting, total := 4294967293 }) .capCount ∧
    Raises .codegen
      (holding { Regs.reset with
        phase := .treeReady, ft := [⟨0, 1⟩, ⟨1, 1⟩], root := 32
        node := .leaf 0x41 1 :: (List.range 32).map fun j => .internal (BitVec.ofNat 9 j) 0 0 })
      .capCodelen ∧
    Raises (.pack 0x43) (holding { packing with bitlen := 4294967294 }) .capBitlen ∧
    Raises (.pack 0x44) (holding packing) .nosym := by
  refine ⟨?_, ?_, ?_, ?_, ?_, ?_, ?_, ?_, ?_, ?_⟩ <;>
    exact ⟨by decide +kernel, by decide, _, eq_next (by decide +kernel), by decide +kernel, by decide +kernel⟩

theorem good_beforeLast :
    GoodState (stateOf (runInstrs (hdrsOf headerP1.dropLast) State.reset)) :=
  run_good good_reset (eq_next (by decide +kernel))

theorem good_read :
    GoodState (stateOf (runInstrs [.unpack 0x1F, .unpack 0x00] (holding unpacking))) :=
  run_good good_unpacking (eq_next (by decide +kernel))

/-- The transitions of a PACK, of the header's last byte and of EOF. -/
theorem test_witness_PhasesFollowTheTransitionTable :
    (GoodState (holding packing) ∧
      ∃ t, exec (.pack 0x43) (holding packing) = .next t ∧ t.regs.phase ≠ .error) ∧
    ((holding packing).regs.phase ≠ .error ∧ (holding packing).regs.phase ∉ legalPhases .tree) ∧
    (∃ s t, GoodState s ∧ s.regs.phase ≠ .error ∧ exec (.hdrRd 0x02) s = .next t ∧
      t.regs.phase = .unpacking) ∧
    ∃ s t, GoodState s ∧ s.regs.phase ≠ .error ∧ exec .eof s = .next t ∧ t.regs.phase = .decDone := by
  refine ⟨⟨good_packing, _, rfl, by decide⟩, by decide, ?_, ?_⟩
  · exact ⟨_, _, good_beforeLast, by decide +kernel, eq_next (by decide +kernel), by decide +kernel⟩
  · exact ⟨_, _, good_read, by decide +kernel, eq_next (by decide +kernel), by decide +kernel⟩

theorem test_witness_EachElementHasItsWriter :
    ∃ t, exec (.pack 0x43) (holding packing) = .next t ∧ Instr.pack 0x43 ≠ .clear ∧
      isCount (.pack 0x43) = false ∧ t.regs.phase ≠ .error := ⟨_, rfl, by decide, by decide, by decide⟩

theorem test_witness_FrequencyTableIsImmutableOnceBuilt :
    ∃ t, (holding ftReady).regs.phase ∉ [Phase.idle, .counting] ∧ Instr.count1 0 ≠ .clear ∧
      exec (.count1 0) (holding ftReady) = .next t ∧ isCount (.count1 0) = true :=
  ⟨_, by decide, by decide, rfl, by decide⟩

theorem test_witness_OutcntCountsTheBytesEmitted :
    ∃ t, exec (.pack 0x43) (holding packing) = .next t ∧ Instr.pack 0x43 ≠ .clear ∧ t.outQ = [0x1F] :=
  ⟨_, rfl, by decide, rfl⟩

theorem test_witness_CallDependsOnItsCommandsAlone :
    ∃ t, runInstrs [.clear, .hdrRd 0x51] (holding failed) = .next t := ⟨_, rfl⟩

/-- TOTAL at the last value with room, and one past it, in both phases. -/
theorem test_witness_CountAddsEachLane :
    isCount (.count4 1 2 2 4) = true ∧
    ∀ r ∈ [{ Regs.reset with total := 4294967291 }, { counted with total := 4294967291 }],
      (r.phase = .idle ∨ r.phase = .counting) ∧
      r.total.toNat + (countLanes (.count4 1 2 2 4)).length ≤ 4294967295 ∧
      ({ r with total := 4294967292 } : Regs).total.toNat + (countLanes (.count4 1 2 2 4)).length >
        4294967295 := by decide

/-- V13 and V16. -/
theorem test_witness_LaneLaw :
    let cs := [Instr.count4 0x41 0x41 0x41 0x42, .count2 0x42 0x43]
    let ds := [0x43, 0x42, 0x41, 0x42, 0x41, 0x41].map Instr.count1
    (∀ i ∈ cs, isCount i = true) ∧ (∀ i ∈ ds, isCount i = true) ∧
    (cs.flatMap countLanes).Perm (ds.flatMap countLanes) ∧ State.reset.regs.phase = .idle ∧
    State.reset.regs.total.toNat + (cs.flatMap countLanes).length ≤ 4294967295 := by decide

theorem test_witness_CountsLeavesTheOccurrences :
    State.reset.regs = Regs.reset ∧ ([0x41, 0x41, 0x42] : List Byte).length ≤ 4294967295 :=
  ⟨rfl, by decide⟩

theorem test_witness_FtbuildSortsTheOccurringSymbols :
    State.reset.regs.phase = .idle ∧ (holding counted).regs.phase = .counting := by decide

/-- Frequency Tables of 0, 1, 2 and 256 entries; the second with the greatest sum. -/
theorem test_witness_TreeBuildsAFullBinaryTree :
    ∀ ft ∈ [[], [⟨0x5A, 0xFFFFFFFF⟩], [⟨0x41, 2⟩, ⟨0x42, 1⟩], allSymbols.map fun b => (⟨b, 1⟩ : FtEntry)],
      ({ Regs.reset with phase := .ftReady, ft := ft } : Regs).phase = .ftReady ∧
      ft.length ≤ 256 ∧ sumFt ft ≤ 4294967295 := by decide +kernel

/-- The first merge of P1: C and B, while A stands in the working sequence. -/
theorem test_witness_EachMergeTakesTheTwoFirstNodes :
    (holding ftReady).regs.phase = .ftReady ∧ ftReady.ft.length ≤ 256 ∧ sumFt ftReady.ft ≤ 4294967295 ∧
    ftReady.ft.Pairwise (fun a b => b.cnt.toNat ≤ a.cnt.toNat) ∧
    exec .tree (holding ftReady) = .next (holding treeReady) ∧
    treeReady.node[3]? = some (.internal 2 1 3) ∧ (0 < 3 ∧ 0 ≠ 2 ∧ 0 ≠ 1) ∧
    ∀ j' : Nat, j' < 3 → ¬ChildOf treeReady.node 0 j' := by
  refine ⟨rfl, by decide, by decide, by decide, test_tree, rfl, by decide, ?_⟩
  rintro j' hj ⟨l, r, f, h, _⟩
  obtain rfl | rfl | rfl : j' = 0 ∨ j' = 1 ∨ j' = 2 := by omega
  all_goals exact absurd h (by simp [treeReady])

/-! ### Trees for the Code Table Generator's statements -/

/-- The tree under node `j` of an arena, if it is one. -/
def treeOf (nodes : List Node) : Nat → Nat → Option CodeTree
  | 0, _ => none
  | fuel + 1, j =>
    match (nodes[j]? : Option Node) with
    | some (.leaf sym f) => some (.leaf sym f)
    | some (.internal l r _) =>
      if l.toNat < j ∧ r.toNat < j then
        match treeOf nodes fuel l.toNat, treeOf nodes fuel r.toNat with
        | some tl, some tr => some (.node tl tr)
        | _, _ => none
      else none
    | none => none

theorem rep_treeOf {nodes : List Node} : ∀ (fuel j : Nat) {t : CodeTree},
    treeOf nodes fuel j = some t → Rep nodes j t := by
  intro fuel
  induction fuel with
  | zero => intro j t h; cases h
  | succ fuel ih =>
    intro j t h
    simp only [treeOf] at h
    split at h
    · cases h; exact .leaf ‹_›
    · split at h
      · rename_i hlt
        split at h
        · cases h
          exact .node ‹_› hlt.1 hlt.2 (ih _ ‹_›) (ih _ ‹_›)
        · cases h
      · cases h
    · cases h

/-- The paths of the tree under node `j`, left to right. -/
def pathsOf (nodes : List Node) (j : Nat) : List (List Bool × Byte) :=
  match treeOf nodes nodes.length j with
  | some t => t.paths
  | none => []

theorem leads_pathsOf {nodes : List Node} {j : Nat} (h : (treeOf nodes nodes.length j).isSome = true)
    (w : List Bool) (sym : Byte) : Leads nodes j w sym ↔ (w, sym) ∈ pathsOf nodes j := by
  obtain ⟨t, ht⟩ := Option.isSome_iff_exists.1 h
  rw [pathsOf, ht]
  exact leads_iff (rep_treeOf _ _ ht) w sym

/-- P1's tree: A is 0, C is 10, B is 11. -/
theorem paths_P1 (w : List Bool) (sym : Byte) :
    Leads treeReady.node treeReady.root.toNat w sym ↔
      (w, sym) ∈ [([false], 0x41#8), ([true, false], 0x43#8), ([true, true], 0x42#8)] :=
  leads_pathsOf (by decide) w sym

/-- The record of a call in TREE_READY with the counters `cnt`. -/
def treeRegs (cnt : Vector Word32 256) (total : Word32) (ft : List FtEntry) : Regs :=
  { Regs.reset with
    phase := .treeReady, cnt := cnt, total := total, ft := ft
    node := (buildTree ft).1, root := (buildTree ft).2 }

theorem good_treeRegs {cnt : Vector Word32 256} {total : Word32} {ft : List FtEntry}
    (h : total.toNat = sumCnt cnt) (hf : buildFt cnt = ft) : GoodState (holding (treeRegs cnt total ft)) :=
  ⟨⟨fun _ => ⟨rfl, rfl, rfl⟩, fun e => nomatch e⟩, rfl, h, hf.symm, rfl⟩

theorem buildFt_zero : buildFt Regs.reset.cnt = [] := by
  rw [List.eq_nil_iff_forall_not_mem]
  intro e he
  rw [mem_buildFt, counter_reset] at he
  rw [he.1] at he
  exact absurd he.2 (by decide)

/-- Counters of 4 for `Z` alone. -/
def cntSingle : Vector Word32 256 := Regs.reset.cnt.set 0x5A 4

theorem buildFt_single : buildFt cntSingle = [⟨0x5A, 4⟩] := by decide +kernel

/-- Counters of 1 for every symbol (V27). -/
def cntAll : Vector Word32 256 := Vector.replicate 256 1

theorem counter_all (b : Byte) : counter cntAll b = 1 := by simp [counter, cntAll]

theorem length_buildFt_all : (buildFt cntAll).length = 256 := by
  simp [length_buildFt, distinctSyms, counter_all]

theorem sumCnt_all : sumCnt cntAll = 256 := by
  simp only [sumCnt, counter_all, List.map_const', List.sum_replicate, length_allSymbols]
  rfl

theorem sumCnt_single : sumCnt cntSingle = 4 := by decide +kernel

/-- The Fibonacci numbers. -/
def fib : Nat → Nat × Nat
  | 0 => (1, 1)
  | n + 1 => ((fib n).2, (fib n).1 + (fib n).2)

/-- V42's Frequency Table: 33 symbols with Fibonacci counts. -/
def ftFib : List FtEntry :=
  ((List.range 31).map fun k => ⟨BitVec.ofNat 8 (32 - k), BitVec.ofNat 32 (fib (32 - k)).1⟩) ++
  [⟨0x00, 1⟩, ⟨0x01, 1⟩]

/-- V42's counters. -/
def cntFib : Vector Word32 256 :=
  ⟨(((List.range 33).map fun k => BitVec.ofNat 32 (fib k).1) ++ List.replicate 223 0).toArray, by
    simp only [List.size_toArray, List.length_append, List.length_map, List.length_range,
      List.length_replicate]⟩

theorem buildFt_fib : buildFt cntFib = ftFib := by decide +kernel

theorem sumCnt_fib : sumCnt cntFib = 9227464 := by decide +kernel

theorem good_fib : GoodState (holding (treeRegs cntFib 9227464 ftFib)) :=
  good_treeRegs (by rw [sumCnt_fib]; rfl) buildFt_fib

/-- V42: the first leaf deeper than 31 is that of 0x01, on the left of the two at depth 32. -/
theorem paths_fib (w : List Bool) (sym : Byte) :
    Leads (treeRegs cntFib 9227464 ftFib).node (treeRegs cntFib 9227464 ftFib).root.toNat w sym ↔
      (w, sym) ∈ pathsOf (buildTree ftFib).1 (buildTree ftFib).2.toNat :=
  leads_pathsOf (by decide +kernel) w sym

theorem test_witness_CodegenWritesThePathOfEachLeaf :
    GoodState (holding treeReady) ∧ (holding treeReady).regs.phase = .treeReady ∧
    2 ≤ treeReady.ft.length ∧ treeReady.ft.length ≤ 255 ∧
    ∀ w sym, Leads treeReady.node treeReady.root.toNat w sym → w.length ≤ 31 := by
  refine ⟨good_treeReady, rfl, by decide, by decide, fun w sym h => ?_⟩
  rw [paths_P1] at h
  simp only [List.mem_cons, List.not_mem_nil, or_false, Prod.mk.injEq] at h
  rcases h with ⟨rfl, _⟩ | ⟨rfl, _⟩ | ⟨rfl, _⟩ <;> decide

/-- No symbol, one symbol, all 256. -/
theorem test_witness_CodegenCornerCases :
    GoodState (holding (treeRegs Regs.reset.cnt 0 [])) ∧
    GoodState (holding (treeRegs cntSingle 4 [⟨0x5A, 4⟩])) ∧
    (GoodState (holding (treeRegs cntAll 256 (buildFt cntAll))) ∧
      (treeRegs cntAll 256 (buildFt cntAll)).ft.length = 256) ∧
    ∀ cnt total ft, (holding (treeRegs cnt total ft)).regs.phase = .treeReady := by
  refine ⟨good_treeRegs ?_ buildFt_zero, good_treeRegs ?_ buildFt_single,
    ⟨good_treeRegs ?_ (Eq.refl _), ?_⟩, fun _ _ _ => rfl⟩
  · rw [sumCnt_replicate]; rfl
  · rw [sumCnt_single]; rfl
  · rw [sumCnt_all]; rfl
  · simp only [treeRegs, length_buildFt_all]

theorem test_witness_CodegenRejectsTooDeepLeaves :
    (GoodState (holding (treeRegs cntFib 9227464 ftFib)) ∧
      2 ≤ ftFib.length ∧ ftFib.length ≤ 255 ∧
      ∃ w sym,
        Leads (treeRegs cntFib 9227464 ftFib).node (treeRegs cntFib 9227464 ftFib).root.toNat w sym ∧
        31 < w.length ∧
        ∀ v sym',
          Leads (treeRegs cntFib 9227464 ftFib).node (treeRegs cntFib 9227464 ftFib).root.toNat v sym' →
          v < w → v.length ≤ 31) ∧
    GoodState (holding treeReady) ∧ 2 ≤ treeReady.ft.length ∧ treeReady.ft.length ≤ 32 ∧
    ∃ w sym, Leads treeReady.node treeReady.root.toNat w sym := by
  refine ⟨⟨good_fib, by decide, by decide, List.replicate 31 true ++ [false], 0x01, ?_, by decide, ?_⟩,
    good_treeReady, by decide, by decide, [false], 0x41, ?_⟩
  · rw [paths_fib]
    decide +kernel
  · intro v sym' h hv
    rw [paths_fib] at h
    have hs : ∀ p ∈ pathsOf (buildTree ftFib).1 (buildTree ftFib).2.toNat,
        p.1 < List.replicate 31 true ++ [false] → p.1.length ≤ 31 := by decide +kernel
    exact hs _ h hv
  · rw [paths_P1]
    decide

/-! ### Witnesses, continued -/

theorem test_witness_EncoderTableIsACompletePrefixCode :
    GoodState (holding tableReady) ∧
    tableReady.stage ∈ [Phase.tableReady, .packing, .packDone, .encDone] ∧
    2 ≤ tableReady.ct.length := ⟨good_tableReady, by decide, by decide⟩

theorem test_witness_MoreFrequentSymbolsHaveNoLongerCodes :
    GoodState (holding packing) ∧
    packing.stage ∈ [Phase.tableReady, .packing, .packDone, .encDone] ∧
    (⟨0x41, 0, 1⟩ : CtEntry) ∈ packing.ct ∧ (⟨0x43, 2, 2⟩ : CtEntry) ∈ packing.ct ∧
    (counter packing.cnt 0x43).toNat < (counter packing.cnt 0x41).toNat :=
  ⟨good_packing, by decide, by decide, by decide, by decide +kernel⟩

/-- In both phases; in the second BITLEN is the last value with room for two bits. -/
theorem test_witness_PackAppendsTheCode :
    ∀ r ∈ [tableReady, { packing with bitlen := 4294967293 }],
      (r.phase = .tableReady ∨ r.phase = .packing) ∧
      lookupSym r.ct 0x43 = some ⟨0x43, 2, 2⟩ ∧
      r.bitlen.toNat + (2#8).toNat ≤ 4294967295 ∧ r.pacc.toNat < 2 ^ r.pcnt.toNat ∧
      (2#32).toNat < 2 ^ (2#8).toNat := by
  rintro r hr
  simp only [List.mem_cons, List.not_mem_nil, or_false] at hr
  rcases hr with rfl | rfl <;> decide

/-- A symbol without an entry; BITLEN one past the last value with room. -/
theorem test_witness_PackErrors :
    (tableReady.phase = .tableReady ∧ ∀ e ∈ tableReady.ct, e.sym ≠ 0x44) ∧
    packing.phase = .packing ∧ tableP1 = [⟨0x41, 0, 1⟩] ++ ⟨0x43, 2, 2⟩ :: [⟨0x42, 3, 2⟩] ∧
    (∀ x ∈ [(⟨0x41, 0, 1⟩ : CtEntry)], x.sym ≠ 0x43) ∧
    ({ packing with bitlen := 4294967294 } : Regs).bitlen.toNat + (2#8).toNat > 4294967295 := by decide

/-- With no pending bit and with seven. -/
theorem test_witness_PackEndPadsTheLastByte :
    (tableReady.phase = .tableReady ∧ tableReady.pacc.toNat < 2 ^ tableReady.pcnt.toNat ∧
      tableReady.pcnt = 0) ∧
    packing.phase = .packing ∧ packing.pacc.toNat < 2 ^ packing.pcnt.toNat ∧ packing.pcnt ≠ 0 := by decide

theorem test_witness_PayloadIsTheConcatenationOfTheCodes :
    GoodState (holding tableReady) ∧ (holding tableReady).regs.phase = .tableReady ∧
    ∃ B, payloadBits tableReady.ct [0x41, 0x41, 0x41, 0x42, 0x42, 0x43] = some B ∧
      B.length ≤ 4294967295 := ⟨good_tableReady, rfl, _, rfl, by decide⟩

theorem test_witness_HdrWrEmitsTheHeader :
    (holding packDone).regs.phase = .packDone ∧ packDone.ct[2]? = some ⟨0x42, 3, 2⟩ := by decide

/-- A wrong byte at each of the three offsets. -/
theorem test_witness_HdrRdChecksTheMagicByteByByte :
    (Regs.reset.phase = .idle ∧ Regs.reset.hpos = 0 ∧ (0x50#8) ≠ 0x51) ∧
    ∀ p ∈ [1#11, 2#11],
      ({ Regs.reset with phase := .hdrParse, hpos := p } : Regs).phase = .hdrParse ∧
      ((p = 1 ∧ (0x51#8) ≠ 0x50) ∨ (p = 2 ∧ (0x51#8) ≠ 0x4B)) := by decide

/-- The right magic byte, and any byte where each of the other cases begins and ends. -/
theorem test_witness_HdrRdStoresTheHeaderByte :
    (Regs.reset.phase = .idle ∧ (Regs.reset.hpos = 0 → (0x51#8) = 0x51) ∧
      (Regs.reset.hpos = 1 → (0x51#8) = 0x50) ∧ (Regs.reset.hpos = 2 → (0x51#8) = 0x4B)) ∧
    ∀ p ∈ [3#11, 6#11, 7#11, 8#11, 9#11, 12#11, 13#11, 1537#11],
      (p = 0 → (0xAA#8) = 0x51) ∧ (p = 1 → (0xAA#8) = 0x50) ∧ (p = 2 → (0xAA#8) = 0x4B) := by decide

/-- The largest table. -/
theorem test_witness_HeaderRoundTrip :
    (holding packDone).regs.phase = .packDone ∧ State.reset.regs = Regs.reset ∧ (List.replicate 255 (⟨0x41, 0, 1⟩ : CtEntry)).length ≤ 255 :=
  ⟨rfl, rfl, by rw [List.length_replicate]⟩

/-- A byte that is read (V70), and one whose first bit finds 32 bits pending (V74). -/
theorem test_witness_UnpackReadsTheBitString :
    (unpacking.phase = .unpacking ∧ unpacking.ucons.toNat ≤ unpacking.bitlen.toNat ∧
      unpacking.ucnt.toNat ≤ 32 ∧ unpacking.uacc.toNat < 2 ^ unpacking.ucnt.toNat ∧
      ∃ x, readBits unpacking.ct (lowBits unpacking.ucnt.toNat unpacking.uacc.toNat)
        ((lowBits 8 0x1F).take (unpacking.bitlen.toNat - unpacking.ucons.toNat)) = .ok x) ∧
    ∃ r : Regs, r.phase = .unpacking ∧ r.ucons.toNat ≤ r.bitlen.toNat ∧ r.ucnt.toNat ≤ 32 ∧
      r.uacc.toNat < 2 ^ r.ucnt.toNat ∧
      ∃ n, readBits r.ct (lowBits r.ucnt.toNat r.uacc.toNat)
        ((lowBits 8 0x00).take (r.bitlen.toNat - r.ucons.toNat)) = .error n :=
  ⟨⟨rfl, by decide, by decide, by decide, _, rfl⟩,
    { unpackingWith [⟨0x58, 1, 1⟩] 40 with ucnt := 32, ucons := 32 },
    rfl, by decide, by decide, by decide, _, rfl⟩

/-- At the stop; and with room for exactly the eight bits of the byte. -/
theorem test_witness_UnpackCompletesWithRoom :
    ({ unpacking with ucons := 9 } : Regs).phase = .unpacking ∧
    ({ unpacking with ucons := 9 } : Regs).ucons = ({ unpacking with ucons := 9 } : Regs).bitlen ∧
    ∃ r : Regs, r.phase = .unpacking ∧ r.ucons.toNat ≤ r.bitlen.toNat ∧
      r.ucnt.toNat + min 8 (r.bitlen.toNat - r.ucons.toNat) = 32 :=
  ⟨rfl, rfl, { unpackingWith [] 40 with ucnt := 24, ucons := 24 }, rfl, by decide, by decide⟩

/-- IDLE, HDR_PARSE; UNPACKING one bit short and complete. -/
theorem test_witness_EofEndsTheDecode :
    Regs.reset.phase = .idle ∧ ({ Regs.reset with phase := .hdrParse, hpos := 1 } : Regs).phase = .hdrParse ∧
    (({ unpacking with ucons := 8 } : Regs).phase = .unpacking ∧
      ({ unpacking with ucons := 8 } : Regs).ucons.toNat < unpacking.bitlen.toNat) ∧
    ({ unpacking with ucons := 9 } : Regs).phase = .unpacking ∧
      unpacking.bitlen.toNat ≤ ({ unpacking with ucons := 9 } : Regs).ucons.toNat := by decide

/-- P1 from any state. -/
theorem test_witness_DecodeOfEncodeIsTheInput :
    ∃ t, runInstrs (encodeCall [0x41, 0x41, 0x41, 0x42, 0x42, 0x43]) (holding failed) = .next t ∧
      t.regs.phase = .encDone ∧ t.outQ = (holding failed).outQ ++ ([0x1F, 0x00] ++ headerP1) := by
  have h1 : runInstrs ([.clear] ++ countsOf [0x41, 0x41, 0x41, 0x42, 0x42, 0x43]) (holding failed) =
      .next (holding counted) := runP1_counts
  have h2 : runInstrs [.ftbuild, .tree, .codegen] (holding counted) = .next (holding tableReady) := by
    rw [runInstrs_cons stepP1_ftbuild, runInstrs_cons test_tree, runInstrs_cons test_codegen]
    rfl
  have h3 : runInstrs (packsOf [0x41, 0x41, 0x41, 0x42, 0x42, 0x43]) (holding tableReady) =
      .next { holding packed with outQ := [0x1F] } :=
    runInstrs_append (bs := [.pack 0x43]) test_packs (runInstrs_cons test_pack [])
  have h4 : runInstrs [.packEnd, .hdrWr] { holding packed with outQ := [0x1F] } = .next _ :=
    (runInstrs_cons test_packEnd _).trans (runInstrs_cons test_hdrWr [])
  exact ⟨_, runInstrs_append (runInstrs_append (runInstrs_append h1 h2) h3) h4, rfl, rfl⟩

/-- Entry and node 0, and the first one past the counts. -/
theorem test_witness_ArrayWindowsAreGatedByTheirCounts :
    tableReady.ft[0]? = some ⟨0x41, 3⟩ ∧ tableReady.ft.length ≤ 255 ∧
    tableReady.ct[0]? = some ⟨0x41, 0, 1⟩ ∧ tableReady.ct.length ≤ 254 ∧
    tableReady.node[4]? = some (.internal 0 3 6) ∧ tableReady.node.length ≤ 510 := by decide

theorem test_witness_StepKeepsTheGoodState :
    GoodState (hosted packing [.command 0x0000004340]) ∧
    ∃ t, step (hosted packing [.command 0x0000004340]) = .next t := ⟨good_packing, _, rfl⟩

theorem test_witness_GoodStatesNeverStop : GoodState (hosted treeReady [.command 0x30]) := good_treeReady

/-- A file shorter than 8 bytes, one with its 8th byte, and one that goes on after its header. -/
theorem test_witness_DecodeExpandsToItsCommands :
    ([0x51, 0x50] : List Byte).length < 8 ∧ headerP1[7]? = some 0x03 ∧
    (holding unpacking).regs.phase ≠ .error ∧
    runInstrs (.clear :: hdrsOf ((headerP1 ++ [0x1F]).take 26)) State.reset =
      .next (holding unpacking) ∧
    26 < (headerP1 ++ [0x1F]).length := by
  refine ⟨by decide, by decide, by decide, by rfl, by decide⟩

theorem test_witness_GoodStatesMeetRuleR43 :
    GoodState (holding packing) ∧ packing.stage = .packing ∧
    GoodState (holding unpacking) ∧ unpacking.stage = .unpacking :=
  ⟨good_packing, rfl, good_unpacking, rfl⟩

end Sys2Proof.Tests
end

section
/-!
PROOFS. The state family (spec/10_state.md): reset and CLEAR, the CSR map, who writes each element
of the record, a call as a function of its commands, and the good states with rule R43.
-/

namespace Sys2Proof.Machine

open Sys2Proof.Safety

/-! ### Every step keeps the good state (R43) -/

/-- Everything a step can do: wait, or perform one of the host's actions. -/
theorem step_cases {s t : State} (h : step s = .next t) :
    t = s ∨ ∃ a rest, nextAction s = some (a, rest) ∧ perform a { s with host := rest } = .next t := by
  unfold step hostStep at h
  split at h
  next => cases h; exact .inl rfl
  next a rest ha => exact .inr ⟨a, rest, ha, h⟩

/-- A good state is a matter of the record alone. -/
theorem goodState_of_regs_eq {s t : State} (h : GoodState s) (hr : t.regs = s.regs) : GoodState t := by
  rwa [GoodState, hr]

/-- Issuing any word, legal or not, keeps the good state. -/
theorem issueWord_good {w : CmdWord} {s t : State} (h : GoodState s) (hx : issueWord w s = .next t) :
    GoodState t := by
  rcases issueWord_cases hx with ⟨i, _, hi⟩ | ⟨_, rfl⟩ | ⟨he, rfl⟩
  · exact exec_good h hi
  · exact h
  · exact good_errorEntry h he (by decide) _

/-- Every action of the host keeps the good state. -/
theorem perform_good {a : HostAction} {s t : State} (h : GoodState s) (hx : perform a s = .next t) :
    GoodState t := by
  cases a with
  | command w => exact issueWord_good h hx
  | takeByte => cases hx; exact goodState_of_regs_eq h (takeOutput_regs s)
  | readCsr a => cases hx; exact goodState_of_regs_eq h (answerCsr_regs s a)
  | assertReset => cases hx; exact good_of_reset (resetCore_regs s)

/-- Settles O49: a step waits or performs one action of the host, and each action keeps the good
state. -/
theorem stepKeepsTheGoodState : Obligations.StepKeepsTheGoodState := by
  intro s t h hx
  rcases step_cases hx with rfl | ⟨a, rest, _, hp⟩
  · exact h
  · exact perform_good (s := { s with host := rest }) (goodState_of_regs_eq h rfl) hp

/-! ### The writers of the elements, and the stream (R20, R34, R45) -/

/-- Settles O18: a command that is dropped or raises an error leaves the elements alone, and one
that completes leaves what its own rule leaves (`bodyOf_done`). -/
theorem eachElementHasItsWriter : Obligations.EachElementHasItsWriter := by
  intro i s t h hc
  rcases exec_cases h with ⟨hi, _⟩ | ⟨_, _, rfl⟩ | ⟨_, _, rfl⟩ |
    ⟨_, _, _, _, ⟨e, info, _, rfl⟩ | ⟨r, out, hb, rfl⟩⟩
  · exact absurd hi hc
  · simp
  · simp
  · simp
  · obtain ⟨_, herr, hinfo, heph, hcnt, hft, htree, hct, hbit, hsize, hpack, hunp, hhdr, _⟩ :=
      bodyOf_done hb
    exact ⟨hcnt, hft, htree, hct, hbit, hsize, hpack, hunp, hhdr,
      fun _ => ⟨herr, hinfo, heph⟩, rfl, rfl, rfl⟩

/-- Settles O20: only a command that completes emits, and its own rule leaves OUTCNT to the shared
emission, which counts the bytes. -/
theorem outcntCountsTheBytesEmitted : Obligations.OutcntCountsTheBytesEmitted := by
  intro i s t hc h
  rcases exec_cases h with ⟨hi, _⟩ | ⟨_, _, rfl⟩ | ⟨_, _, rfl⟩ |
    ⟨_, _, _, _, ⟨e, info, _, rfl⟩ | ⟨r, out, hb, rfl⟩⟩
  · exact absurd hi hc
  · exact ⟨[], by simp⟩
  · exact ⟨[], by simp⟩
  · exact ⟨[], by simp⟩
  · obtain ⟨hout, _⟩ := bodyOf_done hb
    exact ⟨out, by simp [hout]⟩

/-- From two states with the same record a list of commands ends in the same record and emits the
same bytes. -/
theorem runInstrs_regs {cs : List Instr} {s s' t : State} (hr : s.regs = s'.regs)
    (h : runInstrs cs s = .next t) :
    ∃ out t', runInstrs cs s' = .next t' ∧ t'.regs = t.regs ∧ t.outQ = s.outQ ++ out ∧
      t'.outQ = s'.outQ ++ out := by
  induction cs generalizing s s' with
  | nil => cases h; exact ⟨[], s', rfl, hr.symm, by simp⟩
  | cons i cs ih =>
    cases hi : exec i s with
    | next u =>
      rw [runInstrs_cons hi] at h
      obtain ⟨u', o1, hi', hu, hq, hq'⟩ := exec_regs hr hi
      obtain ⟨o2, t', hcs, ht, hq2, hq2'⟩ := ih hu.symm h
      exact ⟨o1 ++ o2, t', by rw [runInstrs_cons hi', hcs], ht, by rw [hq2, hq, List.append_assoc],
        by rw [hq2', hq', List.append_assoc]⟩
    | fault f => simp [runInstrs, hi] at h
    | refused r => simp [runInstrs, hi] at h

/-- Settles O21: after CLEAR both runs hold the same record. -/
theorem callDependsOnItsCommandsAlone : Obligations.CallDependsOnItsCommandsAlone := by
  intro cs s s' t h
  rw [runInstrs_cons (exec_clear s)] at h
  obtain ⟨out, t', hrun, hregs, hq, hq'⟩ :=
    runInstrs_regs (s := { s with regs := Regs.reset }) (s' := { s' with regs := Regs.reset }) rfl h
  exact ⟨out, t', by rw [runInstrs_cons (exec_clear s'), hrun], hregs, hq, hq'⟩

/-! ### The CSR map (R38 to R41) -/

/-- The address of entry `k` of a window. -/
theorem toNat_windowAddr {base : CsrAddr} {k : Nat} (h : base.toNat + k < 4096) :
    (base + BitVec.ofNat 12 k).toNat = base.toNat + k := by
  rw [BitVec.toNat_add, BitVec.toNat_ofNat, Nat.mod_eq_of_lt (a := k) (by omega), Nat.mod_eq_of_lt h]

theorem window_entry {α : Type} {table : List α} {k : Nat} {x : α} (h : table[k]? = some x)
    (view : α → Word32) : window table view k = view x := by
  simp [window, h]

theorem window_beyond {α : Type} {table : List α} {k : Nat} (h : table.length ≤ k)
    (view : α → Word32) : window table view k = 0 := by
  simp [window, h]

/-- The scalar registers end at 0x011 (R38). -/
theorem scalarCsr_beyond (r : Regs) {n : Nat} (h : 0x011 < n) : scalarCsr r n = 0 := by
  unfold scalarCsr
  split
  case h_19 => rfl
  all_goals omega

section Windows

variable (r : Regs) {a : CsrAddr} {k : Nat}

theorem csrRead_counter (b : Byte) (ha : a.toNat = 0x100 + b.toNat) :
    csrRead r a = counter r.cnt b := by
  have hb := b.isLt
  simp (disch := omega) only [csrRead, ha, if_neg, if_pos, Nat.add_sub_cancel_left,
    BitVec.ofNat_toNat, BitVec.setWidth_eq]

theorem csrRead_ftSym (ha : a.toNat = 0x200 + k) (hk : k < 256) :
    csrRead r a = window r.ft (fun e => zext32 e.sym) k := by
  simp (disch := omega) only [csrRead, ha, if_neg, if_pos, Nat.add_sub_cancel_left]

theorem csrRead_ftCnt (ha : a.toNat = 0x300 + k) (hk : k < 256) :
    csrRead r a = window r.ft (fun e => e.cnt) k := by
  simp (disch := omega) only [csrRead, ha, if_neg, if_pos, Nat.add_sub_cancel_left]

theorem csrRead_ctSym (ha : a.toNat = 0x400 + k) (hk : k < 255) :
    csrRead r a = window r.ct (fun e => zext32 e.sym) k := by
  simp (disch := omega) only [csrRead, ha, if_neg, if_pos, Nat.add_sub_cancel_left]

theorem csrRead_ctCode (ha : a.toNat = 0x500 + k) (hk : k < 255) :
    csrRead r a = window r.ct (fun e => e.code) k := by
  simp (disch := omega) only [csrRead, ha, if_neg, if_pos, Nat.add_sub_cancel_left]

theorem csrRead_ctLen (ha : a.toNat = 0x600 + k) (hk : k < 255) :
    csrRead r a = window r.ct (fun e => zext32 e.len) k := by
  simp (disch := omega) only [csrRead, ha, if_neg, if_pos, Nat.add_sub_cancel_left]

theorem csrRead_nodeFreq (ha : a.toNat = 0x800 + k) (hk : k < 511) :
    csrRead r a = window r.node Node.freq k := by
  simp (disch := omega) only [csrRead, ha, if_neg, if_pos, Nat.add_sub_cancel_left]

theorem csrRead_nodeInfo (ha : a.toNat = 0xA00 + k) (hk : k < 511) :
    csrRead r a = window r.node Node.info k := by
  simp (disch := omega) only [csrRead, ha, if_neg, if_pos, Nat.add_sub_cancel_left]

/-- Between and after the windows nothing is mapped (R38). -/
theorem csrRead_unmapped (h : (0x011 < a.toNat ∧ a.toNat < 0x100) ∨ a.toNat = 0x4FF ∨
    a.toNat = 0x5FF ∨ (0x6FE < a.toNat ∧ a.toNat < 0x800) ∨ a.toNat = 0x9FF ∨ 0xBFE < a.toNat) :
    csrRead r a = 0 := by
  rcases h with ⟨h1, h2⟩ | h | h | ⟨h1, h2⟩ | h | h
  · simp only [csrRead, if_pos h2, scalarCsr_beyond r h1]
  all_goals simp (disch := omega) only [csrRead, if_neg, if_pos]

end Windows

/-- Settles O46: each address is its window's entry (R40), given or beyond the count. -/
theorem arrayWindowsAreGatedByTheirCounts : Obligations.ArrayWindowsAreGatedByTheirCounts := by
  intro r
  refine ⟨fun b => ?_, fun k hk a ha => ?_, fun k hk a ha => ?_, fun k hk a ha => ?_,
    fun a ha => csrRead_unmapped r ha⟩
  · have hb := b.isLt
    exact csrRead_counter r b (by simp [BitVec.toNat_add]; omega)
  · subst ha
    rw [csrRead_ftSym r (toNat_windowAddr (by simp; omega)) hk,
      csrRead_ftCnt r (toNat_windowAddr (by simp; omega)) hk]
    exact ⟨fun e he => by simp only [window_entry he, and_self],
      fun h => by simp only [window_beyond h, and_self]⟩
  · subst ha
    rw [csrRead_ctSym r (toNat_windowAddr (by simp; omega)) hk,
      csrRead_ctCode r (toNat_windowAddr (by simp; omega)) hk,
      csrRead_ctLen r (toNat_windowAddr (by simp; omega)) hk]
    exact ⟨fun e he => by simp only [window_entry he, and_self],
      fun h => by simp only [window_beyond h, and_self]⟩
  · subst ha
    rw [csrRead_nodeFreq r (toNat_windowAddr (by simp; omega)) hk,
      csrRead_nodeInfo r (toNat_windowAddr (by simp; omega)) hk]
    exact ⟨fun n hn => by simp only [window_entry hn, and_self],
      fun h => by simp only [window_beyond h, and_self]⟩

/-- Settles O45: the rows of the map one by one. -/
theorem scalarCsrMap : Obligations.ScalarCsrMap := by
  intro r
  exact ⟨rfl, rfl, rfl, rfl, rfl, rfl, rfl, rfl, rfl, rfl, rfl, rfl, rfl, rfl, rfl, rfl, rfl, rfl⟩

/-- ERRF as a number (R37). -/
theorem errf_toNat (r : Regs) : r.errf.toNat = if r.phase = .error then 1 else 0 := by
  unfold Regs.errf; split <;> rfl

/-- Two fields side by side as a number: the upper one counts in units of the lower one's range. -/
theorem toNat_append_eq {m n : Nat} (x : BitVec m) (y : BitVec n) :
    (x ++ y).toNat = 2 ^ n * x.toNat + y.toNat := by
  rw [BitVec.toNat_append, ← Nat.shiftLeft_add_eq_or_of_lt y.isLt, Nat.shiftLeft_eq, Nat.mul_comm]

/-- Settles O47: the fields of both words stand side by side. -/
theorem statusAndNodeInfoFields : Obligations.StatusAndNodeInfoFields := by
  refine ⟨fun r => ?_, fun sym f => ?_, fun left right f => ?_⟩
  · show ((0#23 ++ r.errf : BitVec (23 + 1)) ++ r.ephase.code ++ r.phase.code).toNat = _
    simp only [toNat_append_eq, errf_toNat]
    split <;> simp <;> omega
  · show ((0#23 ++ sym : BitVec (23 + 8)) ++ 0#1).toNat = _
    simp only [toNat_append_eq]
    simp
  · show (((0#13 ++ right : BitVec (13 + 9)) ++ left) ++ 1#1).toNat = _
    simp only [toNat_append_eq]
    simp
    omega

/-! ### Reset, CLEAR and the good states (R43, R44) -/

/-- Settles O11: reset and CLEAR leave one and the same record. -/
theorem resetAndClearGiveTheResetValues : Obligations.ResetAndClearGiveTheResetValues := by
  refine ⟨fun s => ⟨clearRegs s, rfl, rfl⟩, fun s t r hr => ?_⟩
  have hreset : r = Regs.reset := by
    rcases hr with rfl | rfl | ⟨hx, rfl⟩
    · rfl
    · exact resetCore_regs s
    · rw [exec_clear] at hx
      cases hx
      rfl
  subst hreset
  exact ⟨rfl, rfl, rfl, rfl, counter_reset, rfl, rfl, rfl, rfl, rfl, rfl, rfl, rfl, rfl, rfl, rfl,
    rfl, rfl, rfl, rfl, rfl⟩

/-- Settles O48: the reset record is fresh and has no error recorded. -/
theorem resetStateIsGood : Obligations.ResetStateIsGood := good_of_reset rfl

/-- TOTAL and the counters still at their reset values agree. -/
theorem total_of_uncounted {r r' : Regs} (h : r = r') (ht : r'.total = 0)
    (hc : r'.cnt = Regs.reset.cnt) : r.total.toNat = sumCnt r.cnt := by
  rw [h, ht, hc, sumCnt_replicate]
  rfl

/-- The counters add up to TOTAL in every stage. -/
theorem goodStage_total {r : Regs} {p : Phase} (h : GoodStage r p) : r.total.toNat = sumCnt r.cnt := by
  cases p with
  | idle => exact total_of_uncounted h rfl rfl
  | counting => exact h.2
  | ftReady => obtain ⟨_, ht, _⟩ := h; exact ht
  | treeReady => obtain ⟨_, ht, _⟩ := h; exact ht
  | tableReady => obtain ⟨_, ht, _⟩ := h; exact ht
  | packing => obtain ⟨_, ⟨ht, _⟩, _⟩ := h; exact ht
  | packDone => obtain ⟨_, ⟨ht, _⟩, _⟩ := h; exact ht
  | encDone => obtain ⟨_, ⟨ht, _⟩, _⟩ := h; exact ht
  | hdrParse => obtain ⟨h, _⟩ := h; exact total_of_uncounted h rfl rfl
  | unpacking => obtain ⟨h, _⟩ := h; exact total_of_uncounted h rfl rfl
  | decDone => obtain ⟨h, _⟩ := h; exact total_of_uncounted h rfl rfl
  | error => exact h.elim

/-- From TABLE_READY to ENC_DONE the record holds a good table. -/
theorem goodStage_table {r : Regs} {p : Phase} (h : GoodStage r p)
    (hp : p ∈ [.tableReady, .packing, .packDone, .encDone]) : GoodTable r := by
  simp only [List.mem_cons, List.not_mem_nil, or_false] at hp
  rcases hp with rfl | rfl | rfl | rfl
  · exact h.2
  all_goals obtain ⟨_, hg, _⟩ := h; exact hg

/-- From TREE_READY to ENC_DONE the record holds the tree of its Frequency Table. -/
theorem goodStage_tree {r : Regs} {p : Phase} (h : GoodStage r p)
    (hp : p ∈ [.treeReady, .tableReady, .packing, .packDone, .encDone]) :
    (r.node, r.root) = buildTree r.ft := by
  rcases List.mem_cons.1 hp with rfl | hp
  · obtain ⟨_, _, _, ht⟩ := h; exact ht
  · obtain ⟨_, _, ht, _⟩ := goodStage_table h hp; exact ht

/-- From FT_READY to ENC_DONE the record holds the Frequency Table of its counters. -/
theorem goodStage_ft {r : Regs} {p : Phase} (h : GoodStage r p)
    (hp : p ∈ [.ftReady, .treeReady, .tableReady, .packing, .packDone, .encDone]) :
    r.ft = buildFt r.cnt := by
  rcases List.mem_cons.1 hp with rfl | hp
  · obtain ⟨_, _, hf⟩ := h; exact hf
  rcases List.mem_cons.1 hp with rfl | hp
  · obtain ⟨_, _, hf, _⟩ := h; exact hf
  · obtain ⟨_, hf, _⟩ := goodStage_table h hp; exact hf

/-- FTN counts the entries of a Frequency Table, of which there are at most 256 (R25). -/
theorem ftn_toNat {r : Regs} (h : r.ft = buildFt r.cnt) : r.ftn.toNat = r.ft.length := by
  have := length_buildFt_le r.cnt
  rw [← h] at this
  rw [Regs.ftn, BitVec.toNat_ofNat]
  omega

/-- CTN counts the entries of a Code Table, of which there are at most 255 (R28). -/
theorem ctn_toNat {r : Regs} (h : r.ct.length ≤ 255) : r.ctn.toNat = r.ct.length := by
  rw [Regs.ctn, BitVec.toNat_ofNat]
  omega

/-- A good table has one entry for each entry of the Frequency Table. -/
theorem goodTable_length {r : Regs} (h : GoodTable r) : r.ct.length = r.ft.length := by
  rcases goodTable_cases h with ⟨hft, hct⟩ | ⟨e, hft, hct⟩ | ⟨_, T, _, hleaves, _, hct⟩
  · rw [hft, hct]; rfl
  · rw [hft, hct]; rfl
  · rw [hct, List.length_map, length_paths, hleaves.length_eq]

/-- ROOT's frequency is the sum of the Frequency Table. -/
theorem buildTree_rootFreq {ft : List FtEntry} (hk : ft.length ≤ 256) (hs : sumFt ft ≤ 4294967295)
    (hne : ft ≠ []) :
    ∃ n : Node, (buildTree ft).1[(buildTree ft).2.toNat]? = some n ∧ n.freq.toNat = sumFt ft := by
  obtain ⟨_, _, T, hF⟩ := (buildTree_shape hk hs).2 hne
  have hlt := hF.lt (buildTree ft).2.toNat (by simp)
  refine ⟨_, List.getElem?_eq_getElem hlt, ?_⟩
  have hfreq := hF.freq _ hlt
  rw [nodeFreq, List.getElem?_eq_getElem hlt] at hfreq
  rw [← sumFt_perm hF.leaves]
  simpa [CodeTree.freq] using hfreq

/-- R43 on the tree: NN is 2·FTN - 1, or 0 for the empty table, and ROOT's frequency is TOTAL. -/
theorem tree_ruleR43 {r : Regs} (htot : r.total.toNat = sumCnt r.cnt) (hft : r.ft = buildFt r.cnt)
    (htree : (r.node, r.root) = buildTree r.ft) :
    (r.ftn.toNat = 0 → r.nn.toNat = 0) ∧
    (1 ≤ r.ftn.toNat → r.nn.toNat = 2 * r.ftn.toNat - 1 ∧
      ∃ n : Node, r.node[r.root.toNat]? = some n ∧ n.freq = r.total) := by
  have hk : r.ft.length ≤ 256 := hft ▸ length_buildFt_le r.cnt
  have hsum : sumFt r.ft = r.total.toNat := by rw [htot, hft, sumFt_buildFt]
  have hs : sumFt r.ft ≤ 4294967295 := by have := r.total.isLt; omega
  obtain ⟨hnode, hroot⟩ := Prod.ext_iff.1 htree
  simp only at hnode hroot
  obtain ⟨hempty, hfull⟩ := buildTree_shape hk hs
  rw [ftn_toNat hft, Regs.nn, BitVec.toNat_ofNat, hnode, hroot]
  refine ⟨fun h0 => ?_, fun h1 => ?_⟩
  · rw [hempty (List.length_eq_zero_iff.1 h0)]; rfl
  · have hne : r.ft ≠ [] := List.length_pos_iff.1 h1
    obtain ⟨hlen, -⟩ := hfull hne
    obtain ⟨n, hn, hfreq⟩ := buildTree_rootFreq hk hs hne
    exact ⟨by omega, n, hn, BitVec.eq_of_toNat_eq (hfreq.trans hsum)⟩

/-- R43 on the packer: before the first PACK its registers are 0 (R44). -/
theorem packing_ruleR43 {r : Regs} {p : Phase} (h : GoodStage r p) (hp : p ∈ [.tableReady, .packing]) :
    r.pcnt.toNat = r.bitlen.toNat % 8 ∧ r.pacc.toNat < 2 ^ r.pcnt.toNat ∧
    r.outcnt.toNat = r.bitlen.toNat / 8 := by
  simp only [List.mem_cons, List.not_mem_nil, or_false] at hp
  rcases hp with rfl | rfl
  · obtain ⟨h, _⟩ := h
    have hpcnt : r.pcnt = 0 := congrArg Regs.pcnt h
    have hpacc : r.pacc = 0 := congrArg Regs.pacc h
    have hbit : r.bitlen = 0 := congrArg Regs.bitlen h
    have hout : r.outcnt = 0 := congrArg Regs.outcnt h
    rw [hpcnt, hpacc, hbit, hout]
    decide
  · obtain ⟨_, _, hbits⟩ := h; exact hbits

/-- R43 on the packer after PACK.END. -/
theorem packDone_ruleR43 {r : Regs} {p : Phase} (h : GoodStage r p) (hp : p ∈ [.packDone, .encDone]) :
    r.pcnt = 0 ∧ r.pacc = 0 := by
  simp only [List.mem_cons, List.not_mem_nil, or_false] at hp
  rcases hp with rfl | rfl
  all_goals
    obtain ⟨h, _⟩ := h
    exact ⟨congrArg Regs.pcnt h, congrArg Regs.pacc h⟩

/-- R43 on the header parser; HPOS stays below HDRSIZE, so CTN's 8 bits hold the records read. -/
theorem header_ruleR43 {r : Regs} (h : GoodStage r .hdrParse) :
    1 ≤ r.hpos.toNat ∧ (r.hpos.toNat < r.hdrsize.toNat ∨ r.hpos.toNat < 8) ∧
    r.ctn.toNat = (r.hpos.toNat - 8) / 6 := by
  obtain ⟨_, hpos, _, hsize, hct⟩ := h
  have hbound : r.hpos.toNat < 8 ∨ r.hpos.toNat < r.hdrsize.toNat ∧ r.hpos.toNat < 1538 := by
    by_cases h8 : r.hpos.toNat < 8
    · exact .inl h8
    · obtain ⟨hlt, k, hk, heq⟩ := hsize (by omega)
      exact .inr ⟨hlt, by omega⟩
  rw [ctn_toNat (by omega), hct]
  omega

/-- R43 on the unpacker. -/
theorem unpacking_ruleR43 {r : Regs} {p : Phase} (h : GoodStage r p) (hp : p ∈ [.unpacking, .decDone]) :
    r.hpos = r.hdrsize ∧ r.hdrsize.toNat = 8 + 6 * r.ctn.toNat ∧
    r.ucons.toNat ≤ r.bitlen.toNat ∧ r.ucnt.toNat ≤ 32 ∧ r.uacc.toNat < 2 ^ r.ucnt.toNat := by
  simp only [List.mem_cons, List.not_mem_nil, or_false] at hp
  rcases hp with rfl | rfl
  · obtain ⟨_, hct, hpos, hsize, hcons, hcnt, hacc, _⟩ := h
    exact ⟨hpos, by rw [ctn_toNat hct, hsize], hcons, hcnt, hacc⟩
  · obtain ⟨_, hct, hpos, hsize, hcons, hcnt, hacc, _⟩ := h
    exact ⟨hpos, by rw [ctn_toNat hct, hsize], by rw [hcons], hcnt, hacc⟩

/-- Settles O51: each of R43's items from what the record holds in its stage. -/
theorem goodStatesMeetRuleR43 : Obligations.GoodStatesMeetRuleR43 := by
  rintro s ⟨⟨hnoerr, _⟩, hstage⟩
  exact
    { totals := goodStage_total hstage
      frequencyTable := fun hp => by
        have hft := goodStage_ft hstage hp
        rw [ftn_toNat hft, hft, length_buildFt, sumFt_buildFt, goodStage_total hstage]
        exact ⟨rfl, rfl, sorted_buildFt s.regs.cnt⟩
      tree := fun hp =>
        tree_ruleR43 (goodStage_total hstage)
          (goodStage_ft hstage (List.mem_cons_of_mem _ hp)) (goodStage_tree hstage hp)
      table := fun hp => by
        have hg := goodStage_table hstage hp
        have hlen := goodTable_length hg
        obtain ⟨_, hft, _, hle, _⟩ := hg
        rw [ctn_toNat (hlen ▸ hle), ftn_toNat hft, hlen]
        exact ⟨rfl, hle⟩
      packing := packing_ruleR43 hstage
      packDone := packDone_ruleR43 hstage
      header := fun hp => header_ruleR43 (hp ▸ hstage)
      unpacking := unpacking_ruleR43 hstage
      errors := hnoerr }

end Sys2Proof.Machine
end

section
/-!
PROOFS. The memory and channels family (spec/20_memory.md): which of the host's actions a step
performs, what the actions do, the wait for FIFO room, and the order of the output stream.
-/

namespace Sys2Proof.Machine

/-! ### Which of the host's actions a step performs (R60, R70, R248) -/

section Actions

variable {s : State} {a : HostAction} {before rest : List HostAction}

/-- A list of commands and CSR reads alone offers nothing to a busy core. -/
theorem pickFree_eq_none : ∀ {as : List HostAction}, (∀ a ∈ as, a.needsIdle = true) →
    pickFree as = none
  | [], _ => rfl
  | a :: as, h => by
    obtain ⟨ha, has⟩ := List.forall_mem_cons.mp h
    simp [pickFree, ha, pickFree_eq_none has]

/-- The first action that does not need an idle core is picked from among those that do. -/
theorem pickFree_append (hb : ∀ a ∈ before, a.needsIdle = true) (ha : a.needsIdle = false) :
    pickFree (before ++ a :: rest) = some (a, before ++ rest) := by
  induction before with
  | nil => simp [pickFree, ha]
  | cons c before ih =>
    obtain ⟨hc, hb⟩ := List.forall_mem_cons.mp hb
    simp [pickFree, hc, ih hb]

theorem nextAction_busy (h : s.busy = true) : nextAction s = pickFree s.host := by
  simp [nextAction, h]

theorem nextAction_idle (h : s.busy = false) (hh : s.host = a :: rest) :
    nextAction s = some (a, rest) := by
  simp [nextAction, h, hh]

theorem nextAction_no_host (h : s.host = []) : nextAction s = none := by
  simp [nextAction, h, pickFree]

theorem step_wait (h : nextAction s = none) : step s = .next s := by
  simp [step, hostStep, h]

theorem step_perform (h : nextAction s = some (a, rest)) :
    step s = perform a { s with host := rest } := by
  simp [step, hostStep, h]

/-- On an idle core a step performs the host's next action. -/
theorem step_idle (h : s.busy = false) (hh : s.host = a :: rest) :
    step s = perform a { s with host := rest } :=
  step_perform (nextAction_idle h hh)

/-- On a busy core a step performs the first action that does not need an idle core. -/
theorem step_busy (h : s.busy = true) (hb : ∀ a ∈ before, a.needsIdle = true)
    (ha : a.needsIdle = false) (hh : s.host = before ++ a :: rest) :
    step s = perform a { s with host := before ++ rest } :=
  step_perform (by rw [nextAction_busy h, hh, pickFree_append hb ha])

/-! ### What the actions do (R67, R73, R86) -/

/-- The host takes the oldest byte of the stream. -/
theorem takeOutput_cons {b : Byte} {q : List Byte} (h : s.outQ = b :: q) :
    takeOutput s = { s with outQ := q, taken := s.taken ++ [b] } := by
  simp [takeOutput, h]

/-- A busy core has a byte for the host to take, for the FIFO's depth is at least one. -/
theorem exists_outQ_of_busy (h : s.busy = true) : ∃ b q, s.outQ = b :: q := by
  have hlen : Config.outqDepth < s.outQ.length := by simpa [State.busy] using h
  exact List.exists_cons_of_length_pos (Nat.zero_lt_of_lt hlen)

/-- A word that decodes to no command raises ILLEGAL_CMD, or is dropped in ERROR. -/
theorem issueWord_undecodable {w : CmdWord} {e : DecodeError} (h : decode w = .error e) (s : State) :
    issueWord w s = if s.regs.phase = .error then .next s
      else .next (errorEntry s .illegalCmd (zext32 (opOf w))) := by
  simp [issueWord, h]

/-- A word, whatever it is, only adds bytes at the tail of the stream and takes none. -/
theorem issueWord_stream {w : CmdWord} {t : State} (h : issueWord w s = .next t) :
    ∃ out, t.taken ++ t.outQ = (s.taken ++ s.outQ) ++ out := by
  rcases issueWord_cases h with ⟨i, _, hi⟩ | ⟨_, rfl⟩ | ⟨_, rfl⟩
  · obtain ⟨⟨out, hq⟩, ht, _⟩ := exec_stream hi
    exact ⟨out, by rw [ht, hq, List.append_assoc]⟩
  · exact ⟨[], by simp⟩
  · exact ⟨[], by simp⟩

/-- Every action but reset keeps the bytes taken and not yet taken, in their order, and adds at the
tail. -/
theorem perform_stream {t : State} (ha : a ≠ .assertReset) (h : perform a s = .next t) :
    ∃ out, t.taken ++ t.outQ = (s.taken ++ s.outQ) ++ out := by
  cases a with
  | command w => exact issueWord_stream h
  | takeByte => cases h; exact ⟨[], by simp⟩
  | readCsr a => cases h; exact ⟨[], by simp⟩
  | assertReset => exact absurd rfl ha

end Actions

/-! ### The statements -/

/-- Settles O8: a busy core looks for the first take or reset of the host's list, and a busy core's
stream is not empty. -/
theorem busyCoreWaitsForTheHostToTakeBytes : Obligations.BusyCoreWaitsForTheHostToTakeBytes := by
  intro s hbusy
  refine ⟨fun hall => step_wait ?_, fun before rest hb => ⟨fun hh => ?_, fun hh => ?_⟩⟩
  · rw [nextAction_busy hbusy, pickFree_eq_none hall]
  · obtain ⟨b, q, hq⟩ := exists_outQ_of_busy hbusy
    refine ⟨b, q, hq, ?_⟩
    rw [step_busy hbusy hb rfl hh, perform,
      takeOutput_cons (s := { s with host := before ++ rest }) hq]
  · rw [step_busy hbusy hb rfl hh, perform, resetCore]

/-- Settles O10: a step waits or performs one action, and every action but reset grows the stream at
its tail only. -/
theorem outputStreamIsFirstInFirstOut : Obligations.OutputStreamIsFirstInFirstOut := by
  intro s t h
  rcases step_cases h with rfl | ⟨a, rest, hnext, hperform⟩
  · exact .inl ⟨[], by simp⟩
  · by_cases ha : a = .assertReset
    · exact .inr ⟨rest, ha ▸ hnext⟩
    · exact .inl (perform_stream (s := { s with host := rest }) ha hperform)

/-- Settles O7: the step issues the word, and decoding it decides between the command and
ILLEGAL_CMD. -/
theorem stepRunsTheDecodedCommand : Obligations.StepRunsTheDecodedCommand := by
  intro s w rest hidle hh
  have hstep : step s = issueWord w { s with host := rest } := step_idle hidle hh
  refine ⟨hstep, fun i hi => ?_, fun e he => ⟨fun herr => ?_, fun herr => ?_⟩⟩
  · rw [hstep, issueWord_ok hi]
  · rw [hstep, issueWord_undecodable he, if_pos herr]
  · rw [hstep, issueWord_undecodable he, if_neg herr]

/-- Settles O9: an idle core performs the host's next action, or waits when there is none. -/
theorem hostActionsOnAnIdleCore : Obligations.HostActionsOnAnIdleCore := by
  intro s rest hidle
  refine ⟨fun b q hq hh => ?_, fun a hh => ?_, fun hh => ?_, fun hh => ?_⟩
  · rw [step_idle hidle hh, perform, takeOutput_cons (s := { s with host := rest }) hq]
  · rw [step_idle hidle hh, perform, answerCsr]
  · rw [step_idle hidle hh, perform, resetCore]
  · exact step_wait (nextAction_no_host hh)

end Sys2Proof.Machine
end

section
/-!
PROOFS. The encoding family (spec/30_encoding.md): decoding and encoding a command word, the opcode
table, the assembler, the order of checks, the phase table, and the pseudo-commands COUNT and DECODE.
-/

namespace Sys2Proof.Machine

open Sys2Proof.Safety

/-! ### A command and its fields (R80 to R85) -/

@[simp] theorem mnemonic_instr (m : Mnemonic) (b : Nat → Byte) : (m.instr b).mnemonic = m := by
  cases m <;> rfl

/-- The operands of a command are the first lanes of its argument (R82, R83). -/
theorem instr_laneOf_arg (i : Instr) : i.mnemonic.instr (laneOf i.arg) = i := by
  cases i <;> simp [Instr.mnemonic, Instr.arg, Mnemonic.instr, laneOf_argP]

/-- An argument whose reserved bits are zero is the one assembled from its lanes (R84, R86). -/
theorem arg_instr_laneOf {m : Mnemonic} {arg : Word32} (h : m.format.reservedZero arg = true) :
    (m.instr (laneOf arg)).arg = arg := by
  have noOperand : reservedZeroN arg = true → argN = arg := fun hz => (eq_of_beq hz).symm
  have oneByte : reservedZeroS arg = true → argS (laneOf arg 0) = arg :=
    fun hz => ((reservedZeroS_iff arg).1 hz).symm
  have lanes {n} (hz : reservedZeroP n arg = true) := (reservedZeroP_iff n arg).1 hz
  cases m with
  | nop | clear | ftbuild | tree | codegen | packEnd | hdrWr | eof => exact noOperand h
  | pack | hdrRd | unpack => exact oneByte h
  | count1 =>
    rw [← argP_lanes arg, lanes h 1 (by omega) (by omega), lanes h 2 (by omega) (by omega),
      lanes h 3 (by omega) (by omega)]
    simp [Mnemonic.instr, Instr.arg, laneOf_argP]
  | count2 =>
    rw [← argP_lanes arg, lanes h 2 (by omega) (by omega), lanes h 3 (by omega) (by omega)]
    simp [Mnemonic.instr, Instr.arg, laneOf_argP]
  | count3 =>
    rw [← argP_lanes arg, lanes h 3 (by omega) (by omega)]
    simp [Mnemonic.instr, Instr.arg, laneOf_argP]
  | count4 => exact argP_lanes arg

theorem opcode_injective : Function.Injective Mnemonic.opcode := by
  intro m n h
  have hm := mnemonicOf_opcode m
  rw [h, mnemonicOf_opcode] at hm
  exact (Option.some.inj hm).symm

/-- A word is legal when it has a row of the opcode map and that row's reserved bits are zero
(R86). -/
theorem wordLegal_iff {w : CmdWord} : wordLegal w = true ↔
    ∃ m : Mnemonic, m.opcode = opOf w ∧ m.format.reservedZero (argOf w) = true := by
  unfold wordLegal
  rw [formatOf_eq]
  constructor
  · intro h
    cases hm : mnemonicOf (opOf w) with
    | none => rw [hm] at h; cases h
    | some m => rw [hm] at h; exact ⟨m, opcode_of_mnemonicOf hm, h⟩
  · rintro ⟨m, hm, hz⟩
    rw [← hm, mnemonicOf_opcode]
    exact hz

theorem decode_eq_ok_iff {w : CmdWord} {i : Instr} : decode w = .ok i ↔
    ∃ m : Mnemonic, m.opcode = opOf w ∧ m.format.reservedZero (argOf w) = true ∧
      m.instr (laneOf (argOf w)) = i :=
  decodeFields_eq_ok

/-- A word is legal exactly when it decodes to some command (R86). -/
theorem wordLegal_iff_decode {w : CmdWord} : wordLegal w = true ↔ ∃ i, decode w = .ok i := by
  simp only [wordLegal_iff, decode_eq_ok_iff]
  exact ⟨fun ⟨m, hop, hz⟩ => ⟨_, m, hop, hz, rfl⟩, fun ⟨_, m, hop, hz, _⟩ => ⟨m, hop, hz⟩⟩

open Laws in
/-- The word of every command is legal. -/
theorem wordLegal_encode (i : Instr) : wordLegal (encode i) = true := by
  cases i with
  | nop => exact LegalEncoding.nop
  | clear => exact LegalEncoding.clear
  | count1 b0 => exact LegalEncoding.count1 b0
  | count2 b0 b1 => exact LegalEncoding.count2 b0 b1
  | count3 b0 b1 b2 => exact LegalEncoding.count3 b0 b1 b2
  | count4 b0 b1 b2 b3 => exact LegalEncoding.count4 b0 b1 b2 b3
  | ftbuild => exact LegalEncoding.ftbuild
  | tree => exact LegalEncoding.tree
  | codegen => exact LegalEncoding.codegen
  | pack b => exact LegalEncoding.pack b
  | packEnd => exact LegalEncoding.packEnd
  | hdrWr => exact LegalEncoding.hdrWr
  | hdrRd b => exact LegalEncoding.hdrRd b
  | unpack b => exact LegalEncoding.unpack b
  | eof => exact LegalEncoding.eof

/-- Settles O2: the word of a command has the command's row of the opcode map, its reserved bits are
zero, and its lanes are the operands. -/
theorem decodeOfEncodeIsTheCommand : Obligations.DecodeOfEncodeIsTheCommand := by
  intro i
  obtain ⟨m, hop, hz⟩ := wordLegal_iff.1 (wordLegal_encode i)
  rw [encode, opOf_wordOf] at hop
  obtain rfl : m = i.mnemonic := opcode_injective hop
  refine decode_eq_ok_iff.2 ⟨i.mnemonic, by rw [encode, opOf_wordOf]; rfl, hz, ?_⟩
  rw [encode, argOf_wordOf, instr_laneOf_arg]

/-- Settles O3: the command's argument is assembled from the lanes of the word's, whose reserved bits
are zero. -/
theorem acceptedWordIsTheEncodingOfItsCommand : Obligations.AcceptedWordIsTheEncodingOfItsCommand := by
  intro w i h
  obtain ⟨m, hop, hz, rfl⟩ := decode_eq_ok_iff.1 h
  rw [encode, arg_instr_laneOf hz, Instr.opcode, mnemonic_instr, hop, wordOf_opOf_argOf]

/-- Settles O1: eight of the words are encodings of their commands, the other two are refused by the
check of the reserved lanes and by the opcode map. -/
theorem sampleWordsDecode : Obligations.SampleWordsDecode :=
  ⟨decodeOfEncodeIsTheCommand (.pack 0x41), decodeOfEncodeIsTheCommand (.count1 0x51),
    decodeOfEncodeIsTheCommand (.count2 0x42 0x43), decodeOfEncodeIsTheCommand (.count3 0x62 0x72 0x61),
    decodeOfEncodeIsTheCommand (.count4 0x41 0x41 0x41 0x42), decodeOfEncodeIsTheCommand .clear,
    decodeOfEncodeIsTheCommand .tree, decodeOfEncodeIsTheCommand (.unpack 0x1F), rfl, rfl⟩

/-! ### The opcode table (R85, R86) -/

/-- The number of byte lanes a format uses, from lane 0 on; the rest of `arg` is reserved. -/
def lanesUsed : Format → Nat
  | .none => 0
  | .oneByte => 1
  | .lanes n => n

/-- No row of the opcode map uses more lanes than `arg` has. -/
theorem lanesUsed_le (m : Mnemonic) : lanesUsed m.format ≤ 4 := by
  cases m <;> decide

/-- The lanes from `n` on are zero when the argument is a number of `n` bytes. -/
theorem lanes_zero_iff_lt {n : Nat} (hn : n ≤ 4) (arg : Word32) :
    (∀ i, i < 4 → n ≤ i → laneOf arg i = 0) ↔ arg.toNat < 256 ^ n := by
  have harg := arg.isLt
  simp only [Nat.forall_lt_succ_right, Nat.not_lt_zero, false_imp_iff, implies_true, true_and,
    ← BitVec.toNat_inj, laneOf_toNat]
  interval_cases n <;> simp <;> omega

/-- The reserved bits are zero when the argument is a number of as many bytes as the format uses. -/
theorem reservedZero_iff_lt {f : Format} (hf : lanesUsed f ≤ 4) (arg : Word32) :
    f.reservedZero arg = true ↔ arg.toNat < 256 ^ lanesUsed f := by
  cases f with
  | none =>
    simp [Format.reservedZero, reservedZeroN, lanesUsed, ← BitVec.toNat_inj]
  | oneByte =>
    rw [Format.reservedZero, reservedZeroS_iff, ← BitVec.toNat_inj, argS_toNat, laneOf_toNat, lanesUsed]
    omega
  | lanes n =>
    rw [Format.reservedZero, reservedZeroP_iff]
    exact lanes_zero_iff_lt hf arg

/-- Nothing is left of a number of `n` bytes when its low `n` bytes are masked off. -/
theorem and_highBytes_eq_zero_iff {n : Nat} (hn : n ≤ 4) (arg : Word32) :
    arg &&& BitVec.allOnes 32 <<< (8 * n) = 0 ↔ arg.toNat < 256 ^ n := by
  have harg := arg.isLt
  rw [← BitVec.shiftLeft_ushiftRight, ← BitVec.toNat_inj, BitVec.toNat_shiftLeft,
    BitVec.toNat_ushiftRight, Nat.shiftLeft_eq, Nat.shiftRight_eq_div_pow]
  interval_cases n <;> simp <;> omega

/-- The row of the opcode table for a mnemonic: the opcode is fixed, the lanes of the format are
free, and the reserved bits are fixed to zero. -/
def rowOf (m : Mnemonic) : OpcodeRow :=
  ⟨m, wordOf 0 m.opcode, wordOf (BitVec.allOnes 32 <<< (8 * lanesUsed m.format)) 0xFF⟩

/-- The match and mask columns of spec/opcode_table.json follow from the opcode and format columns of
R85. -/
theorem opcodeTable_eq : opcodeTable = allMnemonics.map rowOf := by decide

theorem mem_opcodeTable_iff {row : OpcodeRow} : row ∈ opcodeTable ↔ ∃ m, rowOf m = row := by
  have all (m : Mnemonic) : m ∈ allMnemonics := by cases m <;> decide
  simp [opcodeTable_eq, all]

theorem wordOf_and (arg mask : Word32) (op opMask : Byte) :
    wordOf arg op &&& wordOf mask opMask = wordOf (arg &&& mask) (op &&& opMask) :=
  BitVec.and_append

theorem wordOf_inj {arg arg' : Word32} {op op' : Byte} :
    wordOf arg op = wordOf arg' op' ↔ arg = arg' ∧ op = op' := by
  constructor
  · intro h
    exact ⟨by simpa using congrArg argOf h, by simpa using congrArg opOf h⟩
  · rintro ⟨rfl, rfl⟩
    rfl

/-- A row matches the words with its opcode and zeros in its reserved bits. -/
theorem rowOf_matchesWord {m : Mnemonic} {w : CmdWord} : (rowOf m).matchesWord w = true ↔
    m.opcode = opOf w ∧ m.format.reservedZero (argOf w) = true := by
  have hop : opOf w &&& 0xFF = opOf w := BitVec.and_allOnes
  have hn := lanesUsed_le m
  rw [OpcodeRow.matchesWord, beq_iff_eq, rowOf, ← wordOf_opOf_argOf w, wordOf_and, wordOf_inj,
    opOf_wordOf, argOf_wordOf, hop, and_highBytes_eq_zero_iff hn, reservedZero_iff_lt hn]
  exact ⟨fun ⟨hz, h⟩ => ⟨h.symm, hz⟩, fun ⟨h, hz⟩ => ⟨hz, h.symm⟩⟩

/-- Settles O4: decoding and the rows ask the same of a word, and the opcode tells the rows apart. -/
theorem legalWordsAreTheOpcodeTables : Obligations.LegalWordsAreTheOpcodeTables := by
  intro w
  simp only [mem_opcodeTable_iff]
  refine ⟨wordLegal_iff_decode, ?_, ?_, ?_⟩
  · rw [wordLegal_iff]
    constructor
    · rintro ⟨m, hm⟩
      exact ⟨rowOf m, ⟨m, rfl⟩, rowOf_matchesWord.2 hm⟩
    · rintro ⟨_, ⟨m, rfl⟩, hm⟩
      exact ⟨m, rowOf_matchesWord.1 hm⟩
  · rintro _ ⟨m, rfl⟩ _ ⟨m', rfl⟩ h h'
    have hop := (rowOf_matchesWord.1 h).1.trans (rowOf_matchesWord.1 h').1.symm
    rw [opcode_injective hop]
  · rintro i hi _ ⟨m, rfl⟩
    obtain ⟨m', hop', hz', rfl⟩ := decode_eq_ok_iff.1 hi
    rw [rowOf_matchesWord, mnemonic_instr]
    constructor
    · rintro ⟨hop, _⟩
      exact opcode_injective (hop.trans hop'.symm)
    · intro hm
      obtain rfl : m = m' := hm
      exact ⟨hop', hz'⟩

/-! ### The assembler (R89) -/

theorem wellFormed_iff {l : SourceLine} : l.wellFormed = true ↔
    l.operands.length = l.mnemonic.arity ∧ ∀ n ∈ l.operands, n ≤ 255 := by
  simp [SourceLine.wellFormed, Nat.lt_succ_iff]

theorem assemble_of_wellFormed {l : SourceLine} (h : l.wellFormed = true) :
    l.assemble = some (l.mnemonic.instr fun k => BitVec.ofNat 8 (l.operands.getD k 0)) := by
  rw [SourceLine.assemble, if_pos h]

/-- The line of a command has the mnemonic's number of operands, each a byte. -/
theorem wellFormed_line (i : Instr) :
    i.operands.length = i.mnemonic.arity ∧ ∀ n ∈ i.operands, n ≤ 255 := by
  have hbyte (b : Byte) : b.toNat ≤ 255 := Nat.le_of_lt_succ b.isLt
  cases i <;> simp [Instr.operands, Instr.mnemonic, Mnemonic.arity, hbyte]

/-- The operands of a line are the operands of its command. -/
theorem instr_operands (i : Instr) :
    i.mnemonic.instr (fun k => BitVec.ofNat 8 (i.operands.getD k 0)) = i := by
  cases i <;> simp [Instr.operands, Instr.mnemonic, Mnemonic.instr]

/-- Settles O5: only a well-formed line is assembled, and a command's line is well formed. -/
theorem assemblerInvertsTheSourceLine : Obligations.AssemblerInvertsTheSourceLine := by
  refine ⟨fun l => ?_, fun i => ?_⟩
  · rw [← wellFormed_iff, SourceLine.assemble]
    split <;> simp [*]
  · rw [assemble_of_wellFormed (wellFormed_iff.2 (wellFormed_line i)), instr_operands]

/-! ### The order of checks (R91) and the phase table (R92) -/

theorem opOf_of_decode {w : CmdWord} {i : Instr} (h : decode w = .ok i) : opOf w = i.opcode := by
  rw [← acceptedWordIsTheEncodingOfItsCommand w i h, encode, opOf_wordOf]

/-- The opcode 0x00 is NOP's alone, and NOP has no operands (R81, R85). -/
theorem eq_nop_of_opcode {i : Instr} (h : i.opcode = 0x00) : i = .nop := by
  have hm : i.mnemonic = .nop := opcode_injective h
  rw [← instr_laneOf_arg i, hm]
  rfl

/-- A word that decodes to CLEAR is the one of R201. -/
theorem fields_of_decode_clear {w : CmdWord} (h : decode w = .ok .clear) :
    opOf w = 0x01 ∧ argOf w = 0 := by
  rw [← acceptedWordIsTheEncodingOfItsCommand w .clear h]
  exact ⟨rfl, rfl⟩

/-- Settles O6: the steps of R91 one after another. -/
theorem issuedWordIsTreatedInTheOrderOfChecks : Obligations.IssuedWordIsTreatedInTheOrderOfChecks := by
  intro w s
  refine ⟨fun ⟨hop, harg⟩ => ?_, fun hclear => ⟨fun herr => ?_, fun herr => ⟨fun hillegal => ?_,
    fun hlegal => ?_⟩⟩⟩
  · have hw : w = encode .clear := by rw [← wordOf_opOf_argOf w, hop, harg]; rfl
    rw [hw, issueWord_ok (decodeOfEncodeIsTheCommand .clear)]
    rfl
  · cases hd : decode w with
    | error e => rw [issueWord_undecodable hd, if_pos herr]
    | ok i =>
      have hi : i ≠ .clear := by rintro rfl; exact hclear (fields_of_decode_clear hd)
      rw [issueWord_ok hd, exec_error hi herr]
  · rw [issueWord_illegal hillegal, if_neg herr]
  · obtain ⟨i, hi⟩ := wordLegal_iff_decode.1 hlegal
    have hop := opOf_of_decode hi
    rw [issueWord_ok hi]
    refine ⟨fun hnop => ?_, fun _ => ⟨i, hi, acceptedWordIsTheEncodingOfItsCommand w i hi,
      fun hphase => ?_, fun _ => rfl⟩⟩
    · rw [eq_nop_of_opcode (hop.symm.trans hnop), exec_nop]
    · rw [exec_sequence herr hphase, hop]

/-- In a good state the header is complete, HPOS having reached HDRSIZE, exactly in the phases after
the parse (R43, R172). -/
theorem headerComplete_iff {r : Regs} (h : GoodStage r r.phase)
    (hp : r.phase = .hdrParse ∨ r.phase = .unpacking) :
    r.phase = .unpacking ↔ 8 ≤ r.hpos.toNat ∧ r.hpos = r.hdrsize := by
  rcases hp with hp | hp <;> rw [hp] at h
  · obtain ⟨_, _, _, hinside, _⟩ := h
    refine ⟨fun hu => (nomatch hp.symm.trans hu), fun ⟨h8, heq⟩ => ?_⟩
    obtain ⟨hlt, _⟩ := hinside h8
    rw [heq] at hlt
    omega
  · obtain ⟨_, _, hpos, hsize, _⟩ := h
    exact ⟨fun _ => ⟨by rw [hpos]; omega, hpos⟩, fun _ => hp⟩

/-- EOF completes only from UNPACKING with every bit consumed (R190). -/
theorem eof_done {r r' : Regs} {out : List Byte} (h : GoodStage r r.phase)
    (hl : r.phase ∈ legalPhases .eof) (hd : bodyOf .eof r = .done r' out) :
    r.phase = .unpacking ∧ r.ucons = r.bitlen := by
  rcases eofBody_cases r with ⟨_, hb⟩ | ⟨_, _, _, hb⟩ | ⟨hidle, hparse, hle, _⟩
  · cases hb.symm.trans hd
  · cases hb.symm.trans hd
  · have hu : r.phase = .unpacking := by simpa [legalPhases, hidle, hparse] using hl
    rw [hu] at h
    obtain ⟨_, _, _, _, hge, _⟩ := h
    exact ⟨hu, BitVec.eq_of_toNat_eq (Nat.le_antisymm hge hle)⟩

/-- A command's own rule that completes leaves PHASE where R92 says. -/
theorem bodyOf_done_phase {i : Instr} {r r' : Regs} {out : List Byte} (hn : i ≠ .nop) (hc : i ≠ .clear)
    (hl : r.phase ∈ legalPhases i) (hd : bodyOf i r = .done r' out) :
    r'.phase ∈ targetPhases i r.phase := by
  obtain ⟨_, _, _, _, _, _, _, _, _, _, _, _, _, hphase⟩ := bodyOf_done hd
  exact hphase hn hc hl

/-- Settles O17: everything a command can answer, and what the good state after it says of PHASE. -/
theorem phasesFollowTheTransitionTable : Obligations.PhasesFollowTheTransitionTable := by
  refine ⟨fun i s herr hi => exec_error hi herr, fun i s herr hl => exec_sequence herr hl,
    fun i s t hgood hx hs ht => ?_⟩
  have hall : s.regs.phase ∈ allPhases := by cases s.regs.phase <;> decide
  rcases exec_cases hx with ⟨rfl, rfl⟩ | ⟨_, rfl | herr, rfl⟩ | ⟨_, _, rfl⟩ |
    ⟨hn, hc, _, hl, ⟨e, info, _, rfl⟩ | ⟨r, out, hd, rfl⟩⟩
  · exact ⟨hall, by simp [targetPhases, Regs.reset], by simp, by simp⟩
  · exact ⟨hall, by simp [targetPhases], by simp, by simp⟩
  · exact absurd herr hs
  · exact absurd rfl ht
  · exact absurd rfl ht
  · have htarget := bodyOf_done_phase hn hc hl hd
    refine ⟨hl, htarget, ?_, ?_⟩
    · rintro b rfl
      exact headerComplete_iff (good_stage (exec_good hgood hx) ht)
        (by simpa [targetPhases] using htarget)
    · rintro rfl
      exact eof_done (good_stage hgood hs) hl hd

/-! ### COUNT (R83, R90) -/

theorem countOf_isSome_iff (bs : List Byte) :
    (countOf bs).isSome = true ↔ 1 ≤ bs.length ∧ bs.length ≤ 4 := by
  match bs with
  | [] | [_] | [_, _] | [_, _, _] | [_, _, _, _] => simp [countOf]
  | _ :: _ :: _ :: _ :: _ :: _ => simp [countOf]

/-- The expansion of COUNT is the COUNT.n that carries the operands. -/
theorem countOf_eq_some {bs : List Byte} {i : Instr} (h : countOf bs = some i) :
    isCount i = true ∧ countLanes i = bs := by
  unfold countOf at h
  split at h <;> cases h <;> exact ⟨rfl, rfl⟩

theorem countOf_countLanes {i : Instr} (h : isCount i = true) : countOf (countLanes i) = some i := by
  cases i with
  | count1 | count2 | count3 | count4 => rfl
  | _ => cases h

/-- The opcode of a COUNT.n tells the number of its lanes (R83). -/
theorem opcode_toNat_of_isCount {i : Instr} (h : isCount i = true) :
    i.opcode.toNat = 0x0F + (countLanes i).length := by
  cases i with
  | count1 | count2 | count3 | count4 => rfl
  | _ => cases h

/-- Settles O53: COUNT takes one to four operands, and its expansion is the COUNT.n whose lanes they
are. -/
theorem countIsTheCommandOfItsOperands : Obligations.CountIsTheCommandOfItsOperands := by
  refine fun bs => ⟨countOf_isSome_iff bs, fun i => ⟨fun h => ?_, fun ⟨_, hcount, hlanes⟩ => ?_⟩⟩
  · obtain ⟨hcount, rfl⟩ := countOf_eq_some h
    exact ⟨opcode_toNat_of_isCount hcount, hcount, rfl⟩
  · rw [← hlanes, countOf_countLanes hcount]

/-! ### DECODE (R90) -/

/-- Of all commands' rules CODEGEN's alone can stop the machine (R127). -/
theorem bodyOf_not_stuck {i : Instr} (hi : i ≠ .codegen) (r : Regs) (f : Fault) :
    bodyOf i r ≠ .stuck f := by
  intro h
  have count (lanes : List Byte) : countBody lanes r ≠ .stuck f := by
    rcases countBody_cases lanes r with ⟨_, hb⟩ | ⟨_, hb⟩ <;> simp [hb]
  cases i with
  | nop | clear | ftbuild | tree | packEnd | hdrWr => cases h
  | count1 | count2 | count3 | count4 => exact count _ h
  | codegen => exact hi rfl
  | pack b =>
    rcases packBody_cases b r with ⟨_, hb⟩ | ⟨_, _, _, hb⟩ | ⟨_, _, _, hb⟩ <;> cases hb.symm.trans h
  | hdrRd b => rcases hdrRdBody_cases b r with ⟨_, _, hb⟩ | ⟨_, hb⟩ <;> cases hb.symm.trans h
  | unpack b =>
    rcases takeBits_total (bitsMsb b) r with ⟨_, _, hb⟩ | ⟨_, hb⟩ <;> cases hb.symm.trans h
  | eof =>
    rcases eofBody_cases r with ⟨_, hb⟩ | ⟨_, _, _, hb⟩ | ⟨_, _, _, hb⟩ <;> cases hb.symm.trans h

/-- Every command but CODEGEN has a next state in every state. -/
theorem exec_total {i : Instr} (hi : i ≠ .codegen) (s : State) : ∃ t, exec i s = .next t := by
  by_cases hc : i = .clear
  · exact ⟨_, hc ▸ exec_clear s⟩
  by_cases hn : i = .nop
  · exact ⟨_, hn ▸ exec_nop s⟩
  by_cases he : s.regs.phase = .error
  · exact ⟨s, exec_error hc he⟩
  by_cases hl : s.regs.phase ∈ legalPhases i
  · rw [exec_legal hn hc he hl]
    cases hb : bodyOf i s.regs with
    | done r out => exact ⟨_, rfl⟩
    | raised e info => exact ⟨_, rfl⟩
    | stuck f => exact absurd hb (bodyOf_not_stuck hi _ f)
  · exact ⟨_, exec_sequence he hl⟩

theorem runInstrs_total {is : List Instr} (h : ∀ i ∈ is, i ≠ .codegen) (s : State) :
    ∃ t, runInstrs is s = .next t := by
  induction is generalizing s with
  | nil => exact ⟨s, rfl⟩
  | cons i is ih =>
    rw [List.forall_mem_cons] at h
    obtain ⟨u, hu⟩ := exec_total h.1 s
    rw [runInstrs_cons hu]
    exact ih h.2 u

theorem decodeTail_no_codegen (p : Phase) (P : List Byte) : ∀ i ∈ decodeTail p P, i ≠ .codegen := by
  intro i hi
  unfold decodeTail unpacksOf at hi
  split at hi
  · simp only [List.mem_append, List.mem_map, List.mem_singleton] at hi
    rcases hi with ⟨b, _, rfl⟩ | rfl <;> simp
  · simp only [List.nil_append, List.mem_singleton] at hi
    simp [hi]

/-- A run that begins with CLEAR is the run of the rest from the cleared state. -/
theorem runInstrs_clear (is : List Instr) (s : State) :
    runInstrs (.clear :: is) s = runInstrs is (clearRegs s) :=
  runInstrs_cons rfl is

/-- The record after the header bytes `H`, all of them stored without an error (R167, R170, R172). -/
structure HeaderRead (r : Regs) (H : List Byte) : Prop where
  phase : r.phase = .idle ∨ r.phase = .hdrParse ∨ r.phase = .unpacking
  hpos : r.hpos.toNat = H.length
  hdrsize : ∀ b, H[7]? = some b → r.hdrsize.toNat = 8 + 6 * b.toNat

/-- HDRSIZE is written by the header byte at offset 7 alone (R170). -/
theorem storeHeaderByte_hdrsize {p : Nat} (hp : p ≠ 7) (b : Byte) (r : Regs) :
    (storeHeaderByte p b r).hdrsize = r.hdrsize := by
  unfold storeHeaderByte
  simp only [if_neg hp]
  split_ifs <;> rfl

/-- Before the header is complete HPOS has room to advance: a header has at most 1538 bytes (R33). -/
theorem hpos_lt_of_parsing {r : Regs} (h : GoodStage r r.phase)
    (hp : r.phase = .idle ∨ r.phase = .hdrParse) : r.hpos.toNat < 1538 := by
  obtain ⟨_, _, hinside, _⟩ := good_parse_start h hp
  by_contra hge
  obtain ⟨hlt, k, hk, hsize⟩ := hinside (by omega)
  omega

/-- One more header byte is stored, or HDR.RD ends in ERROR. -/
theorem hdrRd_headerRead {b : Byte} {H : List Byte} {s t : State} (hgood : GoodState s)
    (hread : HeaderRead s.regs H) (hx : exec (.hdrRd b) s = .next t) :
    t.regs.phase = .error ∨ HeaderRead t.regs (H ++ [b]) := by
  by_cases hp : s.regs.phase = .idle ∨ s.regs.phase = .hdrParse
  · have hne : s.regs.phase ≠ .error := by rcases hp with hp | hp <;> simp [hp]
    have hlt := hpos_lt_of_parsing (good_stage hgood hne) hp
    rw [exec_hdrRd hp] at hx
    rcases hdrRdBody_cases b s.regs with ⟨_, _, hb⟩ | ⟨_, hb⟩ <;> rw [hb] at hx <;> cases hx
    · exact .inl rfl
    · rw [hread.hpos] at hlt ⊢
      refine .inr ⟨?_, ?_, fun c hc => ?_⟩
      · simp only [advanceHeader, emit_phase]
        split <;> simp
      · simp only [advanceHeader, emit_hpos, List.length_append, List.length_singleton,
          BitVec.toNat_ofNat]
        omega
      · show (storeHeaderByte H.length b s.regs).hdrsize.toNat = _
        by_cases h7 : H.length = 7
        · have hbc : b = c := by simpa [List.getElem?_append, h7] using hc
          subst hbc
          have hb8 := b.isLt
          rw [h7, storeHeaderByte_count]
          simp only [headerSize, Config.hdrFix, Config.recSize, BitVec.toNat_ofNat]
          omega
        · rw [storeHeaderByte_hdrsize h7]
          refine hread.hdrsize c ?_
          have h8 : 7 < (H ++ [b]).length := (List.getElem?_eq_some_iff.1 hc).1
          rw [List.length_append, List.length_singleton] at h8
          rwa [List.getElem?_append_left (by omega)] at hc
  · exact .inl (hdrRd_outside hp hx)

/-- A run of HDR.RDs stores all its bytes, or ends in ERROR. -/
theorem run_hdrs_headerRead (G : List Byte) {H : List Byte} {s t : State} (hgood : GoodState s)
    (hread : HeaderRead s.regs H) (hr : runInstrs (hdrsOf G) s = .next t) :
    t.regs.phase = .error ∨ HeaderRead t.regs (H ++ G) := by
  induction G generalizing H s with
  | nil => cases hr; exact .inr (by simpa using hread)
  | cons b G ih =>
    obtain ⟨u, hu⟩ := hdrRd_total b s
    rw [hdrsOf, List.map_cons, runInstrs_cons hu] at hr
    rcases hdrRd_headerRead hgood hread hu with herr | hread'
    · cases (run_hdrs_error G herr).symm.trans hr
      exact .inl herr
    · simpa using ih (exec_good hgood hu) hread' hr

/-- The fresh record has read no header byte. -/
theorem headerRead_reset : HeaderRead Regs.reset [] :=
  ⟨.inl rfl, rfl, fun _ h => nomatch h⟩

/-- In UNPACKING the bytes read are a whole header, which has 8 bytes at least (R172). -/
theorem length_of_unpacking {r : Regs} {H : List Byte} (h : GoodStage r r.phase)
    (hread : HeaderRead r H) (hu : r.phase = .unpacking) :
    8 ≤ H.length ∧ H.length = r.hdrsize.toNat := by
  obtain ⟨h8, heq⟩ := (headerComplete_iff h (.inr hu)).1 hu
  rw [← hread.hpos]
  exact ⟨h8, by rw [heq]⟩

/-- Before UNPACKING the bytes read from offset 8 on are a part of the header. -/
theorem length_of_parsing {r : Regs} {H : List Byte} (h : GoodStage r r.phase)
    (hread : HeaderRead r H) (hp : r.phase = .idle ∨ r.phase = .hdrParse) (h8 : 8 ≤ H.length) :
    H.length < r.hdrsize.toNat := by
  obtain ⟨_, _, hinside, _⟩ := good_parse_start h hp
  rw [hread.hpos] at hinside
  exact (hinside h8).1

/-- How many bytes of the file `F` are header bytes: the header's, or all that there are. -/
theorem headerRead_take {r : Regs} {F : List Byte} {h : Nat} (hgood : GoodStage r r.phase)
    (hread : HeaderRead r (F.take h)) (hle : h ≤ F.length)
    (hstop : h < F.length → ¬(r.phase = .idle ∨ r.phase = .hdrParse)) :
    (F.length < 8 → h = F.length) ∧
    ∀ b, F[7]? = some b → r.hdrsize.toNat = 8 + 6 * b.toNat ∧ h = min F.length r.hdrsize.toNat := by
  have hlen : (F.take h).length = h := by rw [List.length_take, Nat.min_eq_left hle]
  have hdrsize {b : Byte} (hb : F[7]? = some b) (h8 : 8 ≤ h) : r.hdrsize.toNat = 8 + 6 * b.toNat :=
    hread.hdrsize b (by rwa [List.getElem?_take_of_lt (by omega)])
  by_cases hp : r.phase = .idle ∨ r.phase = .hdrParse
  · have hall : h = F.length := Nat.le_antisymm hle (Nat.not_lt.1 fun hlt => hstop hlt hp)
    refine ⟨fun _ => hall, fun b hb => ?_⟩
    have h8 : 8 ≤ h := hall ▸ (List.getElem?_eq_some_iff.1 hb).1
    have hlt := length_of_parsing hgood hread hp (by omega)
    exact ⟨hdrsize hb h8, by omega⟩
  · have hu : r.phase = .unpacking := (or_assoc.2 hread.phase).resolve_left hp
    obtain ⟨h8, hsize⟩ := length_of_unpacking hgood hread hu
    rw [hlen] at h8 hsize
    exact ⟨fun hshort => by omega, fun b hb => ⟨hdrsize hb h8, by omega⟩⟩

/-- Settles O52: the header loop gives the core the first bytes of the file, the record tells how
many, and neither UNPACK nor EOF stops the machine. -/
theorem decodeExpandsToItsCommands : Obligations.DecodeExpandsToItsCommands := by
  intro F s
  obtain ⟨h, u, hfeed, hle, hrun, hbefore, hstop⟩ := feedHeader_spec F (clearRegs s)
  obtain ⟨t, ht⟩ := runInstrs_total (decodeTail_no_codegen u.regs.phase (F.drop h)) u
  have hgood : GoodState (clearRegs s) := good_of_reset rfl
  simp only [runInstrs_clear]
  refine ⟨h, u, t, hle, hrun, hbefore, fun hlt => not_or.1 (hstop hlt), fun hne => ?_, ht,
    (runDecode_eq hfeed).trans ht⟩
  rcases run_hdrs_headerRead _ hgood headerRead_reset hrun with herr | hread
  · exact absurd herr hne
  · exact headerRead_take (good_stage (run_good hgood hrun) hne) hread hle hstop

end Sys2Proof.Machine
end

section
/-!
PROOFS. The Frequency Analyzer family (spec/40_frequency_analyzer.md): COUNT.n, the lane law, COUNTS,
FTBUILD, and the Frequency Table once it is built.
-/

namespace Sys2Proof.Machine

open Sys2Proof.Safety

/-! ### The commands of the analyzer -/

/-- The two errors of a command's frame (R91, steps 3 and 5) hold of every command. -/
theorem protocolErrors (i : Instr) : ProtocolErrors i := by
  refine fun s herr => ⟨fun arg hillegal => ?_, exec_sequence herr⟩
  rw [issueWord_illegal hillegal, if_neg herr, opOf_wordOf]

/-- The analyzer's commands are legal in IDLE and COUNTING only (R85). -/
theorem legalPhases_analyzer {i : Instr} (hi : isCount i = true ∨ i = .ftbuild) :
    legalPhases i = [.idle, .counting] := by
  rcases hi with hcount | rfl
  · exact legalPhases_count hcount
  · rfl

/-- After COUNTING a command of the analyzer raises SEQUENCE, and in ERROR it is dropped (R109). -/
theorem exec_analyzer_outside {i : Instr} (hi : isCount i = true ∨ i = .ftbuild) (hc : i ≠ .clear)
    {s : State} (hp : s.regs.phase ∉ [.idle, .counting]) :
    exec i s = .next
      (if s.regs.phase = .error then s else errorEntry s .sequence (zext32 i.opcode)) := by
  split
  next herr => exact exec_error hc herr
  next herr => exact exec_sequence herr (by rwa [legalPhases_analyzer hi])

/-- Settles O19: FTBUILD alone writes FT (`eachElementHasItsWriter`), and here it is out of phase. -/
theorem frequencyTableIsImmutableOnceBuilt : Obligations.FrequencyTableIsImmutableOnceBuilt := by
  intro i s t hp hc hx
  have houtside (hi : isCount i = true ∨ i = .ftbuild) :
      t = if s.regs.phase = .error then s else errorEntry s .sequence (zext32 i.opcode) :=
    Host.Outcome.next.inj (hx.symm.trans (exec_analyzer_outside hi hc hp))
  refine ⟨?_, houtside⟩
  by_cases hi : i = .ftbuild
  · rw [houtside (.inr hi)]
    split
    next => rfl
    next => exact errorEntry_ft ..
  · obtain ⟨_, hft, _⟩ := eachElementHasItsWriter i s t hx hc
    exact hft hi

/-! ### COUNT.n (R100 to R105) -/

/-- Settles O22: the guard decides, and the increments of the lanes add up (`counter_foldl_bump`). -/
theorem countAddsEachLane : Obligations.CountAddsEachLane := by
  refine fun i hi => ⟨protocolErrors i, fun s hp => ?_⟩
  rw [exec_count hi hp]
  rcases countBody_cases (countLanes i) s.regs with ⟨hfull, hbody⟩ | ⟨hroom, hbody⟩
  · exact ⟨fun hroom => absurd hroom (Nat.not_le.2 hfull), fun _ => by rw [hbody, finish_raised]⟩
  · refine ⟨fun _ => ⟨(countLanes i).foldl bump s.regs.cnt, ?_, counter_foldl_bump _ _⟩,
      fun hfull => absurd hroom (Nat.not_le.2 hfull)⟩
    rw [hbody]
    exact finish_done_nil _ _ rfl

/-- Only the empty run of COUNT.n carries no symbol, for each COUNT.n has a lane. -/
theorem counts_eq_nil_iff {cs : List Instr} (h : ∀ i ∈ cs, isCount i = true) :
    cs = [] ↔ cs.flatMap countLanes = [] := by
  rw [List.flatMap_eq_nil_iff]
  refine ⟨by rintro rfl; simp, fun hnil => List.eq_nil_iff_forall_not_mem.2 fun i hi => ?_⟩
  simpa [isCount, hnil i hi] using h i hi

/-- Settles O23: a run of COUNT.n depends on its symbols (`run_counts`): their number, whether there
is one, and the counters they lead to, which do not depend on the order (`foldl_bump_perm`). -/
theorem laneLaw : Obligations.LaneLaw := by
  intro cs ds s hcs hds hperm hp hroom
  have hempty : cs = [] ↔ ds = [] := by
    rw [counts_eq_nil_iff hcs, counts_eq_nil_iff hds, ← List.length_eq_zero_iff, hperm.length_eq,
      List.length_eq_zero_iff]
  refine ⟨_, run_counts cs s hcs hp hroom, ?_⟩
  rw [run_counts ds s hds hp (by rwa [← hperm.length_eq]), foldl_bump_perm hperm, hperm.length_eq]
  simp only [hempty]

theorem countsOf_eq_nil_iff (S : List Byte) : countsOf S = [] ↔ S = [] := by
  rw [counts_eq_nil_iff (countsOf_isCount S), countsOf_lanes]

/-- Settles O24: from the reset record the run counts the symbols of `S` from zero (`run_counts`),
and no counter wraps, for none exceeds the length of `S`. -/
theorem countsLeavesTheOccurrences : Obligations.CountsLeavesTheOccurrences := by
  intro S s hfresh hlen
  have hrun := run_counts (countsOf S) s (countsOf_isCount S) (.inl (by rw [hfresh]; rfl))
    (by rw [countsOf_lanes, hfresh]; simpa [Regs.reset] using hlen)
  rw [countsOf_lanes, hfresh] at hrun
  refine ⟨_, hrun, ?_, fun b => ?_, ?_⟩
  · simp only [Regs.reset, BitVec.ofNat_eq_ofNat, BitVec.zero_add, BitVec.toNat_ofNat]
    omega
  · have hcount : S.count b ≤ S.length := List.count_le_length
    simp only [counter_foldl_bump, counter_reset, BitVec.ofNat_eq_ofNat, BitVec.zero_add,
      BitVec.toNat_ofNat]
    omega
  · simp only [countsOf_eq_nil_iff]
    rfl

/-! ### FTBUILD (R106 to R108) -/

/-- In IDLE and COUNTING FTBUILD builds the table of the counters and changes nothing else. -/
theorem exec_ftbuild {s : State} (hp : s.regs.phase = .idle ∨ s.regs.phase = .counting) :
    exec .ftbuild s =
      .next { s with regs := { s.regs with ft := buildFt s.regs.cnt, phase := .ftReady } } := by
  have herr : s.regs.phase ≠ .error := by rcases hp with hp | hp <;> simp [hp]
  rw [exec_legal (by simp) (by simp) herr (by simpa [legalPhases] using hp)]
  exact finish_done_nil _ _ rfl

/-- Settles O25: what the table of the counters holds (`mem_buildFt`), its order (`sorted_buildFt`)
and its length (`length_buildFt`). -/
theorem ftbuildSortsTheOccurringSymbols : Obligations.FtbuildSortsTheOccurringSymbols :=
  ⟨protocolErrors .ftbuild, fun s hp => ⟨buildFt s.regs.cnt, exec_ftbuild hp,
    fun b c => mem_buildFt s.regs.cnt ⟨b, c⟩, sorted_buildFt s.regs.cnt, length_buildFt s.regs.cnt⟩⟩

end Sys2Proof.Machine
end

section
/-!
PROOFS. The Code Tree Builder family (spec/41_tree_builder.md): the tree TREE builds and the order
of its merges, from what the merge loop keeps (`Forest`, `Order`).
-/

namespace Sys2Proof.Machine

open Sys2Proof.Safety

/-- In FT_READY TREE builds the tree of the Frequency Table and changes nothing else. -/
theorem exec_tree {s : State} (hp : s.regs.phase = .ftReady) :
    exec .tree s = .next { s with regs := { s.regs with
      node := (buildTree s.regs.ft).1, root := (buildTree s.regs.ft).2, phase := .treeReady } } := by
  rw [exec_legal (by simp) (by simp) (by simp [hp]) (by simp [hp, legalPhases])]
  exact finish_done_nil _ _ rfl

/-! ### The shape of the tree (R121, R125 to R127) -/

section Shape

variable {ft : List FtEntry} (hk : ft.length ≤ 256) (hs : sumFt ft ≤ 4294967295)
include hk hs

/-- The merges end with a forest in whose working sequence ROOT alone is left; for the empty table
ROOT is no node and the sequence is empty. -/
theorem buildTree_forest : ∃ wq T, Forest ft (buildTree ft).1 wq T ∧
    ∀ c < (buildTree ft).1.length, c ∈ wq ↔ c = (buildTree ft).2.toNat := by
  by_cases hne : ft = []
  · subst hne
    exact ⟨_, _, forest_initial [], fun c hc => absurd hc (Nat.not_lt_zero c)⟩
  · obtain ⟨_, _, T, hF⟩ := (buildTree_shape hk hs).2 hne
    exact ⟨_, T, hF, fun c _ => List.mem_singleton⟩

/-- Every node but ROOT has exactly one parent. -/
theorem buildTree_parent {c : Nat} (hc : c < (buildTree ft).1.length)
    (hroot : c ≠ (buildTree ft).2.toNat) :
    ∃ j, ChildOf (buildTree ft).1 c j ∧ ∀ j', ChildOf (buildTree ft).1 c j' → j' = j := by
  obtain ⟨wq, T, hF, hwq⟩ := buildTree_forest hk hs
  exact hF.parent c hc fun hmem => hroot ((hwq c hc).1 hmem)

/-- ROOT has no parent. -/
theorem buildTree_root_noParent (j : Nat) :
    ¬ChildOf (buildTree ft).1 (buildTree ft).2.toNat j := by
  intro hchild
  obtain ⟨wq, T, hF, hwq⟩ := buildTree_forest hk hs
  have hlt : (buildTree ft).2.toNat < (buildTree ft).1.length :=
    (hF.child_lt hchild).trans (childOf_lt hchild)
  exact hF.noParent _ ((hwq _ hlt).2 rfl) j hchild

/-- A non-empty table gives 2K - 1 nodes, the last of them ROOT with the sum of the counts. -/
theorem buildTree_root (hpos : 1 ≤ ft.length) :
    (buildTree ft).1.length = 2 * ft.length - 1 ∧ (buildTree ft).2.toNat = 2 * ft.length - 2 ∧
      nodeFreq (buildTree ft).1 (buildTree ft).2.toNat = sumFt ft := by
  have hne : ft ≠ [] := List.length_pos_iff.1 hpos
  obtain ⟨hlen, hroot, _⟩ := (buildTree_shape hk hs).2 hne
  obtain ⟨n, hn, hfreq⟩ := buildTree_rootFreq hk hs hne
  exact ⟨hlen, hroot, by rw [nodeFreq, hn]; exact hfreq⟩

end Shape

/-- Of two entries the second is merged first, as the left child (R122, R123). -/
theorem buildTree_pair {ft : List FtEntry} (h2 : ft.length = 2) :
    ∃ f, (buildTree ft).1[2]? = some (.internal 1 0 f) := by
  obtain ⟨a, b, rfl⟩ := List.length_eq_two.1 h2
  exact ⟨_, rfl⟩

/-! ### The statements -/

/-- Settles O26: leaves and internal nodes are those of the final forest, and ROOT is the one node
left in its working sequence. -/
theorem treeBuildsAFullBinaryTree : Obligations.TreeBuildsAFullBinaryTree := by
  refine ⟨protocolErrors .tree, fun s hp hk hs => ⟨_, _, exec_tree hp, ?_⟩⟩
  obtain ⟨wq, T, hF, _⟩ := buildTree_forest hk hs
  refine ⟨fun hlen => ?_, buildTree_root hk hs, buildTree_pair, hF.leaf, hF.internal,
    fun _ => buildTree_parent hk hs, buildTree_root_noParent hk hs⟩
  exact Prod.ext_iff.1 ((buildTree_shape hk hs).1 (List.length_eq_zero_iff.1 hlen))

/-- Settles O27: the order that the merge loop keeps (`buildTree_order`) holds of the tree that
stands in NODE afterwards. -/
theorem eachMergeTakesTheTwoFirstNodes : Obligations.EachMergeTakesTheTwoFirstNodes := by
  intro s t hp hk hs hdesc hx
  obtain ⟨wq, horder⟩ := buildTree_order hk hs hdesc
  obtain rfl := Host.Outcome.next.inj ((exec_tree hp).symm.trans hx)
  exact horder.merges

end Sys2Proof.Machine
end

section
/-!
PROOFS. The Code Table Generator family (spec/42_code_table_generator.md): what CODEGEN does in each
kind of good state, and the codes of a good table as a complete prefix code.
-/

namespace Sys2Proof.Machine

open Sys2Proof.Safety

/-! ### CODEGEN (R135 to R140) -/

/-- In TREE_READY CODEGEN is its own rule. -/
theorem exec_codegen {s : State} (hp : s.regs.phase = .treeReady) :
    exec .codegen s = finish s (codegenBody s.regs) :=
  exec_legal (by simp) (by simp) (by simp [hp]) (by simp [hp, legalPhases])

section Codegen

variable {s : State} (hp : s.regs.phase = .treeReady)
include hp

/-- More than 255 entries are refused before any walk (R139). -/
theorem exec_codegen_alphabet (hlen : Config.maxTuples < s.regs.ft.length) :
    exec .codegen s =
      .next (errorEntry s .capAlphabet (BitVec.ofNat 32 s.regs.ft.length)) := by
  rw [exec_codegen hp, codegenBody, if_pos hlen, finish_raised]

variable (hlen : s.regs.ft.length ≤ Config.maxTuples)
include hlen

/-- A table becomes CT, and nothing else changes (R136). -/
theorem exec_codegen_ok {ct : List CtEntry}
    (hct : codeTable s.regs.ft.length s.regs.node s.regs.root = .ok ct) :
    exec .codegen s = .next { s with regs := { s.regs with ct := ct, phase := .tableReady } } := by
  rw [exec_codegen hp, codegenBody, if_neg (Nat.not_lt.2 hlen), hct]
  exact finish_done_nil _ _ rfl

/-- A leaf that is too deep leaves no table (R140). -/
theorem exec_codegen_tooDeep {sym : Byte}
    (hct : codeTable s.regs.ft.length s.regs.node s.regs.root = .error (.tooDeep sym)) :
    exec .codegen s = .next (errorEntry s .capCodelen (zext32 sym)) := by
  rw [exec_codegen hp, codegenBody, if_neg (Nat.not_lt.2 hlen), hct, finish_raised]

end Codegen

/-! ### The tree CODEGEN walks -/

/-- From FT_READY to ENC_DONE the Frequency Table is one that TREE takes: at most 256 entries, and
their counts sum to a register's worth. -/
theorem goodStage_ft_bounds {r : Regs} {p : Phase} (h : GoodStage r p)
    (hp : p ∈ [.ftReady, .treeReady, .tableReady, .packing, .packDone, .encDone]) :
    r.ft.length ≤ 256 ∧ sumFt r.ft ≤ 4294967295 := by
  have htot := r.total.isLt
  rw [goodStage_ft h hp, sumFt_buildFt, ← goodStage_total h]
  exact ⟨length_buildFt_le _, by omega⟩

/-- From TREE_READY to ENC_DONE NODE and ROOT are the tree of the Frequency Table. -/
theorem goodStage_node_root {r : Regs} {p : Phase} (h : GoodStage r p)
    (hp : p ∈ [.treeReady, .tableReady, .packing, .packDone, .encDone]) :
    r.node = (buildTree r.ft).1 ∧ r.root = (buildTree r.ft).2 :=
  Prod.ext_iff.1 (goodStage_tree h hp)

/-- A good state in TREE_READY is in the stage TREE_READY. -/
theorem goodStage_treeReady {s : State} (h : GoodState s) (hp : s.regs.phase = .treeReady) :
    GoodStage s.regs .treeReady := by
  have hstage := good_stage h (by simp [hp])
  rwa [hp] at hstage

/-- In a good state in TREE_READY with two leaves or more, the tree under ROOT as a term, and the
table CODEGEN makes of it. -/
theorem treeReady_walk {s : State} (h : GoodState s) (hp : s.regs.phase = .treeReady)
    (h2 : 2 ≤ s.regs.ft.length) :
    ∃ T : CodeTree, Rep s.regs.node s.regs.root.toNat T ∧ T.leaves.length = s.regs.ft.length ∧
      codeTable s.regs.ft.length s.regs.node s.regs.root =
        match T.paths.find? (fun p => decide (31 < p.1.length)) with
        | some p => .error (.tooDeep p.2)
        | none => .ok (T.paths.map (pathEntry 0 0)) := by
  have hstage := goodStage_treeReady h hp
  obtain ⟨hk, hs⟩ := goodStage_ft_bounds hstage (by simp)
  obtain ⟨hnode, hroot⟩ := goodStage_node_root hstage (by simp)
  obtain ⟨T, hrep, hleaves, hlt⟩ := buildTree_rep hk hs (List.length_pos_iff.1 (by omega))
  rw [← hnode, ← hroot] at hrep hlt
  exact ⟨T, hrep, hleaves.length_eq, codeTable_walk h2 hrep hlt⟩

/-- The entry of a path is the one whose code and length write the path. -/
theorem eq_pathEntry_root_iff {e : CtEntry} {p : List Bool × Byte} (hp : p.1.length ≤ 31) :
    pathEntry 0 0 p = e ↔
      p.2 = e.sym ∧ e.code.toNat = bitsValue p.1 ∧ e.len.toNat = p.1.length := by
  obtain ⟨hsym, hcode, hlen, _⟩ := pathEntry_root hp
  rw [← hcode, ← hlen, ← hsym, BitVec.toNat_inj, BitVec.toNat_inj]
  obtain ⟨sym, code, len⟩ := e
  cases pathEntry 0 0 p
  simp only [CtEntry.mk.injEq, eq_comm]

/-- The codes of a walk's table are the paths. -/
theorem map_codeBits_pathEntry {ps : List (List Bool × Byte)} (h : ∀ p ∈ ps, p.1.length ≤ 31) :
    (ps.map (pathEntry 0 0)).map codeBits = ps.map (·.1) := by
  rw [List.map_map]
  refine List.map_congr_left fun p hp => ?_
  obtain ⟨_, _, _, hbits⟩ := pathEntry_root (h p hp)
  exact hbits

/-- In paths that stand in order, the first one longer than `n` is the one before which, in the
order of the strings, all are shorter. -/
theorem find?_deep_eq_some {ps : List (List Bool × Byte)} (hsorted : (ps.map (·.1)).Pairwise (· < ·))
    {n : Nat} {p : List Bool × Byte} (hp : p ∈ ps) (hdeep : n < p.1.length)
    (hfirst : ∀ q ∈ ps, q.1 < p.1 → q.1.length ≤ n) :
    ps.find? (fun q => decide (n < q.1.length)) = some p := by
  obtain ⟨before, after, rfl⟩ := List.append_of_mem hp
  rw [List.pairwise_map, List.pairwise_append] at hsorted
  obtain ⟨_, _, hbefore⟩ := hsorted
  rw [List.find?_eq_some_iff_append]
  refine ⟨by simpa using hdeep, before, after, rfl, fun q hq => ?_⟩
  have := hfirst q (by simp [hq]) (hbefore q hq p (by simp))
  simpa using this

/-! ### The statements about CODEGEN -/

/-- Settles O28: the walk lists the paths of the tree left to right, each as the entry that writes
it. -/
theorem codegenWritesThePathOfEachLeaf : Obligations.CodegenWritesThePathOfEachLeaf := by
  refine ⟨protocolErrors .codegen, fun s hgood hp h2 hlen hshallow => ?_⟩
  obtain ⟨T, hrep, hleaves, hct⟩ := treeReady_walk hgood hp h2
  have hshort : ∀ p ∈ T.paths, p.1.length ≤ 31 :=
    fun p hmem => hshallow p.1 p.2 ((leads_iff hrep _ _).2 hmem)
  rw [List.find?_eq_none.2 (by simpa using hshort)] at hct
  refine ⟨_, exec_codegen_ok hp hlen hct, ?_, fun e => ?_, ?_⟩
  · rw [List.length_map, length_paths, hleaves]
  · rw [List.mem_map]
    constructor
    · rintro ⟨p, hmem, he⟩
      obtain ⟨hsym, hwrites⟩ := (eq_pathEntry_root_iff (hshort p hmem)).1 he
      exact ⟨p.1, (leads_iff hrep _ _).2 (hsym ▸ hmem), hwrites⟩
    · rintro ⟨w, hw, hwrites⟩
      have hmem := (leads_iff hrep _ _).1 hw
      exact ⟨_, hmem, (eq_pathEntry_root_iff (hshort _ hmem)).2 ⟨rfl, hwrites⟩⟩
  · rw [map_codeBits_pathEntry hshort]
    exact paths_sorted T

/-- Settles O29: no walk is made for fewer than two symbols, nor for 256. -/
theorem codegenCornerCases : Obligations.CodegenCornerCases := by
  intro s hgood hp
  refine ⟨fun hft => ?_, fun e hft => ?_, fun h256 => ?_⟩
  · exact exec_codegen_ok hp (by simp [hft, Config.maxTuples]) (by simp [hft, codeTable])
  · obtain ⟨hnode, _⟩ := goodStage_node_root (goodStage_treeReady hgood hp) (by simp)
    have hleaf : s.regs.node[0]? = some (.leaf e.sym e.cnt) := by rw [hnode, hft]; rfl
    exact exec_codegen_ok hp (by simp [hft, Config.maxTuples]) (by simp [hft, codeTable, hleaf])
  · simpa [h256] using exec_codegen_alphabet hp (by rw [h256]; decide)

/-- Settles O30: the walk stops at the first path in its order that is too long, and a path is
shorter than the number of leaves. -/
theorem codegenRejectsTooDeepLeaves : Obligations.CodegenRejectsTooDeepLeaves := by
  intro s hgood hp h2 hlen
  obtain ⟨T, hrep, hleaves, hct⟩ := treeReady_walk hgood hp h2
  refine ⟨fun w sym hw hdeep hfirst => ?_, fun h32 w sym hw => ?_⟩
  · rw [find?_deep_eq_some (paths_sorted T) ((leads_iff hrep _ _).1 hw) hdeep
      fun q hq => hfirst q.1 q.2 ((leads_iff hrep _ _).2 hq)] at hct
    exact exec_codegen_tooDeep hp hlen hct
  · have hlt : w.length < T.leaves.length := length_path_lt T _ ((leads_iff hrep _ _).1 hw)
    omega

/-! ### The codes of a good table (R141) -/

section GoodTable

variable {r : Regs} (h : GoodTable r)
include h

/-- CT has the symbols of FT (R141 (a)). -/
theorem goodTable_syms : (r.ct.map (·.sym)).Perm (r.ft.map (·.sym)) := by
  rcases goodTable_cases h with ⟨hft, hct⟩ | ⟨e, hft, hct⟩ | ⟨_, T, _, hleaves, _, hct⟩
  · rw [hft, hct]; exact .nil
  · rw [hft, hct]; exact .rfl
  · have hpaths : r.ct.map (·.sym) = T.paths.map (·.2) := by
      rw [hct, List.map_map]; rfl
    rw [hpaths, paths_syms]
    exact hleaves.map _

/-- No symbol has two entries (R141 (a)). -/
theorem goodTable_nodup : (r.ct.map (·.sym)).Nodup := by
  rw [(goodTable_syms h).nodup_iff]
  obtain ⟨_, hft, _⟩ := h
  rw [hft]
  exact nodup_buildFt r.cnt

/-- No code is a prefix of another (R141 (c)): the shorter code would be that of the same entry. -/
theorem goodTable_prefixFree : PrefixFree r.ct := by
  intro j k a b hjk ha hb hle heq
  obtain ⟨hentry, hprefix⟩ := goodTable_decodable h
  have hbits {e : CtEntry} (he : e ∈ r.ct) : bitsValue (codeBits e) = e.code.toNat := by
    obtain ⟨_, _, hfit⟩ := hentry e he
    rw [codeBits, bitsValue_lowBits, Nat.mod_eq_of_lt hfit]
  have hamem := List.mem_of_getElem? ha
  have hbmem := List.mem_of_getElem? hb
  obtain rfl : a = b := by
    refine hprefix a hamem b hbmem (bitsValue_prefix ?_ ?_)
    · simpa only [length_codeBits] using hle
    · simpa only [length_codeBits, hbits hamem, hbits hbmem] using heq
  exact hjk ((List.getElem?_inj (List.getElem?_eq_some_iff.1 ha).1 (goodTable_nodup h).of_map).1
    (ha.trans hb.symm))

/-- Two codes or more fill the code space (R141 (d)). -/
theorem goodTable_kraft (h2 : 2 ≤ r.ct.length) :
    (r.ct.map fun e => 2 ^ (31 - e.len.toNat)).sum = 2 ^ 31 := by
  rw [goodTable_length h] at h2
  rcases goodTable_cases h with ⟨hft, _⟩ | ⟨e, hft, _⟩ | ⟨_, T, _, _, hshort, hct⟩
  · simp [hft] at h2
  · simp [hft] at h2
  · rw [← paths_kraft T 31 hshort, hct, List.map_map]
    refine congrArg List.sum (List.map_congr_left fun p hp => ?_)
    obtain ⟨_, _, hlen, _⟩ := pathEntry_root (hshort p hp)
    rw [Function.comp, hlen]

end GoodTable

/-- Settles O31: a good table's symbols, entries, prefixes and Kraft sum, one lemma each. -/
theorem encoderTableIsACompletePrefixCode : Obligations.EncoderTableIsACompletePrefixCode := by
  intro s hgood hp
  have hg := goodStage_table hgood.2 hp
  refine ⟨goodTable_syms hg, goodTable_nodup hg, ?_, goodTable_entry hg, goodTable_prefixFree hg,
    goodTable_kraft hg⟩
  rw [goodTable_length hg]
  obtain ⟨_, _, _, hle, _⟩ := hg
  exact hle

/-! ### The lengths of a good table (R141 (e)) -/

/-- A leaf of the arena is an entry of the Frequency Table (R121). -/
theorem Forest.leaf_mem {ft : List FtEntry} {nodes : List Node} {wq : List Nat} {T : Nat → CodeTree}
    (h : Forest ft nodes wq T) {x : Nat} {sym : Byte} {f : Word32}
    (hx : nodes[x]? = some (.leaf sym f)) : ⟨sym, f⟩ ∈ ft := by
  have hlt : x < ft.length := by
    by_contra hge
    obtain ⟨l, r, g, hint, _⟩ := h.internal x (by omega) (List.getElem?_eq_some_iff.1 hx).1
    simp [hx] at hint
  have hleaf := h.leaf x _ (List.getElem?_eq_getElem hlt)
  simp only [hx, Option.some.injEq, Node.leaf.injEq] at hleaf
  obtain ⟨rfl, rfl⟩ := hleaf
  exact List.getElem_mem hlt

/-- A path to a leaf ends, at its length, in the node of an entry of the Frequency Table. -/
theorem Forest.exists_leaf {ft : List FtEntry} {nodes : List Node} {wq : List Nat}
    {T : Nat → CodeTree} (h : Forest ft nodes wq T) {root : Nat} {w : List Bool} {sym : Byte}
    (hw : Leads nodes root w sym) :
    ∃ (x : Nat) (f : Word32),
      ⟨sym, f⟩ ∈ ft ∧ nodeFreq nodes x = f.toNat ∧ DepthOf nodes root x w.length := by
  obtain ⟨x, f, hx, hdepth⟩ := depthOf_leads hw 0 .root
  exact ⟨x, f, h.leaf_mem hx, by simp [nodeFreq, hx, Node.freq], by simpa using hdepth⟩

/-- In the tree of the counters a symbol that is counted more often lies no deeper: the leaf of the
other is taken before its own. -/
theorem buildTree_length_le {cnt : Vector Word32 256} (hne : buildFt cnt ≠ [])
    (hs : sumFt (buildFt cnt) ≤ 4294967295) {v w : List Bool} {a b : Byte}
    (ha : Leads (buildTree (buildFt cnt)).1 (buildTree (buildFt cnt)).2.toNat v a)
    (hb : Leads (buildTree (buildFt cnt)).1 (buildTree (buildFt cnt)).2.toNat w b)
    (hlt : (counter cnt b).toNat < (counter cnt a).toNat) : v.length ≤ w.length := by
  have hk := length_buildFt_le cnt
  obtain ⟨hlen, hroot, T, hF⟩ := (buildTree_shape hk hs).2 hne
  obtain ⟨wq, ho⟩ := buildTree_order hk hs (descending_buildFt cnt)
  obtain ⟨x, f, hbmem, hx, hdx⟩ := hF.exists_leaf hb
  obtain ⟨y, g, hamem, hy, hdy⟩ := hF.exists_leaf ha
  obtain ⟨hf, _⟩ : f = counter cnt b ∧ _ := (mem_buildFt cnt _).1 hbmem
  obtain ⟨hg, _⟩ : g = counter cnt a ∧ _ := (mem_buildFt cnt _).1 hamem
  have htaken : TakenBefore (buildFt cnt).length (buildTree (buildFt cnt)).1 x y :=
    .inl (by rwa [hx, hy, hf, hg])
  have hpos := List.length_pos_iff.2 hne
  exact depth_le hF ho (by omega) _ x y _ _ le_rfl hdx hdy (.inr htaken)

/-- Settles O32: a table of two entries or more holds the paths of the counters' tree
(`buildTree_length_le`), and in a smaller one no two symbols are counted differently. -/
theorem moreFrequentSymbolsHaveNoLongerCodes :
    Obligations.MoreFrequentSymbolsHaveNoLongerCodes := by
  intro s hgood hp a ha b hb hlt
  have hmem := List.mem_cons_of_mem Phase.treeReady hp
  obtain ⟨hnode, hroot⟩ := goodStage_node_root hgood.2 hmem
  have hft := goodStage_ft hgood.2 (List.mem_cons_of_mem Phase.ftReady hmem)
  obtain ⟨_, hs⟩ := goodStage_ft_bounds hgood.2 (List.mem_cons_of_mem Phase.ftReady hmem)
  rcases goodTable_cases (goodStage_table hgood.2 hp) with ⟨_, hct⟩ | ⟨e, _, hct⟩ |
    ⟨h2, T, hrep, _, hshort, hct⟩
  · simp [hct] at ha
  · rw [hct, List.mem_singleton] at ha hb
    rw [ha, hb]
  · rw [hct, List.mem_map] at ha hb
    obtain ⟨p, hpmem, rfl⟩ := ha
    obtain ⟨q, hqmem, rfl⟩ := hb
    obtain ⟨hpsym, _, hplen, _⟩ := pathEntry_root (hshort p hpmem)
    obtain ⟨hqsym, _, hqlen, _⟩ := pathEntry_root (hshort q hqmem)
    rw [hpsym, hqsym] at hlt
    have hpl := (leads_iff hrep _ _).2 hpmem
    have hql := (leads_iff hrep _ _).2 hqmem
    rw [hnode, hroot, hft] at hpl hql
    rw [hplen, hqlen]
    exact buildTree_length_le (hft ▸ List.length_pos_iff.1 (by omega)) (hft ▸ hs) hpl hql hlt

end Sys2Proof.Machine
end

section
/-!
PROOFS. The Bit Packer family (spec/43_bit_packer.md): PACK, PACK.END, and the payload a run of them
emits.
-/

namespace Sys2Proof.Machine

open Sys2Proof.Safety

/-! ### The table lookup (R154) -/

/-- No entry is found exactly when none has the symbol. -/
theorem lookupSym_eq_none_iff {ct : List CtEntry} {b : Byte} :
    lookupSym ct b = none ↔ ∀ e ∈ ct, e.sym ≠ b := by
  simp [lookupSym]

/-- The entry found is the first one with the symbol. -/
theorem lookupSym_append_cons {before after : List CtEntry} {e : CtEntry} {b : Byte}
    (hbefore : ∀ x ∈ before, x.sym ≠ b) (he : e.sym = b) :
    lookupSym (before ++ e :: after) b = some e := by
  have hnone := lookupSym_eq_none_iff.2 hbefore
  rw [lookupSym] at hnone ⊢
  rw [List.find?_append, hnone, Option.none_or, List.find?_cons_of_pos (by simp [he])]

/-! ### PACK (R150, R155, R157) -/

section Pack

variable {s : State} {b : Byte} (hp : s.regs.phase = .tableReady ∨ s.regs.phase = .packing)
include hp

/-- A symbol without an entry raises NOSYM. -/
theorem exec_pack_nosym (hl : lookupSym s.regs.ct b = none) :
    exec (.pack b) s = .next (errorEntry s .nosym (zext32 b)) := by
  rw [exec_pack hp, packBody, hl, finish_raised]

/-- A code that BITLEN has no room for raises CAP_BITLEN. -/
theorem exec_pack_full {e : CtEntry} (hl : lookupSym s.regs.ct b = some e)
    (hfull : Config.maxWord < s.regs.bitlen.toNat + e.len.toNat) :
    exec (.pack b) s = .next (errorEntry s .capBitlen s.regs.bitlen) := by
  simp only [exec_pack hp, packBody, hl, if_pos hfull, finish_raised]

end Pack

/-- Settles O33: `packBody_bits` in the frame of a completed command; up to 7 pending bits and up to
31 of the code make at most 4 bytes. -/
theorem packAppendsTheCode : Obligations.PackAppendsTheCode := by
  refine fun b => ⟨protocolErrors (.pack b), fun s e hp hl hroom hpacc hcode => ?_⟩
  obtain ⟨pacc, pcnt, hbody, hcnt, hfits, hpending⟩ := packBody_bits hl hroom hpacc hcode
  refine ⟨pacc, pcnt, ?_, hcnt, hfits, hpending, fun hlen => by omega⟩
  rw [exec_pack hp, hbody]
  exact finish_done _ _ _ rfl

/-- Settles O34: the two errors exclude each other by what the lookup finds. -/
theorem packErrors : Obligations.PackErrors := by
  refine fun b s hp => ⟨fun hnone => exec_pack_nosym hp (lookupSym_eq_none_iff.2 hnone), ?_⟩
  intro before e after hct hbefore he hfull
  exact exec_pack_full hp (hct ▸ lookupSym_append_cons hbefore he) hfull

/-! ### PACK.END (R152) -/

/-- In TABLE_READY and PACKING PACK.END completes with the padded byte. -/
theorem exec_packEnd_completed {s : State}
    (hp : s.regs.phase = .tableReady ∨ s.regs.phase = .packing) :
    exec .packEnd s = .next (completed s { s.regs with pacc := 0, pcnt := 0, phase := .packDone }
      (padByte s.regs.pacc s.regs.pcnt)) := by
  rw [exec_packEnd hp]
  exact finish_done _ _ _ rfl

theorem lowBits_of_zero (n : Nat) : lowBits n 0 = List.replicate n false := by
  simp [lowBits, List.map_const']

/-- A number of `n` bits shifted to the top of a byte is its bits with zeros below. -/
theorem lowBits_shifted {n v : Nat} (hn : n ≤ 8) (hv : v < 2 ^ n) :
    lowBits 8 (BitVec.ofNat 8 (v <<< (8 - n))).toNat =
      lowBits n v ++ List.replicate (8 - n) false := by
  have hsum : n + (8 - n) = 8 := Nat.add_sub_cancel' hn
  have hlt : v * 2 ^ (8 - n) < 2 ^ 8 := by
    calc v * 2 ^ (8 - n) < 2 ^ n * 2 ^ (8 - n) := Nat.mul_lt_mul_of_pos_right hv (Nat.two_pow_pos _)
      _ = 2 ^ 8 := by rw [← pow_add, hsum]
  have hsplit := lowBits_append n (8 - n) v 0 (Nat.two_pow_pos _)
  rw [hsum, Nat.add_zero, lowBits_of_zero] at hsplit
  rw [BitVec.toNat_ofNat, Nat.shiftLeft_eq, Nat.mod_eq_of_lt hlt, hsplit]

/-- Settles O35: the byte emitted is `padByte`, by its two cases. -/
theorem packEndPadsTheLastByte : Obligations.PackEndPadsTheLastByte := by
  refine ⟨protocolErrors .packEnd, fun s hp hpacc => ⟨_, exec_packEnd_completed hp, ?_, ?_⟩⟩
  · intro h0
    rw [h0]
    rfl
  · intro h0
    have hpos : 0 < s.regs.pcnt.toNat := Nat.pos_of_ne_zero fun h => h0 (BitVec.eq_of_toNat_eq h)
    exact ⟨_, if_pos hpos, lowBits_shifted (by omega) hpacc⟩

/-! ### The payload (R156) -/

/-- In a good state in TABLE_READY nothing is packed yet. -/
theorem goodStage_tableReady_nothing_packed {r : Regs} (h : GoodStage r .tableReady) :
    r.bitlen = 0 ∧ r.pacc = 0 ∧ r.pcnt = 0 := by
  obtain ⟨hfresh, _⟩ := h
  rw [hfresh]
  exact ⟨rfl, rfl, rfl⟩

/-- Settles O36: the bytes emitted by the run of PACKs and the bits it leaves pending are the bits of
the codes (`run_packs`), and PACK.END emits the byte of the pending ones (`padByte_eq`). -/
theorem payloadIsTheConcatenationOfTheCodes : Obligations.PayloadIsTheConcatenationOfTheCodes := by
  intro S s B hgood hp hB hlen
  have hstage := good_stage hgood (by simp [hp])
  rw [hp] at hstage
  obtain ⟨hbitlen, hpacc, hpcnt⟩ := goodStage_tableReady_nothing_packed hstage
  have hcodes : ∀ e ∈ s.regs.ct, e.code.toNat < 2 ^ e.len.toNat := by
    intro e he
    obtain ⟨_, _, hcode⟩ := goodTable_entry (goodStage_table hstage (by simp)) e he
    exact hcode
  obtain ⟨t, whole, hrun, htp, htct, htbitlen, htpacc, htout, hwhole, hbits⟩ :=
    run_packs S s B (.inl hp) hcodes hB (by simpa [hbitlen] using hlen) (by simp [hpacc, hpcnt])
  rw [hpcnt] at hbits
  refine ⟨_, runInstrs_append hrun (runInstrs_cons (exec_packEnd_completed htp) []), rfl, ?_, ?_, htct⟩
  · rw [completed_bitlen, htbitlen, hbitlen]
    exact Nat.zero_add _
  · calc t.outQ ++ padByte t.regs.pacc t.regs.pcnt
        = s.outQ ++ bytesOfBits (whole ++ lowBits t.regs.pcnt.toNat t.regs.pacc.toNat) := by
          rw [htout, padByte_eq htpacc, List.append_assoc, bytesOfBits_append hwhole]
      _ = s.outQ ++ bytesOfBits B := by rw [hbits]; rfl

end Sys2Proof.Machine
end

section
/-!
PROOFS. The Container Codec family (spec/44_container_codec.md): the header HDR.WR emits, what HDR.RD
does with one byte of it, and the round trip.
-/

namespace Sys2Proof.Machine

open Sys2Proof.Safety

/-! ### The header round trip (R175) -/

/-- In PACK_DONE HDR.WR completes with the header of the bit count and the table. -/
theorem exec_hdrWr {s : State} (hp : s.regs.phase = .packDone) :
    exec .hdrWr s = .next (completed s
      { s.regs with hdrsize := BitVec.ofNat 11 (headerSize s.regs.ct.length), phase := .encDone }
      (headerBytes s.regs.bitlen s.regs.ct)) := by
  rw [exec_legal (by simp) (by simp) (by simp [hp]) (by simp [hp, legalPhases])]
  exact finish_done _ _ _ rfl

/-- Settles O40: the parse of a whole header is an induction over its records (`run_header`), and it
writes no register of the unpacker. -/
theorem headerRoundTrip : Obligations.HeaderRoundTrip := by
  refine ⟨fun s hp => ⟨_, exec_hdrWr hp, rfl⟩, fun s bitlen ct hreset hlen => ?_⟩
  obtain ⟨t, hrun, hparsed, houtQ, hsame⟩ := run_header hreset bitlen ct hlen
  have hpos : t.regs.hpos = t.regs.hdrsize :=
    BitVec.eq_of_toNat_eq (hparsed.hpos.trans hparsed.hdrsize.symm)
  have hunpacker : t.regs.uacc = 0 ∧ t.regs.ucnt = 0 ∧ t.regs.ucons = 0 := by
    rw [hsame]
    exact ⟨rfl, rfl, rfl⟩
  obtain ⟨huacc, hucnt, hucons⟩ := hunpacker
  exact ⟨t, hrun, hparsed.phase.trans (if_pos rfl), hparsed.ct, hparsed.bitlen, hparsed.hdrsize, hpos,
    huacc, hucnt, hucons, houtQ⟩

/-! ### The header's layout (R68, R165) -/

/-- Byte `k` of a word written least significant byte first (R62). -/
theorem getElem?_bytesLE {k : Nat} (hk : k < 4) (v : Word32) :
    (bytesLE v)[k]? = some (BitVec.ofNat 8 (v.toNat / 2 ^ (8 * k))) := by
  rw [← byteOf_eq_ofNat]
  interval_cases k <;> rfl

/-- The code of a record stands between its symbol and its length. -/
theorem getElem?_recordBytes_code {k : Nat} (hk : k < 4) (e : CtEntry) :
    (recordBytes e)[1 + k]? = some (BitVec.ofNat 8 (e.code.toNat / 2 ^ (8 * k))) := by
  rw [← getElem?_bytesLE hk, recordBytes, List.append_assoc, Nat.add_comm, List.singleton_append,
    List.getElem?_cons_succ, List.getElem?_append_left hk]

/-- The bit count stands behind the three magic bytes. -/
theorem getElem?_headerBytes_bitlen {k : Nat} (hk : k < 4) (bitlen : Word32) (ct : List CtEntry) :
    (headerBytes bitlen ct)[3 + k]? = some (BitVec.ofNat 8 (bitlen.toNat / 2 ^ (8 * k))) := by
  rw [← byteOf_eq_ofNat, headerBytes_eq]
  interval_cases k <;> rfl

/-- Byte `j` of record `r` in the header. -/
theorem getElem?_headerBytes_record {ct : List CtEntry} {r j : Nat} {e : CtEntry}
    (he : ct[r]? = some e) (hj : j < 6) (bitlen : Word32) :
    (headerBytes bitlen ct)[8 + 6 * r + j]? = (recordBytes e)[j]? := by
  rw [Nat.add_assoc, getElem?_headerBytes, getElem?_records ct r j hj e he]

/-- Settles O37: HDR.WR emits `headerBytes`, whose bytes stand where the layout says. -/
theorem hdrWrEmitsTheHeader : Obligations.HdrWrEmitsTheHeader := by
  refine ⟨protocolErrors .hdrWr, fun s hp => ⟨_, exec_hdrWr hp, length_headerBytes _ _, rfl, rfl, rfl,
    fun k hk => getElem?_headerBytes_bitlen hk _ _, rfl, fun r e he => ⟨?_, fun k hk => ?_, ?_⟩⟩⟩
  · exact getElem?_headerBytes_record (j := 0) he (by omega) _
  · rw [show 9 + 6 * r + k = 8 + 6 * r + (1 + k) by omega,
      getElem?_headerBytes_record he (by omega), getElem?_recordBytes_code hk]
  · rw [show 13 + 6 * r = 8 + 6 * r + 5 by omega, getElem?_headerBytes_record he (by omega)]
    rfl

/-! ### The magic bytes (R168) -/

/-- The magic byte by its offset. -/
theorem magic_match_iff {p : BitVec 11} {b : Byte} :
    (p.toNat < 3 → Config.magic[p.toNat]? = some b) ↔
      (p = 0 → b = 0x51) ∧ (p = 1 → b = 0x50) ∧ (p = 2 → b = 0x4B) := by
  have hcases : p = 0 ∨ p = 1 ∨ p = 2 ∨ 3 ≤ p.toNat := by bv_omega
  rcases hcases with rfl | rfl | rfl | hge
  · simp [Config.magic, eq_comm]
  · simp [Config.magic, eq_comm]
  · simp [Config.magic, eq_comm]
  · have hlater : p ≠ 0 ∧ p ≠ 1 ∧ p ≠ 2 := by bv_omega
    obtain ⟨h0, h1, h2⟩ := hlater
    exact iff_of_true (fun h => absurd h (by omega))
      ⟨fun h => absurd h h0, fun h => absurd h h1, fun h => absurd h h2⟩

/-- Settles O38: a byte that is not its offset's magic byte raises the error. -/
theorem hdrRdChecksTheMagicByteByByte : Obligations.HdrRdChecksTheMagicByteByByte := by
  refine fun b => ⟨protocolErrors (.hdrRd b), fun s hp hwrong => ?_⟩
  rw [exec_hdrRd hp]
  rcases hdrRdBody_cases b s.regs with ⟨_, _, hbody⟩ | ⟨hmatch, _⟩
  · rw [hbody, finish_raised, BitVec.ofNat_toNat]
    rfl
  · obtain ⟨hm0, hm1, hm2⟩ := magic_match_iff.1 hmatch
    rcases hwrong with ⟨hpos, hb⟩ | ⟨hpos, hb⟩ | ⟨hpos, hb⟩
    · exact absurd (hm0 hpos) hb
    · exact absurd (hm1 hpos) hb
    · exact absurd (hm2 hpos) hb

/-! ### One header byte stored (R169 to R172) -/

/-- The kinds of offsets in a header: a magic byte, a byte of the bit count, the tuple count, and in
a record the symbol, a byte of the code, the length (R68). -/
theorem headerOffset_cases (p : Nat) :
    p < 3 ∨ (∃ k, k < 4 ∧ p = 3 + k) ∨ p = 7 ∨ (8 ≤ p ∧ (p - 8) % 6 = 0) ∨
      (8 ≤ p ∧ ∃ k, k < 4 ∧ (p - 8) % 6 = k + 1) ∨ (8 ≤ p ∧ (p - 8) % 6 = 5) := by
  by_cases h8 : 8 ≤ p
  · have hlt : (p - 8) % 6 < 6 := Nat.mod_lt _ (by omega)
    by_cases h0 : (p - 8) % 6 = 0
    · exact .inr (.inr (.inr (.inl ⟨h8, h0⟩)))
    by_cases h5 : (p - 8) % 6 = 5
    · exact .inr (.inr (.inr (.inr (.inr ⟨h8, h5⟩))))
    · exact .inr (.inr (.inr (.inr (.inl ⟨h8, (p - 8) % 6 - 1, by omega, by omega⟩))))
  by_cases h3 : p < 3
  · exact .inl h3
  by_cases h7 : p = 7
  · exact .inr (.inr (.inl h7))
  · exact .inr (.inl ⟨p - 3, by omega, by omega⟩)

/-- What a header byte makes of each element HDR.RD can write but HPOS and PHASE (R169 to R171). -/
structure StoresHeaderByte (p : Nat) (b : Byte) (r r' : Regs) : Prop where
  bitlen : ∀ k < 4, byteOf k r'.bitlen = if p = 3 + k then b else byteOf k r.bitlen
  hdrsize : r'.hdrsize = if p = 7 then BitVec.ofNat 11 (8 + 6 * b.toNat) else r.hdrsize
  hsym : r'.hsym = if 8 ≤ p ∧ (p - 8) % 6 = 0 then b else r.hsym
  hcode : ∀ k < 4, byteOf k r'.hcode =
    if 8 ≤ p then
      if (p - 8) % 6 = 0 then 0 else if (p - 8) % 6 = 1 + k then b else byteOf k r.hcode
    else byteOf k r.hcode
  ct : r'.ct = if 8 ≤ p ∧ (p - 8) % 6 = 5 then r.ct ++ [⟨r.hsym, r.hcode, b⟩] else r.ct

/-- A header byte writes the element of its offset's kind, and no other. -/
theorem storeHeaderByte_stores (p : Nat) (b : Byte) (r : Regs) :
    StoresHeaderByte p b r (storeHeaderByte p b r) := by
  rcases headerOffset_cases p with
    hmagic | ⟨k, hk, rfl⟩ | rfl | ⟨h8, hf⟩ | ⟨h8, k, hk, hf⟩ | ⟨h8, hf⟩
  · rw [storeHeaderByte_magic hmagic]
    constructor <;> grind
  · rw [storeHeaderByte_bitlen (by omega) (by omega), Nat.add_sub_cancel_left]
    constructor <;> grind [byteOf_setByte]
  · rw [storeHeaderByte_count]
    constructor <;> grind [headerSize, Config.hdrFix, Config.recSize]
  · rw [storeHeaderByte_sym h8 hf]
    constructor <;> grind [byteOf]
  · rw [storeHeaderByte_code h8 hf hk]
    constructor <;> grind [byteOf_setByte]
  · rw [storeHeaderByte_len h8 hf]
    constructor <;> grind

/-- HPOS advances by one, and PHASE tells whether it has reached HDRSIZE (R172). -/
theorem advanceHeader_hpos (r r' : Regs) :
    advanceHeader r.hpos.toNat r' = { r' with
      hpos := r.hpos + 1
      phase := if 7 ≤ r.hpos.toNat ∧ r.hpos.toNat + 1 = r'.hdrsize.toNat
        then .unpacking else .hdrParse } := by
  simp [advanceHeader, BitVec.ofNat_add]

/-- Settles O39: a byte that is no wrong magic byte is stored and HPOS advances (`hdrRd_next`), and
its offset tells what it writes (`storeHeaderByte_stores`). -/
theorem hdrRdStoresTheHeaderByte : Obligations.HdrRdStoresTheHeaderByte := by
  intro b s hp hm0 hm1 hm2
  have hexec := hdrRd_next hp (magic_match_iff.2 ⟨hm0, hm1, hm2⟩)
  rw [advanceHeader_hpos, storeHeaderByte_frame] at hexec
  obtain ⟨hbitlen, hhdrsize, hhsym, hhcode, hct⟩ := storeHeaderByte_stores s.regs.hpos.toNat b s.regs
  have h7 : s.regs.hpos.toNat = 7 ↔ s.regs.hpos = 7 := BitVec.toNat_inj (y := 7#11)
  exact ⟨_, _, _, _, _, _, hexec, hbitlen, by simpa only [h7] using hhdrsize, hhsym, hhcode, hct, rfl⟩

end Sys2Proof.Machine
end

section
/-!
PROOFS. The Bit Unpacker family (spec/45_bit_unpacker.md): UNPACK as the bit string decoder, EOF, and
the round trip of ENCODE and DECODE.
-/

namespace Sys2Proof.Machine

open Sys2Proof.Safety

/-! ### What a call that ends without an error has done -/

theorem runInstrs_cons_inv {i : Instr} {is : List Instr} {s u : State}
    (h : runInstrs (i :: is) s = .next u) :
    ∃ t, exec i s = .next t ∧ runInstrs is t = .next u := by
  rw [runInstrs] at h
  split at h
  next t hi => exact ⟨t, hi, h⟩
  all_goals cases h

/-- A command that does not end in ERROR ran in a listed phase, and its own rule completed. -/
theorem exec_done {i : Instr} (hn : i ≠ .nop) (hc : i ≠ .clear) {s t : State}
    (h : exec i s = .next t) (ht : t.regs.phase ≠ .error) :
    s.regs.phase ∈ legalPhases i ∧
      ∃ r out, bodyOf i s.regs = .done r out ∧ t = emit { s with regs := r } out := by
  rcases exec_cases h with ⟨hclear, _⟩ | ⟨_, hnop | herr, rfl⟩ | ⟨_, _, rfl⟩ |
    ⟨_, _, _, hl, ⟨e, info, _, rfl⟩ | ⟨r, out, hbody, rfl⟩⟩
  · exact absurd hclear hc
  · exact absurd hnop hn
  · exact absurd herr ht
  · exact absurd rfl ht
  · exact absurd rfl ht
  · exact ⟨hl, r, out, hbody, rfl⟩

/-- CLEAR alone leaves ERROR, so a list without CLEAR that does not end in ERROR did not start there
(R229). -/
theorem phase_ne_error_of_run {cs : List Instr} (hcs : .clear ∉ cs) {s t : State}
    (h : runInstrs cs s = .next t) (ht : t.regs.phase ≠ .error) : s.regs.phase ≠ .error := by
  intro herr
  induction cs with
  | nil => cases h; exact ht herr
  | cons i cs ih =>
    rw [List.mem_cons, not_or] at hcs
    rw [runInstrs_cons (exec_error (Ne.symm hcs.1) herr)] at h
    exact ih hcs.2 h

/-- A run of PACKs that does not end in ERROR found an entry for each symbol and room for its code
(R150, R157). -/
theorem payloadBits_of_run_packs {S : List Byte} {s t : State}
    (hp : s.regs.phase = .tableReady ∨ s.regs.phase = .packing)
    (h : runInstrs (packsOf S) s = .next t) (ht : t.regs.phase ≠ .error) :
    ∃ B, payloadBits s.regs.ct S = some B ∧ s.regs.bitlen.toNat + B.length ≤ 4294967295 := by
  induction S generalizing s with
  | nil => exact ⟨[], rfl, Nat.le_of_lt_succ s.regs.bitlen.isLt⟩
  | cons b S ih =>
    obtain ⟨u, hpack, hrest⟩ := runInstrs_cons_inv h
    have hu : u.regs.phase ≠ .error := phase_ne_error_of_run (by simp) hrest ht
    obtain ⟨_, r, out, hbody, rfl⟩ := exec_done (by simp) (by simp) hpack hu
    rcases packBody_cases b s.regs with ⟨_, hraised⟩ | ⟨_, _, _, hraised⟩ | ⟨e, hl, hroom, hdone⟩
    · cases hraised.symm.trans hbody
    · cases hraised.symm.trans hbody
    · cases hdone.symm.trans hbody
      obtain ⟨B, hB, hlen⟩ := ih (.inr rfl) hrest
      simp only [Config.maxWord] at hroom
      simp only [emit_ct] at hB
      simp only [emit_bitlen, BitVec.toNat_add, BitVec.toNat_ofNat] at hlen
      refine ⟨codeBits e ++ B, by simp only [payloadBits, hl, hB], ?_⟩
      rw [List.length_append, length_codeBits]
      omega

/-! ### The commands before the payload emit nothing -/

/-- The commands that build the Code Table. -/
def buildsTable (i : Instr) : Bool := isCount i || i ∈ [.ftbuild, .tree, .codegen]

/-- Their rules emit nothing (R101, R106, R120, R135). -/
theorem bodyOf_buildsTable {i : Instr} (hi : buildsTable i = true) {r r' : Regs} {out : List Byte}
    (h : bodyOf i r = .done r' out) : out = [] := by
  simp only [buildsTable, Bool.or_eq_true, List.mem_cons, List.not_mem_nil, or_false,
    decide_eq_true_eq] at hi
  rcases hi with hcount | rfl | rfl | rfl
  · rw [bodyOf_count hcount] at h
    rcases countBody_cases (countLanes i) r with ⟨_, hbody⟩ | ⟨_, hbody⟩ <;>
      cases hbody.symm.trans h
    rfl
  · cases h; rfl
  · cases h; rfl
  · rcases codegenBody_cases r with ⟨_, hbody⟩ | ⟨_, ⟨_, _, hbody⟩ | ⟨_, _, hbody⟩ | ⟨_, hbody⟩⟩ <;>
      cases hbody.symm.trans h
    rfl

theorem exec_buildsTable_outQ {i : Instr} (hi : buildsTable i = true) {s t : State}
    (h : exec i s = .next t) : t.outQ = s.outQ := by
  rcases exec_cases h with ⟨_, rfl⟩ | ⟨_, _, rfl⟩ | ⟨_, _, rfl⟩ |
    ⟨_, _, _, _, ⟨_, _, _, rfl⟩ | ⟨r, out, hbody, rfl⟩⟩
  · rfl
  · rfl
  · rfl
  · rfl
  · rw [bodyOf_buildsTable hi hbody, emit_outQ, List.append_nil]

theorem run_buildsTable_outQ {cs : List Instr} (hcs : ∀ i ∈ cs, buildsTable i = true) {s t : State}
    (h : runInstrs cs s = .next t) : t.outQ = s.outQ := by
  induction cs generalizing s with
  | nil => cases h; rfl
  | cons i cs ih =>
    rw [List.forall_mem_cons] at hcs
    obtain ⟨u, hi, hrest⟩ := runInstrs_cons_inv h
    rw [ih hcs.2 hrest, exec_buildsTable_outQ hcs.1 hi]

/-! ### ENCODE (R90, R194) -/

/-- The part of `ENCODE S` that makes the Code Table. -/
def tableCall (S : List Byte) : List Instr := countsOf S ++ [.ftbuild, .tree] ++ [.codegen]

theorem encodeCall_eq (S : List Byte) :
    encodeCall S = .clear :: (tableCall S ++ ((packsOf S ++ [.packEnd]) ++ [.hdrWr])) := by
  simp [encodeCall, tableCall]

theorem tableCall_buildsTable (S : List Byte) : ∀ i ∈ tableCall S, buildsTable i = true := by
  intro i hi
  rw [tableCall, List.append_assoc, List.mem_append] at hi
  rcases hi with hi | hi
  · rw [buildsTable, countsOf_isCount S i hi, Bool.true_or]
  · exact Bool.or_eq_true_iff.2 (.inr (decide_eq_true hi))

/-- `CLEAR` and the commands that make the table, when they do not end in ERROR: a good state in
TABLE_READY with nothing emitted. -/
theorem run_tableCall {S : List Byte} {s t : State} (h : runInstrs (tableCall S) (clearRegs s) = .next t)
    (ht : t.regs.phase ≠ .error) : GoodState t ∧ t.regs.phase = .tableReady ∧ t.outQ = s.outQ := by
  refine ⟨run_good (good_of_reset rfl) h, ?_,
    run_buildsTable_outQ (s := clearRegs s) (tableCall_buildsTable S) h⟩
  obtain ⟨u, _, hlast⟩ := runInstrs_append_inv h
  obtain ⟨v, hcodegen, hnil⟩ := runInstrs_cons_inv hlast
  cases hnil
  obtain ⟨hl, r, out, hbody, rfl⟩ := exec_done (by simp) (by simp) hcodegen ht
  have hphase := bodyOf_done_phase (by simp) (by simp) hl hbody
  simpa [targetPhases] using hphase

/-- The payload of a run of PACKs and PACK.END that does not end in ERROR (R156). -/
theorem run_payload {S : List Byte} {s t : State} (hgood : GoodState s)
    (hp : s.regs.phase = .tableReady) (h : runInstrs (packsOf S ++ [.packEnd]) s = .next t)
    (ht : t.regs.phase ≠ .error) :
    ∃ B, payloadBits s.regs.ct S = some B ∧ t.regs.phase = .packDone ∧
      t.regs.bitlen.toNat = B.length ∧ t.outQ = s.outQ ++ bytesOfBits B ∧ t.regs.ct = s.regs.ct := by
  obtain ⟨u, hpacks, hend⟩ := runInstrs_append_inv h
  obtain ⟨B, hB, hroom⟩ := payloadBits_of_run_packs (.inl hp) hpacks
    (phase_ne_error_of_run (by simp) hend ht)
  obtain ⟨t', hrun, hpayload⟩ := payloadIsTheConcatenationOfTheCodes S s B hgood hp hB (by omega)
  obtain rfl : t' = t := Host.Outcome.next.inj (hrun.symm.trans h)
  exact ⟨B, hB, hpayload⟩

/-- A good table has at most 255 entries (R139). -/
theorem goodTable_length_le {r : Regs} (h : GoodTable r) : r.ct.length ≤ 255 := by
  rw [goodTable_length h]
  obtain ⟨_, _, _, hft, _⟩ := h
  exact hft

/-- HDRSIZE as HDR.WR writes it is the header's size (R165). -/
theorem toNat_headerSize (bitlen : Word32) {ct : List CtEntry} (h : ct.length ≤ 255) :
    (BitVec.ofNat 11 (headerSize ct.length)).toNat = (headerBytes bitlen ct).length := by
  rw [length_headerBytes, BitVec.toNat_ofNat, headerSize, Config.hdrFix, Config.recSize]
  omega

/-- What an `ENCODE S` that ends in ENC_DONE leaves: a good table with an entry for each symbol of
`S`, and the bytes of their codes and the header emitted (R156, R165). -/
theorem encodeCall_done {S : List Byte} {s t : State} (h : runInstrs (encodeCall S) s = .next t)
    (ht : t.regs.phase = .encDone) :
    ∃ (ct : List CtEntry) (bitlen : Word32) (B : List Bool), Decodable ct ∧ ct.length ≤ 255 ∧
      payloadBits ct S = some B ∧ bitlen.toNat = B.length ∧
      t.regs.hdrsize.toNat = (headerBytes bitlen ct).length ∧
      t.outQ = s.outQ ++ (bytesOfBits B ++ headerBytes bitlen ct) := by
  have hne : t.regs.phase ≠ .error := by simp [ht]
  rw [encodeCall_eq, runInstrs_clear] at h
  obtain ⟨u, htable, hrest⟩ := runInstrs_append_inv h
  obtain ⟨v, hpacks, hheader⟩ := runInstrs_append_inv hrest
  have hune : u.regs.phase ≠ .error := phase_ne_error_of_run (by simp [packsOf]) hrest hne
  obtain ⟨hgood, hready, huoutQ⟩ := run_tableCall htable hune
  obtain ⟨B, hB, hvphase, hbitlen, hvoutQ, hvct⟩ :=
    run_payload hgood hready hpacks (phase_ne_error_of_run (by simp) hheader hne)
  have hstage := good_stage (run_good hgood hpacks) (by simp [hvphase])
  have hgt : GoodTable v.regs := goodStage_table hstage (by simp [hvphase])
  have hlen := goodTable_length_le hgt
  rw [runInstrs_cons (exec_hdrWr hvphase)] at hheader
  cases hheader
  exact ⟨v.regs.ct, v.regs.bitlen, B, goodTable_decodable hgt, hlen, hvct ▸ hB, hbitlen,
    toNat_headerSize v.regs.bitlen hlen, by rw [completed_outQ, hvoutQ, huoutQ, List.append_assoc]⟩

/-! ### EOF (R190) -/

/-- In IDLE, HDR_PARSE and UNPACKING EOF is its own rule. -/
theorem exec_eof {s : State} (hp : s.regs.phase ∈ legalPhases .eof) :
    exec .eof s = finish s (eofBody s.regs) :=
  exec_legal (by simp) (by simp) (fun herr => by simp [herr, legalPhases] at hp) hp

/-- EOF before the end of the header (R174). -/
theorem exec_eof_header {s : State} (hp : s.regs.phase = .idle ∨ s.regs.phase = .hdrParse) :
    exec .eof s = .next (errorEntry s .formatTruncHeader (zext32 s.regs.hpos)) := by
  rw [exec_eof (by rcases hp with hp | hp <;> simp [hp, legalPhases]), eofBody, if_pos hp,
    finish_raised]

section Unpacking

variable {s : State} (hp : s.regs.phase = .unpacking)
include hp

/-- In UNPACKING, EOF's rule looks at the bits consumed alone. -/
theorem exec_eof_unpacking : exec .eof s = finish s
    (if s.regs.ucons.toNat < s.regs.bitlen.toNat then .raised .formatTruncPayload s.regs.ucons
      else .done { s.regs with phase := .decDone } []) := by
  rw [exec_eof (by simp [hp, legalPhases]), eofBody, if_neg (by simp [hp])]

theorem exec_eof_payload (hlt : s.regs.ucons.toNat < s.regs.bitlen.toNat) :
    exec .eof s = .next (errorEntry s .formatTruncPayload s.regs.ucons) := by
  rw [exec_eof_unpacking hp, if_pos hlt, finish_raised]

theorem exec_eof_complete (hle : s.regs.bitlen.toNat ≤ s.regs.ucons.toNat) :
    exec .eof s = .next { s with regs := { s.regs with phase := .decDone } } := by
  rw [exec_eof_unpacking hp, if_neg (Nat.not_lt.2 hle)]
  exact finish_done_nil _ _ rfl

end Unpacking

/-- Settles O43: the clauses are the branches of EOF's rule. -/
theorem eofEndsTheDecode : Obligations.EofEndsTheDecode :=
  ⟨protocolErrors .eof, fun _ => ⟨exec_eof_header, exec_eof_payload, exec_eof_complete⟩⟩

/-! ### UNPACK (R185 to R189, R193) -/

/-- Settles O41: UNPACK's rule is the bit string decoder (`takeBits_eq`), and a rule that completes
leaves OUTCNT to the shared emission. -/
theorem unpackReadsTheBitString : Obligations.UnpackReadsTheBitString := by
  refine fun b => ⟨protocolErrors (.unpack b), fun s hp hcons hcnt hacc => ?_⟩
  have hbits := takeBits_eq (bitsMsb b) s.regs hcons hcnt hacc
  rw [bitsMsb_eq] at hbits
  rw [exec_unpack hp, unpackBody, bitsMsb_eq]
  intro bits
  split
  next pending out hread =>
    rw [hread] at hbits
    obtain ⟨uacc, ucnt, hdone, hpending⟩ := hbits
    exact ⟨uacc, ucnt, by rw [hdone]; exact finish_done _ _ _ rfl, hpending⟩
  next n hread =>
    rw [hread] at hbits
    rw [hbits, finish_raised]

/-- At the stop no bit is read (R188). -/
theorem takeBits_stopped {r : Regs} (h : r.ucons = r.bitlen) (xs : List Bool) :
    takeBits xs r = .done r [] := by
  cases xs with
  | nil => rfl
  | cons x xs => rw [takeBits, if_pos h]

/-- One bit leaves at most one bit more pending, whether it completes a code or not (R186). -/
theorem takeBit_ucnt_le (x : Bool) {r : Regs} (h : r.ucnt.toNat < 32) :
    (takeBit x r).1.ucnt.toNat ≤ r.ucnt.toNat + 1 := by
  unfold takeBit
  simp only
  split
  · exact Nat.zero_le _
  · show (r.ucnt + 1).toNat ≤ _
    bv_omega

/-- With room in the accumulator for the meaningful bits among `xs`, all of them are read, whatever
the table is (R189). -/
theorem takeBits_with_room (xs : List Bool) {r : Regs} (hc : r.ucons.toNat ≤ r.bitlen.toNat)
    (hroom : r.ucnt.toNat + min xs.length (r.bitlen.toNat - r.ucons.toNat) ≤ 32) :
    ∃ r' out, takeBits xs r = .done r' out ∧
      r'.ucons.toNat = r.ucons.toNat + min xs.length (r.bitlen.toNat - r.ucons.toNat) := by
  induction xs generalizing r with
  | nil => exact ⟨r, [], rfl, by simp⟩
  | cons x xs ih =>
    by_cases hstop : r.ucons = r.bitlen
    · exact ⟨r, [], takeBits_stopped hstop _, by simp [hstop]⟩
    · have hlt : r.ucons.toNat < r.bitlen.toNat :=
        Nat.lt_of_le_of_ne hc fun h => hstop (BitVec.eq_of_toNat_eq h)
      rw [List.length_cons] at hroom ⊢
      have hcnt := takeBit_ucnt_le x (r := r) (by omega)
      have hframe := takeBit_frame x r
      have hbitlen : (takeBit x r).1.bitlen = r.bitlen := by rw [hframe]
      have hcons : (takeBit x r).1.ucons.toNat = r.ucons.toNat + 1 := by
        rw [hframe]
        bv_omega
      obtain ⟨r', out, hdone, hadv⟩ := ih (r := (takeBit x r).1) (by rw [hbitlen]; omega)
        (by rw [hbitlen]; omega)
      refine ⟨r', (takeBit x r).2 ++ out, ?_, by rw [hadv, hbitlen]; omega⟩
      rw [takeBits, if_neg hstop, if_neg (by simp only [Config.uaccWidth]; omega)]
      simp only [hdone]

/-- Settles O42: the stop and the room are those of the bits of the byte (`takeBits_stopped`,
`takeBits_with_room`). -/
theorem unpackCompletesWithRoom : Obligations.UnpackCompletesWithRoom := by
  intro b s hp
  rw [exec_unpack hp]
  refine ⟨fun hstop => ?_, fun hc hroom => ?_⟩
  · rw [unpackBody, takeBits_stopped hstop]
    exact finish_done_nil _ _ rfl
  · have hlen : (bitsMsb b).length = 8 := by rw [bitsMsb_eq, length_lowBits]
    obtain ⟨r, out, hdone, hadv⟩ := takeBits_with_room (bitsMsb b) hc (by rwa [hlen])
    have hphase : r.phase = s.regs.phase := by rw [takeBits_frame hdone]
    exact ⟨_, by rw [unpackBody, hdone]; rfl, hphase.trans hp, by rw [← hlen]; exact hadv⟩

/-! ### DECODE (R90, R194) -/

/-- The file has the last bytes emitted in front (R74). -/
theorem assembleFile_append (P H : List Byte) : assembleFile H.length (P ++ H) = H ++ P := by
  simp [assembleFile]

/-- A whole header is read from a fresh call by DECODE's header loop (R175). -/
theorem feedHeader_file (bitlen : Word32) {ct : List CtEntry} (hlen : ct.length ≤ 255) (P : List Byte)
    (s : State) :
    ∃ t, feedHeader (headerBytes bitlen ct ++ P) (clearRegs s) = .next (t, P) ∧
      t.regs.phase = .unpacking ∧ t.regs.ct = ct ∧ t.regs.bitlen = bitlen ∧
      t.regs.uacc = 0 ∧ t.regs.ucnt = 0 ∧ t.regs.ucons = 0 ∧ t.outQ = s.outQ := by
  obtain ⟨t, hrun, hphase, hct, hbitlen, _, _, hunpacker⟩ :=
    headerRoundTrip.2 (clearRegs s) bitlen ct rfl hlen
  exact ⟨t, feedHeader_whole (.inl rfl) hrun hphase P, hphase, hct, hbitlen, hunpacker⟩

/-- `DECODE` of a file whose payload is the codes of `S` in the header's table (R194). -/
theorem runDecode_file {ct : List CtEntry} {bitlen : Word32} {B : List Bool} {S : List Byte}
    (hct : Decodable ct) (hlen : ct.length ≤ 255) (hB : payloadBits ct S = some B)
    (hbitlen : bitlen.toNat = B.length) (s : State) :
    ∃ t, runDecode (headerBytes bitlen ct ++ bytesOfBits B) s = .next t ∧
      t.regs.phase = .decDone ∧ t.regs.ucnt = 0 ∧ t.outQ = s.outQ ++ S := by
  obtain ⟨u, hfeed, hphase, huct, hubitlen, huacc, hucnt, hucons, huoutQ⟩ :=
    feedHeader_file bitlen hlen (bytesOfBits B) s
  have hread : readBits u.regs.ct (lowBits u.regs.ucnt.toNat u.regs.uacc.toNat)
      ((bitsOfBytes (bytesOfBits B)).take (u.regs.bitlen.toNat - u.regs.ucons.toNat)) =
        .ok ([], S) := by
    rw [huct, hubitlen, huacc, hucnt, hucons, hbitlen]
    show readBits ct [] ((bitsOfBytes (bytesOfBits B)).take B.length) = _
    rw [take_bitsOfBytes, readBits_payload hct S B hB]
  obtain ⟨v, hrun, hvphase, hvbitlen, hvoutQ, hpending, hvcons⟩ :=
    run_unpacks (bytesOfBits B) u [] S hphase (by simp [hucons]) (by simp [hucnt])
      (by simp [hucnt, huacc]) hread
  have hucnt0 : v.regs.ucnt.toNat = 0 := by
    rw [← length_lowBits v.regs.ucnt.toNat v.regs.uacc.toNat, hpending, List.length_nil]
  have hall : v.regs.bitlen.toNat ≤ v.regs.ucons.toNat := by
    rw [hvcons, hvbitlen, hubitlen, hucons, hbitlen, length_bytesOfBits]
    simp only [BitVec.ofNat_eq_ofNat, BitVec.toNat_ofNat]
    omega
  refine ⟨{ v with regs := { v.regs with phase := .decDone } }, ?_, rfl,
    BitVec.eq_of_toNat_eq hucnt0, hvoutQ.trans (by rw [huoutQ])⟩
  rw [runDecode_eq hfeed, decodeTail, if_pos hphase]
  exact runInstrs_append hrun (runInstrs_cons (exec_eof_complete hvphase hall) [])

/-- Settles O44: `ENCODE S` leaves the header of a decodable table behind the codes of `S`
(`encodeCall_done`), and `DECODE` reads such a file back (`runDecode_file`). -/
theorem decodeOfEncodeIsTheInput : Obligations.DecodeOfEncodeIsTheInput := by
  intro S out s t s' henc hphase hout
  obtain ⟨ct, bitlen, B, hct, hlen, hB, hbitlen, hsize, houtQ⟩ := encodeCall_done henc hphase
  obtain rfl : out = bytesOfBits B ++ headerBytes bitlen ct :=
    List.append_cancel_left (hout.symm.trans houtQ)
  rw [hsize, assembleFile_append]
  exact runDecode_file hct hlen hB hbitlen s'

end Sys2Proof.Machine
end

section
/-!
PROOFS. The control family (spec/46_control.md): NOP and CLEAR in every phase, their malformed
words, and the phases that CLEAR alone leaves.
-/

namespace Sys2Proof.Machine

open Sys2Proof.Safety

/-- A command without operands has a zero argument: with any other its word is illegal, and is
dropped in ERROR (R81, R91). -/
theorem issueWord_noOperand {m : Mnemonic} (hm : m.format = .none) {arg : Word32} (harg : arg ≠ 0)
    (s : State) : issueWord (wordOf arg m.opcode) s =
      .next (if s.regs.phase = .error then s else errorEntry s .illegalCmd (zext32 m.opcode)) := by
  have hillegal : wordLegal (wordOf arg m.opcode) = false := by
    refine Bool.eq_false_iff.2 fun hlegal => ?_
    obtain ⟨m', hop, hz⟩ := wordLegal_iff.1 hlegal
    rw [opOf_wordOf] at hop
    rw [opcode_injective hop, hm, argOf_wordOf] at hz
    exact harg (eq_of_beq hz)
  rw [issueWord_illegal hillegal, opOf_wordOf, apply_ite Host.Outcome.next]

/-- No command's rule runs in ENC_DONE, DEC_DONE or ERROR (R85). -/
theorem final_not_legal {i : Instr} (hn : i ≠ .nop) (hc : i ≠ .clear) {p : Phase}
    (hp : p ∈ [.encDone, .decDone, .error]) : p ∉ legalPhases i := by
  simp only [List.mem_cons, List.not_mem_nil, or_false] at hp
  cases i with
  | nop => exact absurd rfl hn
  | clear => exact absurd rfl hc
  | _ => rcases hp with rfl | rfl | rfl <;> simp [legalPhases]

/-- Settles O13: the word decodes to NOP, and NOP has no operands (`issueWord_noOperand`). -/
theorem nopChangesNothing : Obligations.NopChangesNothing := by
  refine ⟨fun s => ⟨exec_nop s, ?_⟩, fun s arg harg => issueWord_noOperand (m := .nop) rfl harg s⟩
  exact issueWord_ok (decodeOfEncodeIsTheCommand .nop) s

/-- Settles O12: the word decodes to CLEAR, CLEAR has no operands (`issueWord_noOperand`), and of the
commands that can answer anything in the final phases (`exec_cases`) no other has a rule there. -/
theorem clearRestartsTheCallAndKeepsTheStream :
    Obligations.ClearRestartsTheCallAndKeepsTheStream := by
  refine ⟨fun s => ⟨exec_clear s, ?_⟩, fun s => rfl, fun i s t hfinal hclear hx => ?_,
    fun s arg harg => issueWord_noOperand (m := .clear) rfl harg s⟩
  · exact issueWord_ok (decodeOfEncodeIsTheCommand .clear) s
  · rcases exec_cases hx with ⟨hi, _⟩ | ⟨_, _, rfl⟩ | ⟨_, _, rfl⟩ | ⟨hn, hc, _, hlegal, _⟩
    · exact absurd hi hclear
    · exact .inl rfl
    · exact .inr rfl
    · exact absurd hlegal (final_not_legal hn hc hfinal)

end Sys2Proof.Machine
end

section
/-!
PROOFS. The exceptions family (spec/60_exceptions.md): what an error leaves, that the phase ERROR is
sticky, and the cause and information word of each error.
-/

namespace Sys2Proof.Machine

open Sys2Proof.Safety

/-! ### An error is its four writes (R227, R228) -/

/-- No command but NOP completes in ERROR (R92). -/
theorem error_not_target {i : Instr} (hn : i ≠ .nop) (p : Phase) : Phase.error ∉ targetPhases i p := by
  cases i with
  | nop => exact absurd rfl hn
  | _ => simp [targetPhases]

/-- A command that leads to ERROR raised SEQUENCE, or the error of its own rule in a listed phase,
and did nothing else. -/
theorem exec_raised {i : Instr} {s t : State} (h : exec i s = .next t) (hs : s.regs.phase ≠ .error)
    (ht : t.regs.phase = .error) :
    (s.regs.phase ∉ legalPhases i ∧ t = errorEntry s .sequence (zext32 i.opcode)) ∨
    (s.regs.phase ∈ legalPhases i ∧
      ∃ e info, bodyOf i s.regs = .raised e info ∧ t = errorEntry s e info) := by
  rcases exec_cases h with ⟨_, rfl⟩ | ⟨_, _, rfl⟩ | ⟨_, hl, rfl⟩ |
    ⟨hn, hc, _, hl, hraised | ⟨r, out, hbody, rfl⟩⟩
  · cases ht
  · exact absurd ht hs
  · exact .inl ⟨hl, rfl⟩
  · exact .inr ⟨hl, hraised⟩
  · have htarget : r.phase ∈ targetPhases i s.regs.phase := bodyOf_done_phase hn hc hl hbody
    rw [show r.phase = .error from ht] at htarget
    exact absurd htarget (error_not_target hn _)

/-- Settles O14: an illegal word, a command out of phase and a command whose own rule fails
(`exec_raised`) all end in the shared error entry. -/
theorem errorsArePrecise : Obligations.ErrorsArePrecise := by
  intro w s t h hs ht
  rcases issueWord_cases h with ⟨i, _, hi⟩ | ⟨herr, _⟩ | ⟨_, rfl⟩
  · rcases exec_raised hi hs ht with ⟨_, rfl⟩ | ⟨_, e, info, hbody, rfl⟩
    · exact ⟨.sequence, zext32 i.opcode, by simp, rfl⟩
    · obtain ⟨he, _⟩ := bodyOf_raised hbody
      exact ⟨e, info, he, rfl⟩
  · exact absurd herr hs
  · exact ⟨.illegalCmd, zext32 (opOf w), by simp, rfl⟩

/-! ### ERROR is sticky (R229, R230) -/

/-- In ERROR every word but CLEAR's is dropped, a command or not. -/
theorem issueWord_dropped {w : CmdWord} {s : State} (herr : s.regs.phase = .error)
    (hw : w ≠ encode .clear) : issueWord w s = .next s := by
  cases hd : decode w with
  | error e => rw [issueWord_undecodable hd, if_pos herr]
  | ok i =>
    have hi : i ≠ .clear := by
      rintro rfl
      exact hw (acceptedWordIsTheEncodingOfItsCommand w .clear hd).symm
    rw [issueWord_ok hd, exec_error hi herr]

/-- CLEAR's word gives the record of R44. -/
theorem issueWord_clear_regs {s t : State} (h : issueWord (encode .clear) s = .next t) :
    t.regs = Regs.reset := by
  rw [issueWord_ok (decodeOfEncodeIsTheCommand .clear), exec_clear] at h
  cases h
  rfl

/-- Settles O15: of the host's actions a take and a CSR read leave the record alone, reset restores
it, and a word is CLEAR's (`issueWord_clear_regs`) or is dropped (`issueWord_dropped`). -/
theorem onlyClearOrResetLeavesError : Obligations.OnlyClearOrResetLeavesError := by
  refine ⟨fun s w herr hw => issueWord_dropped herr hw, fun s t herr h => ?_⟩
  rcases step_cases h with rfl | ⟨a, rest, hnext, hperform⟩
  · exact .inr rfl
  · cases a with
    | command w =>
      by_cases hw : w = encode .clear
      · subst hw
        exact .inl ⟨⟨rest, .inl hnext⟩, issueWord_clear_regs hperform⟩
      · have hdropped : issueWord w { s with host := rest } = .next { s with host := rest } :=
          issueWord_dropped herr hw
        cases hdropped.symm.trans hperform
        exact .inr rfl
    | takeByte =>
      cases hperform
      exact .inr (takeOutput_regs _)
    | readCsr a =>
      cases hperform
      exact .inr (answerCsr_regs _ a)
    | assertReset =>
      cases hperform
      exact .inl ⟨⟨rest, .inr hnext⟩, resetCore_regs _⟩

/-! ### The causes of the errors (R211 to R222) -/

/-- What the record holds when the own rule of a command raises an error with an information word:
one constructor for each way a rule can fail (`bodyOf_raised_cause`). -/
inductive ErrorCause (r : Regs) : Instr → ErrorCode → Word32 → Prop where
  | capCount {i : Instr} :
      isCount i = true → Config.maxWord < r.total.toNat + (countLanes i).length →
      ErrorCause r i .capCount r.total
  | capAlphabet :
      Config.maxTuples < r.ft.length → ErrorCause r .codegen .capAlphabet (BitVec.ofNat 32 r.ft.length)
  | capCodelen {w : List Bool} {sym : Byte} :
      Leads r.node r.root.toNat w sym → Config.maxLen < w.length →
      ErrorCause r .codegen .capCodelen (zext32 sym)
  | nosym {b : Byte} :
      lookupSym r.ct b = none → ErrorCause r (.pack b) .nosym (zext32 b)
  | capBitlen {b : Byte} {e : CtEntry} :
      lookupSym r.ct b = some e → Config.maxWord < r.bitlen.toNat + e.len.toNat →
      ErrorCause r (.pack b) .capBitlen r.bitlen
  | formatMagic {b : Byte} :
      r.hpos.toNat < 3 → Config.magic[r.hpos.toNat]? ≠ some b →
      ErrorCause r (.hdrRd b) .formatMagic (zext32 r.hpos)
  | formatNocode {b : Byte} {info : Word32} : ErrorCause r (.unpack b) .formatNocode info
  | formatTruncHeader :
      r.phase = .idle ∨ r.phase = .hdrParse → ErrorCause r .eof .formatTruncHeader (zext32 r.hpos)
  | formatTruncPayload :
      r.ucons.toNat < r.bitlen.toNat → ErrorCause r .eof .formatTruncPayload r.ucons

/-- A leaf CODEGEN refuses is the end of a path longer than 31; the promoted single leaf is never
refused (R137, R140). -/
theorem leads_of_codeTable_tooDeep {k : Nat} {nodes : List Node} {root : NodeIx} {sym : Byte}
    (h : codeTable k nodes root = .error (.tooDeep sym)) :
    ∃ w, Leads nodes root.toNat w sym ∧ Config.maxLen < w.length := by
  unfold codeTable at h
  split at h
  · cases h
  · split at h
    · split at h <;> cases h
    · obtain ⟨w, hleads, hdeep⟩ := leads_of_walk_tooDeep _ _ _ _ h
      exact ⟨w, hleads, by rwa [Nat.zero_add] at hdeep⟩

section Causes

variable {r : Regs} {e : ErrorCode} {info : Word32}

theorem countBody_raised_cause {i : Instr} (hi : isCount i = true)
    (h : countBody (countLanes i) r = .raised e info) : ErrorCause r i e info := by
  rcases countBody_cases (countLanes i) r with ⟨hfull, hbody⟩ | ⟨_, hbody⟩ <;> cases hbody.symm.trans h
  exact .capCount hi hfull

theorem codegenBody_raised_cause (h : codegenBody r = .raised e info) :
    ErrorCause r .codegen e info := by
  rcases codegenBody_cases r with ⟨hlen, hbody⟩ | ⟨_, ⟨_, _, hbody⟩ | ⟨_, htable, hbody⟩ | ⟨_, hbody⟩⟩ <;>
    cases hbody.symm.trans h
  · exact .capAlphabet hlen
  · obtain ⟨w, hleads, hdeep⟩ := leads_of_codeTable_tooDeep htable
    exact .capCodelen hleads hdeep

theorem packBody_raised_cause {b : Byte} (h : packBody b r = .raised e info) :
    ErrorCause r (.pack b) e info := by
  rcases packBody_cases b r with ⟨hnone, hbody⟩ | ⟨_, hl, hfull, hbody⟩ | ⟨_, _, _, hbody⟩ <;>
    cases hbody.symm.trans h
  · exact .nosym hnone
  · exact .capBitlen hl hfull

theorem hdrRdBody_raised_cause {b : Byte} (h : hdrRdBody b r = .raised e info) :
    ErrorCause r (.hdrRd b) e info := by
  rcases hdrRdBody_cases b r with ⟨hpos, hwrong, hbody⟩ | ⟨_, hbody⟩ <;> cases hbody.symm.trans h
  rw [BitVec.ofNat_toNat]
  exact .formatMagic hpos hwrong

theorem unpackBody_raised_cause {b : Byte} (h : unpackBody b r = .raised e info) :
    ErrorCause r (.unpack b) e info := by
  rcases takeBits_total (bitsMsb b) r with ⟨_, _, hbody⟩ | ⟨_, hbody⟩ <;> cases hbody.symm.trans h
  exact .formatNocode

theorem eofBody_raised_cause (h : eofBody r = .raised e info) : ErrorCause r .eof e info := by
  rcases eofBody_cases r with ⟨hphase, hbody⟩ | ⟨_, _, hlt, hbody⟩ | ⟨_, _, _, hbody⟩ <;>
    cases hbody.symm.trans h
  · exact .formatTruncHeader hphase
  · exact .formatTruncPayload hlt

/-- Every error a command's own rule raises has its cause. -/
theorem bodyOf_raised_cause {i : Instr} (h : bodyOf i r = .raised e info) : ErrorCause r i e info := by
  cases i with
  | nop | clear | ftbuild | tree | packEnd | hdrWr => cases h
  | count1 | count2 | count3 | count4 => exact countBody_raised_cause rfl h
  | codegen => exact codegenBody_raised_cause h
  | pack b => exact packBody_raised_cause h
  | hdrRd b => exact hdrRdBody_raised_cause h
  | unpack b => exact unpackBody_raised_cause h
  | eof => exact eofBody_raised_cause h

end Causes

/-- NOP and CLEAR are legal in every phase, and every other command's row of R211 lists SEQUENCE. -/
theorem sequence_mem_errorsOf {i : Instr} {p : Phase} (h : p ∉ legalPhases i) :
    ErrorCode.sequence ∈ errorsOf i := by
  have hall : p ∈ allPhases := by cases p <;> decide
  cases i with
  | nop | clear => exact absurd hall h
  | _ => simp [errorsOf]

/-- Settles O16: SEQUENCE comes of the phase, and every other error of the command's own rule
(`exec_raised`), whose causes are the rows of the statement (`bodyOf_raised_cause`). -/
theorem errorCausesAndInformation : Obligations.ErrorCausesAndInformation := by
  intro i s t hft h hs ht
  rcases exec_raised h hs ht with ⟨hl, rfl⟩ | ⟨hl, e, info, hbody, rfl⟩
  · exact ⟨sequence_mem_errorsOf hl, hl, rfl⟩
  · obtain ⟨_, _, _, hmem⟩ := bodyOf_raised hbody
    refine ⟨hmem, ?_⟩
    cases bodyOf_raised_cause hbody with
    | capCount hi hfull => exact ⟨hi, hfull, rfl⟩
    | capAlphabet hlen =>
      have h256 : s.regs.ft.length = 256 := Nat.le_antisymm hft hlen
      exact ⟨rfl, h256, by rw [errorEntry_errInfo, h256]; rfl⟩
    | capCodelen hleads hdeep => exact ⟨rfl, _, _, hleads, hdeep, rfl⟩
    | nosym hnone => exact ⟨_, rfl, lookupSym_eq_none_iff.1 hnone, rfl⟩
    | capBitlen hfound hfull => exact ⟨_, _, rfl, hfound, hfull, rfl⟩
    | formatMagic hpos hwrong => exact ⟨_, rfl, hpos, hwrong, rfl⟩
    | formatNocode => exact ⟨_, rfl, by simpa [legalPhases] using hl⟩
    | formatTruncHeader hphase => exact ⟨rfl, hphase, rfl⟩
    | formatTruncPayload hlt => exact ⟨rfl, hlt, rfl⟩

end Sys2Proof.Machine
end

section
/-!
PROOFS. The reset and hazards family (spec/70_reset_and_hazards.md): in a good state no action of the
host stops the machine.
-/

namespace Sys2Proof.Machine

open Sys2Proof.Safety

/-- A command whose own rule completes or raises an error has a next state (R7, R228). -/
theorem finish_total {s : State} {res : CmdResult} (h : ∀ f, res ≠ .stuck f) :
    ∃ t, finish s res = .next t := by
  cases res with
  | done r out => exact ⟨_, rfl⟩
  | raised e info => exact ⟨_, rfl⟩
  | stuck f => exact absurd rfl (h f)

/-- CODEGEN, the one command that can stop the machine, has a next state in every good state: in
TREE_READY it finds the tree that TREE left (R127), and in any other phase it reads no tree. -/
theorem exec_codegen_total {s : State} (h : GoodState s) : ∃ t, exec .codegen s = .next t := by
  by_cases herr : s.regs.phase = .error
  · exact ⟨s, exec_error (by simp) herr⟩
  by_cases hp : s.regs.phase = .treeReady
  · rw [exec_codegen hp]
    exact finish_total (codegenBody_not_stuck (goodStage_treeReady h hp))
  · exact ⟨_, exec_sequence herr (by simpa [legalPhases] using hp)⟩

/-- Every word, a command or not, has a next state in a good state. -/
theorem issueWord_total {s : State} (h : GoodState s) (w : CmdWord) :
    ∃ t, issueWord w s = .next t := by
  cases hd : decode w with
  | error e =>
    rw [issueWord_undecodable hd]
    split
    · exact ⟨_, rfl⟩
    · exact ⟨_, rfl⟩
  | ok i =>
    rw [issueWord_ok hd]
    by_cases hi : i = .codegen
    · exact hi ▸ exec_codegen_total h
    · exact exec_total hi s

/-- Every action of the host has a next state in a good state: only a word is more than a transfer. -/
theorem perform_total {s : State} (h : GoodState s) (a : HostAction) :
    ∃ t, perform a s = .next t := by
  cases a with
  | command w => exact issueWord_total h w
  | takeByte => exact ⟨_, rfl⟩
  | readCsr a => exact ⟨_, rfl⟩
  | assertReset => exact ⟨_, rfl⟩

/-- Settles O50: a step waits or performs one action of the host, and in a good state each action has
a next state. -/
theorem goodStatesNeverStop : Obligations.GoodStatesNeverStop := by
  intro s h
  cases hnext : nextAction s with
  | none => exact ⟨s, step_wait hnext⟩
  | some p =>
    obtain ⟨a, rest⟩ := p
    rw [step_perform hnext]
    exact perform_total (s := { s with host := rest }) (goodState_of_regs_eq h rfl) a

end Sys2Proof.Machine
end
